-- ==== Sys2Proof/Word.lean ====
section
/-! DEFINITION. The word types of the block: 8-bit memory and instruction bytes (10_state.md R19), 16-bit register slots
(10_state.md R10). -/

namespace Sys2Proof

/-- One byte of memory or of the code slice (10_state.md R19, R21). -/
abbrev Byte := BitVec 8

/-- The contents of one register slot (10_state.md R10: "14 16-bit slots"). -/
abbrev Word := BitVec 16

end Sys2Proof
end

