-- ==== Sys2Proof/Syntax.lean ====
section
/-! DEFINITION. The instructions of the block, one constructor per row of spec/opcode_table.json (30_encoding.md R76), and
the records the decode block hands to execution (10_state.md R23 to R26). A constructor carries the fields its encoding
carries; a constructor of an operand form carries exactly the bytes that form has. -/

namespace Sys2Proof

/-! ### Fields of the encoding -/

/-- A 3-bit register number, the `reg` field or the `rm` field when mod=11; which register it names also depends on `w`
(30_encoding.md R83). -/
inductive RegField where
  | r000 | r001 | r010 | r011 | r100 | r101 | r110 | r111
  deriving DecidableEq, Repr

/-- A 2-bit segment register number `sr` (30_encoding.md R84). -/
inductive SegField where
  | es | cs | ss | ds
  deriving DecidableEq, Repr

/-- A row of the rm table: the base and index terms of an effective address (30_encoding.md R85). -/
inductive EaBase where
  | bxSi | bxDi | bpSi | bpDi | si | di | bp | bx
  deriving DecidableEq, Repr

/-- The register-or-memory operand as the ModR/M byte and its displacement bytes encode it (30_encoding.md R80, R86). -/
inductive RegMem where
  /-- mod=11: `rm` names a register. -/
  | reg (r : RegField)
  /-- mod=00, rm=110: direct address, two bytes. -/
  | direct (addr : Word)
  /-- mod=00, rm≠110: no displacement. -/
  | mem (base : EaBase)
  /-- mod=01: one displacement byte. -/
  | mem8 (base : EaBase) (disp : Byte)
  /-- mod=10: two displacement bytes. -/
  | mem16 (base : EaBase) (disp : Word)
  deriving DecidableEq, Repr

/-- Immediate data of the formats RMI-M, RI and AI: one byte when w=0, two when w=1 (30_encoding.md R82). -/
inductive Imm where
  | byte (data : Byte)
  | word (data : Word)
  deriving DecidableEq, Repr

/-- Immediate data of format RMI-A, `100000sw` (30_encoding.md R82): w=0 with either `s` carries one byte (0x82 "decodes
exactly as 0x80 does", R107), w=1 s=0 carries two, w=1 s=1 carries one that is sign-extended. -/
inductive ArithImm where
  | byte (data : Byte)
  | word (data : Word)
  | wordSigned (data : Byte)
  deriving DecidableEq, Repr

/-- The address of format AM: one byte, zero-extended, or two bytes (30_encoding.md R93). -/
inductive AccAddr where
  | short (addr : Byte)
  | full (addr : Word)
  deriving DecidableEq, Repr

/-! ### Instructions -/

/-- The 38 encodings (30_encoding.md R76; spec/opcode_table.json), in the table's order. -/
inductive Instr where
  /-- `100010dw mod reg rm`, 41_mov.md R162. -/
  | movNormal (d w : Bool) (reg : RegField) (rm : RegMem)
  /-- `1100011w mod xxx rm data`, 41_mov.md R163. -/
  | movImmediateToRegisterOrMemory (rm : RegMem) (imm : Imm)
  /-- `1011wreg data`, 41_mov.md R164. -/
  | movImmediateToRegister (reg : RegField) (imm : Imm)
  /-- `1010000w addr`, 41_mov.md R165. -/
  | movMemoryToAccumulator (w : Bool) (addr : AccAddr)
  /-- `1010001w addr`, 41_mov.md R165. -/
  | movAccumulatorToMemory (w : Bool) (addr : AccAddr)
  /-- `10001110 mod x sr rm`, 41_mov.md R166. -/
  | movRegisterOrMemoryToSegmentRegister (sr : SegField) (rm : RegMem)
  /-- `10001100 mod x sr rm`, 41_mov.md R167. -/
  | movSegmentRegisterToRegisterOrMemory (sr : SegField) (rm : RegMem)
  /-- `000000dw mod reg rm`, 42_arith.md R184. -/
  | addNormal (d w : Bool) (reg : RegField) (rm : RegMem)
  /-- `100000sw mod 000 rm data`, 42_arith.md R185. -/
  | addImmediateToRegisterOrMemory (rm : RegMem) (imm : ArithImm)
  /-- `0000010w data`, 42_arith.md R186. -/
  | addImmediateToAccumulator (imm : Imm)
  /-- `001010dw mod reg rm`, 42_arith.md R187. -/
  | subNormal (d w : Bool) (reg : RegField) (rm : RegMem)
  /-- `100000sw mod 101 rm data`, 42_arith.md R188. -/
  | subImmediateFromRegisterOrMemory (rm : RegMem) (imm : ArithImm)
  /-- `0010110w data`, 42_arith.md R189. -/
  | subImmediateFromAccumulator (imm : Imm)
  /-- `001110dw mod reg rm`, 42_arith.md R190. -/
  | cmpNormal (d w : Bool) (reg : RegField) (rm : RegMem)
  /-- `100000sw mod 111 rm data`, 42_arith.md R191. -/
  | cmpImmediateWithRegisterOrMemory (rm : RegMem) (imm : ArithImm)
  /-- `0011110w data`, 42_arith.md R192. -/
  | cmpImmediateWithAccumulator (imm : Imm)
  /-- `70 disp`, 43_jumps.md R202. -/
  | jo (disp : Byte)
  /-- `71 disp`, 43_jumps.md R203. -/
  | jno (disp : Byte)
  /-- `72 disp`, 43_jumps.md R204. -/
  | jb (disp : Byte)
  /-- `73 disp`, 43_jumps.md R205. -/
  | jnb (disp : Byte)
  /-- `74 disp`, 43_jumps.md R206. -/
  | je (disp : Byte)
  /-- `75 disp`, 43_jumps.md R207. -/
  | jne (disp : Byte)
  /-- `76 disp`, 43_jumps.md R208. -/
  | jbe (disp : Byte)
  /-- `77 disp`, 43_jumps.md R209. -/
  | ja (disp : Byte)
  /-- `78 disp`, 43_jumps.md R210. -/
  | js (disp : Byte)
  /-- `79 disp`, 43_jumps.md R211. -/
  | jns (disp : Byte)
  /-- `7A disp`, 43_jumps.md R212. -/
  | jp (disp : Byte)
  /-- `7B disp`, 43_jumps.md R213. -/
  | jnp (disp : Byte)
  /-- `7C disp`, 43_jumps.md R214. -/
  | jl (disp : Byte)
  /-- `7D disp`, 43_jumps.md R215. -/
  | jnl (disp : Byte)
  /-- `7E disp`, 43_jumps.md R216. -/
  | jle (disp : Byte)
  /-- `7F disp`, 43_jumps.md R217. -/
  | jg (disp : Byte)
  /-- `E0 disp`, 43_jumps.md R220. -/
  | loopnz (disp : Byte)
  /-- `E1 disp`, 43_jumps.md R221. -/
  | loopz (disp : Byte)
  /-- `E2 disp`, 43_jumps.md R222. -/
  | loop (disp : Byte)
  /-- `E3 disp`, 43_jumps.md R223. -/
  | jcxz (disp : Byte)
  /-- `EB disp`, 43_jumps.md R225. -/
  | jmpDirectShort (disp : Byte)
  /-- `90`, 43_jumps.md R226. -/
  | nop
  deriving DecidableEq, Repr

/-! ### Opcode classes -/

/-- The 39 opcode classes (30_encoding.md R75). -/
inductive OpcodeClass where
  | movNormal
  | movImmediateToRegisterOrMemory
  | movImmediateToRegister
  | movMemoryToAccumulator
  | movAccumulatorToMemory
  | movRegisterOrMemoryToSegmentRegister
  | movSegmentRegisterToRegisterOrMemory
  | addNormal
  | addImmediateToRegisterOrMemory
  | addImmediateToAccumulator
  | subNormal
  | subImmediateFromRegisterOrMemory
  | subImmediateFromAccumulator
  | cmpNormal
  | cmpImmediateWithRegisterOrMemory
  | cmpImmediateWithAccumulator
  | arithmeticImmediate
  | jo | jno | jb | jnb | je | jne | jbe | ja | js | jns | jp | jnp | jl | jnl | jle | jg
  | loopnz | loopz | loop | jcxz | jmpDirectShort | nop
  deriving DecidableEq, Repr

/-! ### The semantic instruction -/

/-- The fourteen register slots in index order (10_state.md R10). -/
inductive Slot where
  | ax | bx | cx | dx | sp | bp | si | di | cs | ds | ss | es | ip | flags
  deriving DecidableEq, Repr

/-- The four registers that have byte halves (10_state.md R11). -/
inductive HalfReg where
  | ax | bx | cx | dx
  deriving DecidableEq, Repr

/-- A register access descriptor `(index, offset, count)` (10_state.md R13): `(i,0,2)`, `(i,0,1)` and `(i,1,1)`. The triples
that R13 gives no meaning to cannot be written (log 15). -/
inductive RegAccess where
  | word (slot : Slot)
  | low (reg : HalfReg)
  | high (reg : HalfReg)
  deriving DecidableEq, Repr

/-- A term of an effective-address expression: "{register_access, scale=0 (unused on 8086)}" (10_state.md R26). -/
structure EaTerm where
  access : RegAccess
  scale : Nat
  deriving DecidableEq, Repr

/-- The operand variants (10_state.md R26). -/
inductive Operand where
  | absent
  | register (acc : RegAccess)
  | direct (addr : BitVec 20)
  | effective (term1 : EaTerm) (term2 : Option EaTerm) (disp : BitVec 16) (segmentOverride : Option Slot)
  | immediate (value : BitVec 32) (relative : Bool)
  deriving DecidableEq, Repr

/-- The closed `op` enumeration, 26 operations (10_state.md R25). -/
inductive Op where
  | mov | add | sub | cmp
  | je | jne | jl | jnl | jle | jg | jb | jnb | jbe | ja | jp | jnp | jo | jno | js | jns
  | loop | loopz | loopnz | jcxz | jmp | nop
  deriving DecidableEq, Repr

/-- The instruction flags {wide, far, lock, rep, rep_ne, segment} (10_state.md R23, R24). -/
structure InstrFlags where
  wide : Bool
  far : Bool
  lock : Bool
  rep : Bool
  repNe : Bool
  segment : Bool
  deriving DecidableEq, Repr

/-- The semantic instruction, the decode block's output (10_state.md R23). `operand0` is the destination of a two-operand
operation, or the jump displacement; `operand1` is the source. -/
structure SemInstr where
  address : BitVec 32
  size : Nat
  op : Op
  flags : InstrFlags
  operand0 : Operand
  operand1 : Operand
  segmentOverride : Option Slot
  deriving DecidableEq, Repr

end Sys2Proof
end

