-- ==== Sys2Proof/Config.lean ====
section
/-! DEFINITION. The implementation parameters of 00_scope.md R5: the fixed sizes, the OPEN parameters a machine is built
with, and the two values of the cycle estimator that the spec leaves open. -/

namespace Sys2Proof

/-- `MEM_SIZE`: "a flat array of 1,048,576 bytes" (10_state.md R19; 00_scope.md R5). -/
def Config.memSize : Nat := 1048576

/-- `INSTR_MAX`: the longest instruction in bytes (30_encoding.md R70; 00_scope.md R5). -/
def Config.instrMax : Nat := 6

/-- The OPEN parameters that every decode and fetch reads (00_scope.md R5). They are plain data, so that a statement holds
for every setting; no step changes them (logs 1 and 3). -/
structure Params where
  /-- `ACC_ADDR_NARROW`: the accumulator-memory MOV with w=0 carries one address byte (92_eei_decisions.md D6). -/
  accAddrNarrow : Bool
  /-- `ORIGIN`: the physical address where the host copies the program (70_reset_and_hazards.md R286). -/
  origin : BitVec 20
  deriving DecidableEq, Repr

/-- The spec's defaults: `ACC_ADDR_NARROW` true, `ORIGIN` "typically 0" (00_scope.md R5; logs 1 and 3). -/
def Params.default : Params := { accAddrNarrow := true, origin := 0 }

/-- Free value: whether the cycle estimator counts the zero displacement of a semantic instruction that only an encoding with
displacement bytes builds. "Whether a zero displacement encoded with mod=01 (as in `[bp]`) counts as a displacement is not
stated" (70_reset_and_hazards.md R302; 91_not_in_source.md N10; DESIGN CHOICE, log 12). -/
opaque Config.zeroDisplacementCosts : SemInstr → Bool

/-- Free value: the cost of an effective-address expression whose terms are no row of 70_reset_and_hazards.md R302, which only
a hand-built instruction has (DESIGN CHOICE, log 26). -/
opaque Config.unlistedEaCost : Operand → Nat

end Sys2Proof
end

