-- ==== Sys2Proof/WellFormed.lean ====
section
/-! DEFINITION. Which terms of Instr an encoding exists for. A term that these checks refuse is no instruction of the
block: no byte string decodes to it. -/

namespace Sys2Proof

/-- With mod=00 the rm row 110 is not `[bp]` but the direct address (30_encoding.md R80, R85). -/
def RegMem.wellFormed : RegMem → Bool
  | .reg _ => true
  | .direct _ => true
  | .mem base => base != .bp
  | .mem8 _ _ => true
  | .mem16 _ _ => true

/-- Format AM carries two address bytes when w=1, and when w=0 one byte if `ACC_ADDR_NARROW` and two if not
(30_encoding.md R93). -/
def AccAddr.wellFormed (narrow w : Bool) : AccAddr → Bool
  | .short _ => narrow && !w
  | .full _ => w || !narrow

/-- The instruction has an encoding under the given `ACC_ADDR_NARROW` (30_encoding.md R71, R76). -/
def Instr.wellFormed (narrow : Bool) : Instr → Bool
  | .movNormal _ _ _ rm => rm.wellFormed
  | .movImmediateToRegisterOrMemory rm _ => rm.wellFormed
  | .movImmediateToRegister _ _ => true
  | .movMemoryToAccumulator w addr => addr.wellFormed narrow w
  | .movAccumulatorToMemory w addr => addr.wellFormed narrow w
  | .movRegisterOrMemoryToSegmentRegister _ rm => rm.wellFormed
  | .movSegmentRegisterToRegisterOrMemory _ rm => rm.wellFormed
  | .addNormal _ _ _ rm => rm.wellFormed
  | .addImmediateToRegisterOrMemory rm _ => rm.wellFormed
  | .addImmediateToAccumulator _ => true
  | .subNormal _ _ _ rm => rm.wellFormed
  | .subImmediateFromRegisterOrMemory rm _ => rm.wellFormed
  | .subImmediateFromAccumulator _ => true
  | .cmpNormal _ _ _ rm => rm.wellFormed
  | .cmpImmediateWithRegisterOrMemory rm _ => rm.wellFormed
  | .cmpImmediateWithAccumulator _ => true
  | .jo _ | .jno _ | .jb _ | .jnb _ | .je _ | .jne _ | .jbe _ | .ja _ => true
  | .js _ | .jns _ | .jp _ | .jnp _ | .jl _ | .jnl _ | .jle _ | .jg _ => true
  | .loopnz _ | .loopz _ | .loop _ | .jcxz _ | .jmpDirectShort _ | .nop => true

end Sys2Proof
end

