-- ==== Sys2Proof/Decode.lean ====
section
/-! DEFINITION. The decode block (40_decoder.md): byte reader, classifier, field reader and structural decoder; then the
encoder, written from the same tables of 30_encoding.md. Decoding is total on any bytes and rejects by name. -/

namespace Sys2Proof

/-! ### Bytes, words and extensions (00_scope.md R6) -/

/-- `v[7:0]`. -/
def lowByte (v : Word) : Byte := v.extractLsb' 0 8

/-- `v[15:8]`. -/
def highByte (v : Word) : Byte := v.extractLsb' 8 8

/-- `lo | (hi << 8)` (20_memory.md R40). -/
def joinBytes (lo hi : Byte) : Word := hi ++ lo

/-- `uint16(x)` as a slot value (00_scope.md R6). -/
def uint16 (x : Int) : Word := BitVec.ofInt 16 x

/-- `sint16(x)` of a slot value (00_scope.md R6). -/
def sint16 (v : Word) : Int := v.toInt

/-! ### Field numbers (30_encoding.md R83 to R85) -/

def RegField.toBits : RegField → BitVec 3
  | .r000 => 0 | .r001 => 1 | .r010 => 2 | .r011 => 3
  | .r100 => 4 | .r101 => 5 | .r110 => 6 | .r111 => 7

def RegField.ofBits (b : BitVec 3) : RegField :=
  match b.toNat with
  | 0 => .r000 | 1 => .r001 | 2 => .r010 | 3 => .r011
  | 4 => .r100 | 5 => .r101 | 6 => .r110 | _ => .r111

/-- "00=ES, 01=CS, 10=SS, 11=DS" (30_encoding.md R84). -/
def SegField.toBits : SegField → BitVec 2
  | .es => 0 | .cs => 1 | .ss => 2 | .ds => 3

def SegField.ofBits (b : BitVec 2) : SegField :=
  match b.toNat with
  | 0 => .es | 1 => .cs | 2 => .ss | _ => .ds

/-- The rm column of 30_encoding.md R85. -/
def EaBase.toBits : EaBase → BitVec 3
  | .bxSi => 0 | .bxDi => 1 | .bpSi => 2 | .bpDi => 3
  | .si => 4 | .di => 5 | .bp => 6 | .bx => 7

def EaBase.ofBits (b : BitVec 3) : EaBase :=
  match b.toNat with
  | 0 => .bxSi | 1 => .bxDi | 2 => .bpSi | 3 => .bpDi
  | 4 => .si | 5 => .di | 6 => .bp | _ => .bx

/-- `Reg(n, w)` (30_encoding.md R83). -/
def regAccess : RegField → Bool → RegAccess
  | .r000, false => .low .ax    | .r000, true => .word .ax
  | .r001, false => .low .cx    | .r001, true => .word .cx
  | .r010, false => .low .dx    | .r010, true => .word .dx
  | .r011, false => .low .bx    | .r011, true => .word .bx
  | .r100, false => .high .ax   | .r100, true => .word .sp
  | .r101, false => .high .cx   | .r101, true => .word .bp
  | .r110, false => .high .dx   | .r110, true => .word .si
  | .r111, false => .high .bx   | .r111, true => .word .di

/-- The slot of a segment register field (30_encoding.md R84). -/
def SegField.slot : SegField → Slot
  | .es => .es | .cs => .cs | .ss => .ss | .ds => .ds

/-- `SegReg(sr)` (30_encoding.md R84). -/
def segAccess (sr : SegField) : RegAccess := .word sr.slot

/-- A word term with scale 0 (10_state.md R26; 30_encoding.md R85). -/
def eaTerm (slot : Slot) : EaTerm := { access := .word slot, scale := 0 }

/-- Column term1 of the rm table (30_encoding.md R85). -/
def EaBase.term1 : EaBase → EaTerm
  | .bxSi => eaTerm .bx | .bxDi => eaTerm .bx | .bpSi => eaTerm .bp | .bpDi => eaTerm .bp
  | .si => eaTerm .si | .di => eaTerm .di | .bp => eaTerm .bp | .bx => eaTerm .bx

/-- Column term2 of the rm table (30_encoding.md R85). -/
def EaBase.term2 : EaBase → Option EaTerm
  | .bxSi => some (eaTerm .si) | .bxDi => some (eaTerm .di)
  | .bpSi => some (eaTerm .si) | .bpDi => some (eaTerm .di)
  | .si => none | .di => none | .bp => none | .bx => none

/-- An effective-address expression over a row of the rm table; no segment override (30_encoding.md R86). -/
def effectiveOperand (base : EaBase) (disp : BitVec 16) : Operand :=
  .effective base.term1 base.term2 disp none

/-- A direct address, zero-extended into the 20-bit field (30_encoding.md R91). -/
def directOperand (addr : Word) : Operand := .direct (addr.setWidth 20)

/-- `RM(mod, rm, w)` (30_encoding.md R86), with the displacement value of R81. -/
def RegMem.operand (w : Bool) : RegMem → Operand
  | .reg r => .register (regAccess r w)
  | .direct addr => directOperand addr
  | .mem base => effectiveOperand base 0
  | .mem8 base disp => effectiveOperand base (disp.signExtend 16)
  | .mem16 base disp => effectiveOperand base disp

/-- Number of displacement bytes (30_encoding.md R80). -/
def RegMem.dispLen : RegMem → Nat
  | .reg _ => 0
  | .direct _ => 2
  | .mem _ => 0
  | .mem8 _ _ => 1
  | .mem16 _ _ => 2

/-- `w` of an immediate form (30_encoding.md R82). -/
def Imm.wide : Imm → Bool
  | .byte _ => false
  | .word _ => true

/-- Number of data bytes (30_encoding.md R82). -/
def Imm.len : Imm → Nat
  | .byte _ => 1
  | .word _ => 2

/-- The immediate value, sign-extended (30_encoding.md R90). -/
def Imm.value : Imm → BitVec 32
  | .byte d => d.signExtend 32
  | .word d => d.signExtend 32

def Imm.operand (imm : Imm) : Operand := .immediate imm.value false

/-- `w` of a `100000sw` form (30_encoding.md R72). -/
def ArithImm.wide : ArithImm → Bool
  | .byte _ => false
  | .word _ => true
  | .wordSigned _ => true

/-- "data (wide iff w&!s)" (30_encoding.md R82). -/
def ArithImm.len : ArithImm → Nat
  | .byte _ => 1
  | .word _ => 2
  | .wordSigned _ => 1

/-- The immediate value, sign-extended (30_encoding.md R90). -/
def ArithImm.value : ArithImm → BitVec 32
  | .byte d => d.signExtend 32
  | .word d => d.signExtend 32
  | .wordSigned d => d.signExtend 32

def ArithImm.operand (imm : ArithImm) : Operand := .immediate imm.value false

/-- Number of address bytes (30_encoding.md R93). -/
def AccAddr.len : AccAddr → Nat
  | .short _ => 1
  | .full _ => 2

/-- The direct address of format AM, zero-extended (30_encoding.md R93). -/
def AccAddr.operand : AccAddr → Operand
  | .short a => directOperand (a.setWidth 16)
  | .full a => directOperand a

/-- The accumulator, `Reg(0b000, w)`: AX when w=1, AL when w=0 (40_decoder.md R139, R140). -/
def accOperand (w : Bool) : Operand := .register (regAccess .r000 w)

/-- The operand of format J8: the signed offset, flagged relative (30_encoding.md R92). -/
def relOperand (disp : Byte) : Operand := .immediate (disp.signExtend 32) true

/-- "operand[d ? 0 : 1] is the register encoded by `reg`" (30_encoding.md R87): the destination. -/
def rmDst (d w : Bool) (reg : RegField) (rm : RegMem) : Operand :=
  if d then .register (regAccess reg w) else rm.operand w

/-- The source of format RM (30_encoding.md R87). -/
def rmSrc (d w : Bool) (reg : RegField) (rm : RegMem) : Operand :=
  if d then rm.operand w else .register (regAccess reg w)

/-! ### The structural decoder (40_decoder.md R135 to R142) -/

/-- The size in bytes (30_encoding.md R100; 10_state.md R23: "the number of bytes consumed"). -/
def Instr.size : Instr → Nat
  | .movNormal _ _ _ rm => 2 + rm.dispLen
  | .movImmediateToRegisterOrMemory rm imm => 2 + rm.dispLen + imm.len
  | .movImmediateToRegister _ imm => 1 + imm.len
  | .movMemoryToAccumulator _ addr => 1 + addr.len
  | .movAccumulatorToMemory _ addr => 1 + addr.len
  | .movRegisterOrMemoryToSegmentRegister _ rm => 2 + rm.dispLen
  | .movSegmentRegisterToRegisterOrMemory _ rm => 2 + rm.dispLen
  | .addNormal _ _ _ rm => 2 + rm.dispLen
  | .addImmediateToRegisterOrMemory rm imm => 2 + rm.dispLen + imm.len
  | .addImmediateToAccumulator imm => 1 + imm.len
  | .subNormal _ _ _ rm => 2 + rm.dispLen
  | .subImmediateFromRegisterOrMemory rm imm => 2 + rm.dispLen + imm.len
  | .subImmediateFromAccumulator imm => 1 + imm.len
  | .cmpNormal _ _ _ rm => 2 + rm.dispLen
  | .cmpImmediateWithRegisterOrMemory rm imm => 2 + rm.dispLen + imm.len
  | .cmpImmediateWithAccumulator imm => 1 + imm.len
  | .jo _ | .jno _ | .jb _ | .jnb _ | .je _ | .jne _ | .jbe _ | .ja _ => 2
  | .js _ | .jns _ | .jp _ | .jnp _ | .jl _ | .jnl _ | .jle _ | .jg _ => 2
  | .loopnz _ | .loopz _ | .loop _ | .jcxz _ | .jmpDirectShort _ => 2
  | .nop => 1

/-- The operation of an instruction (30_encoding.md R76, column op). -/
def Instr.op : Instr → Op
  | .movNormal .. | .movImmediateToRegisterOrMemory .. | .movImmediateToRegister .. => .mov
  | .movMemoryToAccumulator .. | .movAccumulatorToMemory .. => .mov
  | .movRegisterOrMemoryToSegmentRegister .. | .movSegmentRegisterToRegisterOrMemory .. => .mov
  | .addNormal .. | .addImmediateToRegisterOrMemory .. | .addImmediateToAccumulator .. => .add
  | .subNormal .. | .subImmediateFromRegisterOrMemory .. | .subImmediateFromAccumulator .. => .sub
  | .cmpNormal .. | .cmpImmediateWithRegisterOrMemory .. | .cmpImmediateWithAccumulator .. => .cmp
  | .jo _ => .jo | .jno _ => .jno | .jb _ => .jb | .jnb _ => .jnb
  | .je _ => .je | .jne _ => .jne | .jbe _ => .jbe | .ja _ => .ja
  | .js _ => .js | .jns _ => .jns | .jp _ => .jp | .jnp _ => .jnp
  | .jl _ => .jl | .jnl _ => .jnl | .jle _ => .jle | .jg _ => .jg
  | .loopnz _ => .loopnz | .loopz _ => .loopz | .loop _ => .loop | .jcxz _ => .jcxz
  | .jmpDirectShort _ => .jmp
  | .nop => .nop

/-- The `wide` flag (10_state.md R24): `w` where there is one, set for the segment-register MOVs, else clear. -/
def Instr.wide : Instr → Bool
  | .movNormal _ w _ _ => w
  | .movImmediateToRegisterOrMemory _ imm => imm.wide
  | .movImmediateToRegister _ imm => imm.wide
  | .movMemoryToAccumulator w _ => w
  | .movAccumulatorToMemory w _ => w
  | .movRegisterOrMemoryToSegmentRegister _ _ => true
  | .movSegmentRegisterToRegisterOrMemory _ _ => true
  | .addNormal _ w _ _ => w
  | .addImmediateToRegisterOrMemory _ imm => imm.wide
  | .addImmediateToAccumulator imm => imm.wide
  | .subNormal _ w _ _ => w
  | .subImmediateFromRegisterOrMemory _ imm => imm.wide
  | .subImmediateFromAccumulator imm => imm.wide
  | .cmpNormal _ w _ _ => w
  | .cmpImmediateWithRegisterOrMemory _ imm => imm.wide
  | .cmpImmediateWithAccumulator imm => imm.wide
  | .jo _ | .jno _ | .jb _ | .jnb _ | .je _ | .jne _ | .jbe _ | .ja _ => false
  | .js _ | .jns _ | .jp _ | .jnp _ | .jl _ | .jnl _ | .jle _ | .jg _ => false
  | .loopnz _ | .loopz _ | .loop _ | .jcxz _ | .jmpDirectShort _ | .nop => false

/-- `operands[0]` (40_decoder.md R136 to R142). -/
def Instr.operand0 : Instr → Operand
  | .movNormal d w reg rm => rmDst d w reg rm
  | .movImmediateToRegisterOrMemory rm imm => rm.operand imm.wide
  | .movImmediateToRegister reg imm => .register (regAccess reg imm.wide)
  | .movMemoryToAccumulator w _ => accOperand w
  | .movAccumulatorToMemory _ addr => addr.operand
  | .movRegisterOrMemoryToSegmentRegister sr _ => .register (segAccess sr)
  | .movSegmentRegisterToRegisterOrMemory _ rm => rm.operand true
  | .addNormal d w reg rm => rmDst d w reg rm
  | .addImmediateToRegisterOrMemory rm imm => rm.operand imm.wide
  | .addImmediateToAccumulator imm => accOperand imm.wide
  | .subNormal d w reg rm => rmDst d w reg rm
  | .subImmediateFromRegisterOrMemory rm imm => rm.operand imm.wide
  | .subImmediateFromAccumulator imm => accOperand imm.wide
  | .cmpNormal d w reg rm => rmDst d w reg rm
  | .cmpImmediateWithRegisterOrMemory rm imm => rm.operand imm.wide
  | .cmpImmediateWithAccumulator imm => accOperand imm.wide
  | .jo d | .jno d | .jb d | .jnb d | .je d | .jne d | .jbe d | .ja d => relOperand d
  | .js d | .jns d | .jp d | .jnp d | .jl d | .jnl d | .jle d | .jg d => relOperand d
  | .loopnz d | .loopz d | .loop d | .jcxz d | .jmpDirectShort d => relOperand d
  | .nop => .absent

/-- `operands[1]` (40_decoder.md R136 to R142). -/
def Instr.operand1 : Instr → Operand
  | .movNormal d w reg rm => rmSrc d w reg rm
  | .movImmediateToRegisterOrMemory _ imm => imm.operand
  | .movImmediateToRegister _ imm => imm.operand
  | .movMemoryToAccumulator _ addr => addr.operand
  | .movAccumulatorToMemory w _ => accOperand w
  | .movRegisterOrMemoryToSegmentRegister _ rm => rm.operand true
  | .movSegmentRegisterToRegisterOrMemory sr _ => .register (segAccess sr)
  | .addNormal d w reg rm => rmSrc d w reg rm
  | .addImmediateToRegisterOrMemory _ imm => imm.operand
  | .addImmediateToAccumulator imm => imm.operand
  | .subNormal d w reg rm => rmSrc d w reg rm
  | .subImmediateFromRegisterOrMemory _ imm => imm.operand
  | .subImmediateFromAccumulator imm => imm.operand
  | .cmpNormal d w reg rm => rmSrc d w reg rm
  | .cmpImmediateWithRegisterOrMemory _ imm => imm.operand
  | .cmpImmediateWithAccumulator imm => imm.operand
  | .jo _ | .jno _ | .jb _ | .jnb _ | .je _ | .jne _ | .jbe _ | .ja _ => .absent
  | .js _ | .jns _ | .jp _ | .jnp _ | .jl _ | .jnl _ | .jle _ | .jg _ => .absent
  | .loopnz _ | .loopz _ | .loop _ | .jcxz _ | .jmpDirectShort _ | .nop => .absent

/-- `Build(raw, i0)`: the semantic instruction of an instruction read at `address` (40_decoder.md R135; 10_state.md R23,
R24: only `wide` is ever set and `segment_override` is always absent). -/
def Instr.build (i : Instr) (address : BitVec 32) : SemInstr :=
  { address := address
    size := i.size
    op := i.op
    flags := { wide := i.wide, far := false, lock := false, rep := false, repNe := false, segment := false }
    operand0 := i.operand0
    operand1 := i.operand1
    segmentOverride := none }

/-! ### The classifier (30_encoding.md R74; 40_decoder.md R123) -/

/-- The table of prefix length 8. -/
def classTable8 : List (Nat × OpcodeClass) :=
  [(0x70, .jo), (0x71, .jno), (0x72, .jb), (0x73, .jnb), (0x74, .je), (0x75, .jne), (0x76, .jbe), (0x77, .ja)] ++
  [(0x78, .js), (0x79, .jns), (0x7A, .jp), (0x7B, .jnp), (0x7C, .jl), (0x7D, .jnl), (0x7E, .jle), (0x7F, .jg)] ++
  [(0x8C, .movSegmentRegisterToRegisterOrMemory), (0x8E, .movRegisterOrMemoryToSegmentRegister), (0x90, .nop)] ++
  [(0xE0, .loopnz), (0xE1, .loopz), (0xE2, .loop), (0xE3, .jcxz), (0xEB, .jmpDirectShort)]

/-- The table of prefix length 7. -/
def classTable7 : List (Nat × OpcodeClass) :=
  [(0x02, .addImmediateToAccumulator), (0x16, .subImmediateFromAccumulator), (0x1E, .cmpImmediateWithAccumulator),
   (0x50, .movMemoryToAccumulator), (0x51, .movAccumulatorToMemory), (0x63, .movImmediateToRegisterOrMemory)]

/-- The table of prefix length 6. -/
def classTable6 : List (Nat × OpcodeClass) :=
  [(0x00, .addNormal), (0x0A, .subNormal), (0x0E, .cmpNormal), (0x20, .arithmeticImmediate), (0x22, .movNormal)]

/-- The table of prefix length 4. -/
def classTable4 : List (Nat × OpcodeClass) := [(0xB, .movImmediateToRegister)]

/-- The tables in search order, each with its shift: "8-bit, 7-bit, 6-bit, (5-bit), 4-bit", the 5-bit one skipped
(90_conflicts.md C2). -/
def classTables : List (Nat × List (Nat × OpcodeClass)) :=
  [(0, classTable8), (1, classTable7), (2, classTable6), (4, classTable4)]

/-- `Classify(b0)`: "First hit wins" (40_decoder.md R123). -/
def classify (b0 : Byte) : Option OpcodeClass :=
  classTables.findSome? fun (shift, table) => table.lookup (b0.toNat >>> shift)

/-! ### The field reader (40_decoder.md R125 to R134) -/

/-- The two errors a decode can raise (40_decoder.md R121; log 11: the diagnostic payload is not carried). -/
inductive DecodeError where
  | endOfStream
  | unrecognizedOpcode
  deriving DecidableEq, Repr

/-- What a reader answers: the value and the bytes after it, or the error. -/
abbrev Reading (α : Type) := Except DecodeError (α × List Byte)

/-- `Read` (40_decoder.md R120), on the bytes from the cursor to the end of the slice. -/
def readByte : List Byte → Reading Byte
  | [] => .error .endOfStream
  | b :: rest => .ok (b, rest)

/-- One reading after another: the bytes are consumed in order, and the first error ends the reading (40_decoder.md R146). -/
def readThen {α β : Type} (r : Reading α) (next : α → List Byte → Reading β) : Reading β :=
  match r with
  | .ok (a, bs) => next a bs
  | .error e => .error e

/-- Two bytes, low byte first (20_memory.md R40). -/
def readWord (bs : List Byte) : Reading Word :=
  readThen (readByte bs) fun lo bs =>
  readThen (readByte bs) fun hi bs =>
  .ok (joinBytes lo hi, bs)

/-- `b1[7:6]` (30_encoding.md R73). -/
def modBits (b1 : Byte) : BitVec 2 := b1.extractLsb' 6 2

/-- `b1[5:3]` (30_encoding.md R73). -/
def regBits (b1 : Byte) : BitVec 3 := b1.extractLsb' 3 3

/-- `b1[2:0]` (30_encoding.md R73). -/
def rmBits (b1 : Byte) : BitVec 3 := b1.extractLsb' 0 3

/-- `b1[4:3]`, the `sr` field of format SR (30_encoding.md R71). -/
def srBits (b1 : Byte) : BitVec 2 := b1.extractLsb' 3 2

/-- The register-or-memory operand of a ModR/M byte, reading its displacement (40_decoder.md R125 ReadDisp; 30_encoding.md
R80). -/
def readRegMem (b1 : Byte) (bs : List Byte) : Reading RegMem :=
  match (modBits b1).toNat with
  | 3 => .ok (.reg (RegField.ofBits (rmBits b1)), bs)
  | 2 =>
      readThen (readWord bs) fun disp bs =>
      .ok (.mem16 (EaBase.ofBits (rmBits b1)) disp, bs)
  | 1 =>
      readThen (readByte bs) fun disp bs =>
      .ok (.mem8 (EaBase.ofBits (rmBits b1)) disp, bs)
  | _ =>
      match EaBase.ofBits (rmBits b1) with
      | .bp =>
          readThen (readWord bs) fun addr bs =>
          .ok (.direct addr, bs)
      | base => .ok (.mem base, bs)

/-- `ReadData` for a form whose length follows `w` (30_encoding.md R82). -/
def readImm (w : Bool) (bs : List Byte) : Reading Imm :=
  if w then
    readThen (readWord bs) fun data bs =>
    .ok (.word data, bs)
  else
    readThen (readByte bs) fun data bs =>
    .ok (.byte data, bs)

/-- `ReadData` for `100000sw`: two bytes when w=1 and s=0, else one (30_encoding.md R82). -/
def readArithImm (s w : Bool) (bs : List Byte) : Reading ArithImm :=
  if w then
    if s then
      readThen (readByte bs) fun data bs =>
      .ok (.wordSigned data, bs)
    else
      readThen (readWord bs) fun data bs =>
      .ok (.word data, bs)
  else
    readThen (readByte bs) fun data bs =>
    .ok (.byte data, bs)

/-- The address of format AM: two bytes when `w=1 or not ACC_ADDR_NARROW` (40_decoder.md R131). -/
def readAccAddr (narrow w : Bool) (bs : List Byte) : Reading AccAddr :=
  if w || !narrow then
    readThen (readWord bs) fun addr bs =>
    .ok (.full addr, bs)
  else
    readThen (readByte bs) fun addr bs =>
    .ok (.short addr, bs)

/-- Resolution of `arithmetic_immediate` by `b1[5:3]` (30_encoding.md R78). -/
def resolveArith (sub : BitVec 3) : Option OpcodeClass :=
  match sub.toNat with
  | 0 => some .addImmediateToRegisterOrMemory
  | 5 => some .subImmediateFromRegisterOrMemory
  | 7 => some .cmpImmediateWithRegisterOrMemory
  | _ => none

/-- Format RM: "w,d from byte 0; mod,reg,rm from byte 1 | displacement" (40_decoder.md R126). -/
def readRM (make : Bool → Bool → RegField → RegMem → Instr) (b0 : Byte) (bs : List Byte) : Reading Instr :=
  readThen (readByte bs) fun b1 bs =>
  readThen (readRegMem b1 bs) fun rm bs =>
  .ok (make (b0.getLsbD 1) (b0.getLsbD 0) (RegField.ofBits (regBits b1)) rm, bs)

/-- The displacement and data of format RMI-A, after the sub-opcode is resolved (40_decoder.md R127). -/
def readRmImm (make : RegMem → ArithImm → Instr) (b0 b1 : Byte) (bs : List Byte) : Reading Instr :=
  readThen (readRegMem b1 bs) fun rm bs =>
  readThen (readArithImm (b0.getLsbD 1) (b0.getLsbD 0) bs) fun imm bs =>
  .ok (make rm imm, bs)

/-- Format RMI-A: the sub-opcode is resolved "as soon as `b1` is read, before any displacement or data byte is read"
(40_decoder.md R127). -/
def readArithmeticImmediate (b0 : Byte) (bs : List Byte) : Reading Instr :=
  readThen (readByte bs) fun b1 bs =>
  match resolveArith (regBits b1) with
  | some .addImmediateToRegisterOrMemory => readRmImm .addImmediateToRegisterOrMemory b0 b1 bs
  | some .subImmediateFromRegisterOrMemory => readRmImm .subImmediateFromRegisterOrMemory b0 b1 bs
  | some .cmpImmediateWithRegisterOrMemory => readRmImm .cmpImmediateWithRegisterOrMemory b0 b1 bs
  | _ => .error .unrecognizedOpcode

/-- Format RMI-M; `b1[5:3]` is not examined (40_decoder.md R128; 30_encoding.md R107). -/
def readMovImmediate (b0 : Byte) (bs : List Byte) : Reading Instr :=
  readThen (readByte bs) fun b1 bs =>
  readThen (readRegMem b1 bs) fun rm bs =>
  readThen (readImm (b0.getLsbD 0) bs) fun imm bs =>
  .ok (.movImmediateToRegisterOrMemory rm imm, bs)

/-- Format RI: `w` is bit 3, `reg` bits 2:0 of `b0` (40_decoder.md R129). -/
def readMovRegImmediate (b0 : Byte) (bs : List Byte) : Reading Instr :=
  readThen (readImm (b0.getLsbD 3) bs) fun imm bs =>
  .ok (.movImmediateToRegister (RegField.ofBits (rmBits b0)) imm, bs)

/-- Format AI (40_decoder.md R130). -/
def readAI (make : Imm → Instr) (b0 : Byte) (bs : List Byte) : Reading Instr :=
  readThen (readImm (b0.getLsbD 0) bs) fun imm bs =>
  .ok (make imm, bs)

/-- Format AM (40_decoder.md R131). -/
def readAM (narrow : Bool) (make : Bool → AccAddr → Instr) (b0 : Byte) (bs : List Byte) : Reading Instr :=
  readThen (readAccAddr narrow (b0.getLsbD 0) bs) fun addr bs =>
  .ok (make (b0.getLsbD 0) addr, bs)

/-- Format SR; `b1[5]` is not examined (40_decoder.md R132; 30_encoding.md R107). -/
def readSR (make : SegField → RegMem → Instr) (bs : List Byte) : Reading Instr :=
  readThen (readByte bs) fun b1 bs =>
  readThen (readRegMem b1 bs) fun rm bs =>
  .ok (make (SegField.ofBits (srBits b1)) rm, bs)

/-- Format J8: one signed byte (40_decoder.md R133). -/
def readJ8 (make : Byte → Instr) (bs : List Byte) : Reading Instr :=
  readThen (readByte bs) fun disp bs =>
  .ok (make disp, bs)

/-- `ReadFields` (40_decoder.md R125 to R134). `Classify` never answers the three resolved classes of R78, so a first byte
of such a class is unrecognised. -/
def readFields (narrow : Bool) (cls : OpcodeClass) (b0 : Byte) (bs : List Byte) : Reading Instr :=
  match cls with
  | .movNormal => readRM .movNormal b0 bs
  | .movImmediateToRegisterOrMemory => readMovImmediate b0 bs
  | .movImmediateToRegister => readMovRegImmediate b0 bs
  | .movMemoryToAccumulator => readAM narrow .movMemoryToAccumulator b0 bs
  | .movAccumulatorToMemory => readAM narrow .movAccumulatorToMemory b0 bs
  | .movRegisterOrMemoryToSegmentRegister => readSR .movRegisterOrMemoryToSegmentRegister bs
  | .movSegmentRegisterToRegisterOrMemory => readSR .movSegmentRegisterToRegisterOrMemory bs
  | .addNormal => readRM .addNormal b0 bs
  | .addImmediateToAccumulator => readAI .addImmediateToAccumulator b0 bs
  | .subNormal => readRM .subNormal b0 bs
  | .subImmediateFromAccumulator => readAI .subImmediateFromAccumulator b0 bs
  | .cmpNormal => readRM .cmpNormal b0 bs
  | .cmpImmediateWithAccumulator => readAI .cmpImmediateWithAccumulator b0 bs
  | .arithmeticImmediate => readArithmeticImmediate b0 bs
  | .addImmediateToRegisterOrMemory => .error .unrecognizedOpcode
  | .subImmediateFromRegisterOrMemory => .error .unrecognizedOpcode
  | .cmpImmediateWithRegisterOrMemory => .error .unrecognizedOpcode
  | .jo => readJ8 .jo bs
  | .jno => readJ8 .jno bs
  | .jb => readJ8 .jb bs
  | .jnb => readJ8 .jnb bs
  | .je => readJ8 .je bs
  | .jne => readJ8 .jne bs
  | .jbe => readJ8 .jbe bs
  | .ja => readJ8 .ja bs
  | .js => readJ8 .js bs
  | .jns => readJ8 .jns bs
  | .jp => readJ8 .jp bs
  | .jnp => readJ8 .jnp bs
  | .jl => readJ8 .jl bs
  | .jnl => readJ8 .jnl bs
  | .jle => readJ8 .jle bs
  | .jg => readJ8 .jg bs
  | .loopnz => readJ8 .loopnz bs
  | .loopz => readJ8 .loopz bs
  | .loop => readJ8 .loop bs
  | .jcxz => readJ8 .jcxz bs
  | .jmpDirectShort => readJ8 .jmpDirectShort bs
  | .nop => .ok (.nop, bs)

/-- `Decode` (40_decoder.md R122) on the bytes from the cursor to the end of the slice: the instruction and the bytes after
it, or the error; errors are raised in byte order (R146). -/
def decode (narrow : Bool) (bs : List Byte) : Reading Instr :=
  readThen (readByte bs) fun b0 bs =>
  match classify b0 with
  | some cls => readFields narrow cls b0 bs
  | none => .error .unrecognizedOpcode

/-! ### The encoder -/

/-- A first byte with its `d` or `s` in bit 1 and its `w` in bit 0 (30_encoding.md R72). -/
def opcodeByte (base : Byte) (bit1 bit0 : Bool) : Byte :=
  base ||| (if bit1 then 2 else 0) ||| (if bit0 then 1 else 0)

/-- `mod`, the middle field and `rm` in bits 7:6, 5:3 and 2:0 (30_encoding.md R73). -/
def modRm (mod : BitVec 2) (mid rm : BitVec 3) : Byte := mod ++ mid ++ rm

/-- The ModR/M byte and displacement bytes of an operand (30_encoding.md R80). -/
def encodeRegMem (mid : BitVec 3) : RegMem → List Byte
  | .reg r => [modRm 3 mid r.toBits]
  | .direct addr => [modRm 0 mid 6, lowByte addr, highByte addr]
  | .mem base => [modRm 0 mid base.toBits]
  | .mem8 base disp => [modRm 1 mid base.toBits, disp]
  | .mem16 base disp => [modRm 2 mid base.toBits, lowByte disp, highByte disp]

def encodeWord (v : Word) : List Byte := [lowByte v, highByte v]

def encodeImm : Imm → List Byte
  | .byte d => [d]
  | .word d => encodeWord d

def encodeArithImm : ArithImm → List Byte
  | .byte d => [d]
  | .word d => encodeWord d
  | .wordSigned d => [d]

/-- `100000sw` of an immediate form: 0x80, 0x81, 0x83 (30_encoding.md R82). -/
def arithOpcode : ArithImm → Byte
  | .byte _ => 0x80
  | .word _ => 0x81
  | .wordSigned _ => 0x83

def encodeAccAddr : AccAddr → List Byte
  | .short a => [a]
  | .full a => encodeWord a

/-- The bytes of an instruction (30_encoding.md R76); bits the block does not examine (R107) are written 0. -/
def encode : Instr → List Byte
  | .movNormal d w reg rm => opcodeByte 0x88 d w :: encodeRegMem reg.toBits rm
  | .movImmediateToRegisterOrMemory rm imm => opcodeByte 0xC6 false imm.wide :: (encodeRegMem 0 rm ++ encodeImm imm)
  | .movImmediateToRegister reg imm =>
      (0xB0 ||| (if imm.wide then 8 else 0) ||| reg.toBits.setWidth 8) :: encodeImm imm
  | .movMemoryToAccumulator w addr => opcodeByte 0xA0 false w :: encodeAccAddr addr
  | .movAccumulatorToMemory w addr => opcodeByte 0xA2 false w :: encodeAccAddr addr
  | .movRegisterOrMemoryToSegmentRegister sr rm => 0x8E :: encodeRegMem (sr.toBits.setWidth 3) rm
  | .movSegmentRegisterToRegisterOrMemory sr rm => 0x8C :: encodeRegMem (sr.toBits.setWidth 3) rm
  | .addNormal d w reg rm => opcodeByte 0x00 d w :: encodeRegMem reg.toBits rm
  | .addImmediateToRegisterOrMemory rm imm => arithOpcode imm :: (encodeRegMem 0 rm ++ encodeArithImm imm)
  | .addImmediateToAccumulator imm => opcodeByte 0x04 false imm.wide :: encodeImm imm
  | .subNormal d w reg rm => opcodeByte 0x28 d w :: encodeRegMem reg.toBits rm
  | .subImmediateFromRegisterOrMemory rm imm => arithOpcode imm :: (encodeRegMem 5 rm ++ encodeArithImm imm)
  | .subImmediateFromAccumulator imm => opcodeByte 0x2C false imm.wide :: encodeImm imm
  | .cmpNormal d w reg rm => opcodeByte 0x38 d w :: encodeRegMem reg.toBits rm
  | .cmpImmediateWithRegisterOrMemory rm imm => arithOpcode imm :: (encodeRegMem 7 rm ++ encodeArithImm imm)
  | .cmpImmediateWithAccumulator imm => opcodeByte 0x3C false imm.wide :: encodeImm imm
  | .jo disp => [0x70, disp]
  | .jno disp => [0x71, disp]
  | .jb disp => [0x72, disp]
  | .jnb disp => [0x73, disp]
  | .je disp => [0x74, disp]
  | .jne disp => [0x75, disp]
  | .jbe disp => [0x76, disp]
  | .ja disp => [0x77, disp]
  | .js disp => [0x78, disp]
  | .jns disp => [0x79, disp]
  | .jp disp => [0x7A, disp]
  | .jnp disp => [0x7B, disp]
  | .jl disp => [0x7C, disp]
  | .jnl disp => [0x7D, disp]
  | .jle disp => [0x7E, disp]
  | .jg disp => [0x7F, disp]
  | .loopnz disp => [0xE0, disp]
  | .loopz disp => [0xE1, disp]
  | .loop disp => [0xE2, disp]
  | .jcxz disp => [0xE3, disp]
  | .jmpDirectShort disp => [0xEB, disp]
  | .nop => [0x90]

/-! ### The opcode table's numbering of an instruction's bits -/

/-- The bytes of an instruction whose bits are `w`, bit 0 the least significant bit of the first byte; the bits from `nbits`
on are 0, up to the longest instruction. -/
def tableBytes (nbits w : Nat) : List Byte :=
  (List.range Config.instrMax).map fun k => BitVec.ofNat 8 ((w % 2 ^ nbits) >>> (8 * k))

/-- The instruction the decoder reads from such bytes, under the spec's default parameters (00_scope.md R5; log 1). -/
def decodeTableWord (nbits w : Nat) : Option Instr :=
  match decode Params.default.accAddrNarrow (tableBytes nbits w) with
  | .ok (i, _) => some i
  | .error _ => none

end Sys2Proof
end

