-- ==== Sys2Proof/Machine/State.lean ====
section
/-! DEFINITION. The state of the machine (10_state.md), its reset value (R28), and the reasons a step can stop
(60_exceptions.md). -/

namespace Sys2Proof.Machine

/-- The register file: fourteen 16-bit slots (10_state.md R10). IP is slot 12 (R16), FLAGS is slot 13 (R17). -/
structure Regs where
  ax : Word
  bx : Word
  cx : Word
  dx : Word
  sp : Word
  bp : Word
  si : Word
  di : Word
  cs : Word
  ds : Word
  ss : Word
  es : Word
  ip : Word
  flags : Word
  deriving DecidableEq, Repr

/-- The memory array (10_state.md R19) in canonical form: addresses strictly rising, no listed byte 0, which is what an
unlisted address reads as (the reset value R19 gives every byte). -/
abbrev Memory := List Host.Cell

/-- The code slice `S` and its length `N` (10_state.md R21), under either setting of `CODE_SOURCE` (20_memory.md R58). -/
inductive CodeSlice where
  /-- `S[k]` is `M[ORIGIN + k]` at the time of the read; `N` is `len`. -/
  | memoryWindow (len : Nat)
  /-- `S[k]` is the byte loaded; `N` is the number of bytes. -/
  | privateCopy (bytes : List Byte)
  deriving DecidableEq, Repr

/-- All the state the spec gives the machine: registers, memory, cursor (10_state.md R10, R19, R21), with the OPEN
parameters beside it (00_scope.md R5; logs 1 to 4). -/
structure State where
  regs : Regs
  mem : Memory
  /-- The position in the code slice of the next byte to decode. A branch may leave it outside `0..N`
  (70_reset_and_hazards.md R290), so it is an integer. -/
  cursor : Int
  code : CodeSlice
  params : Params
  deriving DecidableEq, Repr

/-- Every register slot 0 (10_state.md R28). -/
def Regs.zero : Regs :=
  { ax := 0, bx := 0, cx := 0, dx := 0, sp := 0, bp := 0, si := 0, di := 0,
    cs := 0, ds := 0, ss := 0, es := 0, ip := 0, flags := 0 }

/-- Process start, "before the host loads a program" (10_state.md R28; 70_reset_and_hazards.md R280): every register, every
memory byte and the cursor 0. No code is loaded (log 4). -/
def State.reset : State :=
  { regs := Regs.zero, mem := [], cursor := 0, code := .memoryWindow 0, params := Params.default }

/-- The four error kinds of 60_exceptions.md R260, all terminal, none changing state (R265, R266). Each is the spec's own
error, so stopping is what the block does: safe. -/
inductive Fault where
  /-- Raised by step when a byte of the instruction lies outside the code slice (60_exceptions.md R261). Safe. -/
  | endOfStream
  /-- Raised by step when the decoder has no instruction for the bytes (60_exceptions.md R262). Safe. -/
  | unrecognizedOpcode
  /-- Raised by execute on a semantic instruction whose operands its operation does not accept (60_exceptions.md R263);
  no decoded instruction raises it. Safe. -/
  | unsupportedOperandForOperation
  /-- Raised by the cycle estimator only (60_exceptions.md R264). Safe. -/
  | unsupportedForCycleEstimation
  deriving DecidableEq, Repr

/-- Why no step is taken. -/
inductive Refusal where
  /-- Raised by an arm of exec that has no meaning yet; no arm does. Safe. -/
  | notModelled (mnemonic : String)
  /-- Raised by step when the cursor equals `N`: the run has ended normally and "no decode is attempted"
  (70_reset_and_hazards.md R290; 60_exceptions.md R261; log 5). Safe. -/
  | runEnded
  deriving DecidableEq, Repr

/-- What a step or a meaning answers. -/
abbrev Result := Host.Outcome State Fault Refusal

end Sys2Proof.Machine
end

