-- ==== Sys2Proof/Machine/Ops.lean ====
section
/-! DEFINITION. The named operations over registers and memory (10_state.md R10 to R18; 20_memory.md R41 to R43), raising an
error (60_exceptions.md R265), and the write of IP that ends every instruction (10_state.md R16). -/

namespace Sys2Proof.Machine

/-! ### Registers -/

/-- `FLAGS_MASK`: "Recognized bits occupy positions 0,2,4,6,7,8,9,10,11" (10_state.md R18; 90_conflicts.md C3). -/
def flagsMask : Word := 0x0FD5

/-- `R[i]` (10_state.md R10). -/
def Regs.get (r : Regs) : Slot → Word
  | .ax => r.ax | .bx => r.bx | .cx => r.cx | .dx => r.dx
  | .sp => r.sp | .bp => r.bp | .si => r.si | .di => r.di
  | .cs => r.cs | .ds => r.ds | .ss => r.ss | .es => r.es
  | .ip => r.ip | .flags => r.flags

/-- `R[i] <- v` (10_state.md R10); "every write of FLAGS stores `v & 0x0FD5`" (R18; log 14). -/
def Regs.set (r : Regs) (slot : Slot) (v : Word) : Regs :=
  match slot with
  | .ax => { r with ax := v } | .bx => { r with bx := v } | .cx => { r with cx := v } | .dx => { r with dx := v }
  | .sp => { r with sp := v } | .bp => { r with bp := v } | .si => { r with si := v } | .di => { r with di := v }
  | .cs => { r with cs := v } | .ds => { r with ds := v } | .ss => { r with ss := v } | .es => { r with es := v }
  | .ip => { r with ip := v } | .flags => { r with flags := v &&& flagsMask }

def State.getReg (s : State) (slot : Slot) : Word := s.regs.get slot

def State.setReg (s : State) (slot : Slot) (v : Word) : State := { s with regs := s.regs.set slot v }

/-- The slot a byte half belongs to (10_state.md R11). -/
def halfSlot : HalfReg → Slot
  | .ax => .ax | .bx => .bx | .cx => .cx | .dx => .dx

/-- The slot index of a register access descriptor (10_state.md R13). -/
def accessSlot : RegAccess → Slot
  | .word slot => slot
  | .low r => halfSlot r
  | .high r => halfSlot r

/-- `RegRead(acc)` (10_state.md R13): 0..65535 for a word, 0..255 for a half. -/
def regRead (acc : RegAccess) (s : State) : Word :=
  match acc with
  | .word slot => s.getReg slot
  | .low r => (lowByte (s.getReg (halfSlot r))).setWidth 16
  | .high r => (highByte (s.getReg (halfSlot r))).setWidth 16

/-- `RegWrite(acc, v)` (10_state.md R13): a half leaves the other half unchanged. -/
def regWrite (acc : RegAccess) (v : Word) (s : State) : State :=
  match acc with
  | .word slot => s.setReg slot v
  | .low r => s.setReg (halfSlot r) (joinBytes (lowByte v) (highByte (s.getReg (halfSlot r))))
  | .high r => s.setReg (halfSlot r) (joinBytes (lowByte (s.getReg (halfSlot r))) (lowByte v))

/-! ### Memory -/

/-- The byte at a physical address; an unlisted one reads 0 (10_state.md R19). -/
def Memory.get : Memory → Nat → Byte
  | [], _ => 0
  | (k, b) :: m, a => if k = a then b else Memory.get m a

/-- The memory with one byte replaced, in canonical form. -/
def Memory.set : Memory → Nat → Byte → Memory
  | [], a, v => if v = 0 then [] else [(a, v)]
  | (k, b) :: m, a, v =>
      if a < k then
        if v = 0 then (k, b) :: m else (a, v) :: (k, b) :: m
      else if a = k then
        if v = 0 then m else (a, v) :: m
      else (k, b) :: Memory.set m a v

/-- Every listed address is above `low`, the addresses rise strictly, no listed byte is 0, and every address exists. -/
def Memory.wfAbove : Memory → Int → Bool
  | [], _ => true
  | (k, b) :: m, low => decide (low < k) && decide (k < Config.memSize) && b != 0 && Memory.wfAbove m k

/-- The canonical form, so that equal memories are equal data. -/
def Memory.wf (m : Memory) : Bool := Memory.wfAbove m (-1)

/-- `phys(x) = x mod 1048576`, "applied to every byte address separately", negative `x` included (20_memory.md R41). -/
def phys (x : Int) : Nat := (x % (Config.memSize : Int)).toNat

/-- `M[phys(x)]` (20_memory.md R42). -/
def State.memByte (s : State) (x : Int) : Byte := Memory.get s.mem (phys x)

/-- `M[phys(x)] <- v` (20_memory.md R43). -/
def State.setMemByte (s : State) (x : Int) (v : Byte) : State := { s with mem := Memory.set s.mem (phys x) v }

/-- `MemRead(addr, wide ? 2 : 1)`, little-endian, a byte zero-extended (20_memory.md R42, R50). -/
def memRead (addr : Int) (wide : Bool) (s : State) : Word :=
  if wide then joinBytes (s.memByte addr) (s.memByte (addr + 1)) else (s.memByte addr).setWidth 16

/-- `MemWrite(addr, wide ? 2 : 1, v)`, little-endian (20_memory.md R43). -/
def memWrite (addr : Int) (wide : Bool) (v : Word) (s : State) : State :=
  if wide then (s.setMemByte addr (lowByte v)).setMemByte (addr + 1) (highByte v)
  else s.setMemByte addr (lowByte v)

/-! ### Errors and the end of an instruction -/

/-- Raising an error: the operation "makes no change to any state", nothing is saved, nothing is vectored, the error is
terminal (60_exceptions.md R265, R266). There is no return from it. -/
def raise (f : Fault) : Result := .fault f

/-- The end of every instruction, `R[IP] <- uint16(old_ip + size + disp)` (10_state.md R16), with `disp` 0 unless a branch
is taken (43_jumps.md R200). `old` is the state the instruction started from. -/
def finish (old : State) (size : Nat) (disp : Int) (s : State) : Result :=
  .next (s.setReg .ip (uint16 ((old.getReg .ip).toNat + size + disp)))

end Sys2Proof.Machine
end

