-- ==== Sys2Proof/Machine/Flags.lean ====
section
/-! DEFINITION. The flag computation unit (44_flag_unit.md), whole, and the reading of single flags (10_state.md R17). -/

namespace Sys2Proof.Machine

/-- `fn` of the unit: ADD or SUB; CMP presents SUB (44_flag_unit.md R240). -/
inductive AluFn where
  | add | sub
  deriving DecidableEq, Repr

/-- `W` of the unit (44_flag_unit.md R240). -/
inductive OpWidth where
  | byte | word
  deriving DecidableEq, Repr

/-- `INT_MIN(W)` (44_flag_unit.md R246). -/
def OpWidth.intMin : OpWidth → Int
  | .byte => -128
  | .word => -32768

/-- `INT_MAX(W)` (44_flag_unit.md R246). -/
def OpWidth.intMax : OpWidth → Int
  | .byte => 127
  | .word => 32767

/-- `UINT_MAX(W)` (44_flag_unit.md R246). -/
def OpWidth.uintMax : OpWidth → Int
  | .byte => 255
  | .word => 65535

/-- `a ± b` on integers (44_flag_unit.md R245). -/
def AluFn.apply : AluFn → Int → Int → Int
  | .add, a, b => a + b
  | .sub, a, b => a - b

/-- `r_u = a_u ± b_u` with `a_u = uint16(a)`, `b_u = uint16(b)` (44_flag_unit.md R245). -/
def unsignedResult (fn : AluFn) (a b : Int) : Int := fn.apply (a % 65536) (b % 65536)

/-- `n = (a & 0xF) ± (b & 0xF)` (44_flag_unit.md R245). -/
def nibbleResult (fn : AluFn) (a b : Int) : Int := fn.apply (a % 16) (b % 16)

/-- The number of 1 bits of a byte. -/
def onesCount (v : Byte) : Nat := ((List.range 8).filter fun k => v.getLsbD k).length

/-- `parity8(v)`: an even number of 1 bits in `v mod 256` (44_flag_unit.md R247). -/
def parity8 (v : Int) : Bool := onesCount (BitVec.ofInt 8 v) % 2 == 0

/-- CF (44_flag_unit.md R251): `r_u` outside `[0, UINT_MAX(W)]`. -/
def carryOut (fn : AluFn) (a b : Int) (w : OpWidth) : Bool :=
  decide (unsignedResult fn a b < 0) || decide (w.uintMax < unsignedResult fn a b)

/-- PF (44_flag_unit.md R247): even parity of `r & 0xFF`. -/
def parityOut (fn : AluFn) (a b : Int) : Bool := parity8 (fn.apply a b)

/-- AF (44_flag_unit.md R251): `n` outside `[0, 15]`. -/
def auxOut (fn : AluFn) (a b : Int) : Bool :=
  decide (nibbleResult fn a b < 0) || decide (15 < nibbleResult fn a b)

/-- ZF (44_flag_unit.md R248): the untruncated `r` is 0. -/
def zeroOut (fn : AluFn) (a b : Int) : Bool := decide (fn.apply a b = 0)

/-- SF (44_flag_unit.md R249): bit 15 of `r`, for either width. -/
def signOut (fn : AluFn) (a b : Int) : Bool := (BitVec.ofInt 16 (fn.apply a b)).getLsbD 15

/-- OF (44_flag_unit.md R250): `r` outside `[INT_MIN(W), INT_MAX(W)]`. -/
def overflowOut (fn : AluFn) (a b : Int) (w : OpWidth) : Bool :=
  decide (fn.apply a b < w.intMin) || decide (w.intMax < fn.apply a b)

/-- The bits TF, IF, DF that the unit preserves (44_flag_unit.md R252). -/
def preservedFlags : Word := 0x0700

/-- A flag's word: its bit when it is set, else 0. -/
def flagWord (set : Bool) (bit : Word) : Word := if set then bit else 0

/-- `FlagUnit(fn, a, b, W, flags_in)` (44_flag_unit.md R252). -/
def flagUnit (fn : AluFn) (a b : Int) (w : OpWidth) (flagsIn : Word) : Word :=
  (flagsIn &&& preservedFlags)
    ||| flagWord (carryOut fn a b w) 0x0001
    ||| flagWord (parityOut fn a b) 0x0004
    ||| flagWord (auxOut fn a b) 0x0010
    ||| flagWord (zeroOut fn a b) 0x0040
    ||| flagWord (signOut fn a b) 0x0080
    ||| flagWord (overflowOut fn a b w) 0x0800

/-! ### Reading single flags: `flag(X)` (00_scope.md R7; bit positions 10_state.md R17) -/

def flagCF (f : Word) : Bool := f.getLsbD 0
def flagPF (f : Word) : Bool := f.getLsbD 2
def flagZF (f : Word) : Bool := f.getLsbD 6
def flagSF (f : Word) : Bool := f.getLsbD 7
def flagOF (f : Word) : Bool := f.getLsbD 11

end Sys2Proof.Machine
end

