-- ==== Sys2Proof/Machine/Operands.lean ====
section
/-! DEFINITION. Operand access (20_memory.md R46 to R49) and the alignment and write-back of arithmetic operands
(42_arith.md R181, R183), every operand form. -/

namespace Sys2Proof.Machine

/-- A term of an effective address, unsigned (20_memory.md R46); `scale` is read by no rule (10_state.md R26). -/
def termValue (t : EaTerm) (s : State) : Int := (regRead t.access s).toNat

/-- `EA(op)` (20_memory.md R46): the exact sum, not reduced modulo 65536, no segment register. `none` for an operand that is
not in memory. -/
def effectiveAddress (op : Operand) (s : State) : Option Int :=
  match op with
  | .direct addr => some addr.toNat
  | .effective t1 (some t2) disp _ => some (termValue t1 s + termValue t2 s + disp.toInt)
  | .effective t1 none disp _ => some (termValue t1 s + disp.toInt)
  | .absent => none
  | .register _ => none
  | .immediate _ _ => none

/-- `SrcValue(op, wide)` (20_memory.md R48); `none` where the operand is *none*. -/
def srcValue (op : Operand) (wide : Bool) (s : State) : Option Word :=
  match op with
  | .absent => none
  | .register acc => some (regRead acc s)
  | .immediate value _ => some (value.setWidth 16)
  | .direct _ => (effectiveAddress op s).map fun a => memRead a wide s
  | .effective _ _ _ _ => (effectiveAddress op s).map fun a => memRead a wide s

/-- `DstWrite(op, wide, v)` (20_memory.md R49); `none` where the operand is an *immediate* or *none*. -/
def dstWrite (op : Operand) (wide : Bool) (v : Word) (s : State) : Option State :=
  match op with
  | .absent => none
  | .immediate _ _ => none
  | .register acc => some (regWrite acc v s)
  | .direct _ => (effectiveAddress op s).map fun a => memWrite a wide v s
  | .effective _ _ _ _ => (effectiveAddress op s).map fun a => memWrite a wide v s

/-- The signed operands and width that the flag unit gets (42_arith.md R181). -/
structure Aligned where
  a : Int
  b : Int
  width : OpWidth
  deriving DecidableEq, Repr

/-- A memory destination of `Align`: a word is read signed, a byte is 0..255 (42_arith.md R181). -/
def alignMemory (addr : Int) (src : Word) (wide : Bool) (s : State) : Aligned :=
  if wide then { a := sint16 (memRead addr true s), b := sint16 src, width := .word }
  else { a := (memRead addr false s).toNat, b := sint16 src, width := .byte }

/-- `Align(dst, src, wide)` (42_arith.md R181), given the fetched source value; `none` where the destination is an
*immediate* or *none*. A high-byte destination takes the whole word register and the source shifted left by 8. -/
def alignDst (dst : Operand) (src : Word) (wide : Bool) (s : State) : Option Aligned :=
  match dst with
  | .absent => none
  | .immediate _ _ => none
  | .register (.word slot) => some { a := sint16 (s.getReg slot), b := sint16 src, width := .word }
  | .register (.low r) => some { a := (regRead (.low r) s).toNat, b := sint16 src, width := .byte }
  | .register (.high r) =>
      some { a := sint16 (s.getReg (halfSlot r)), b := sint16 (src <<< 8), width := .word }
  | .direct _ => (effectiveAddress dst s).map fun addr => alignMemory addr src wide s
  | .effective _ _ _ _ => (effectiveAddress dst s).map fun addr => alignMemory addr src wide s

/-- `WriteBack(dst, wide, r)` (42_arith.md R183): a high-byte destination gets `t[15:8]`, every other byte destination
`t[7:0]`. -/
def writeBack (dst : Operand) (wide : Bool) (r : Int) (s : State) : State :=
  match dst with
  | .register (.high reg) => regWrite (.high reg) ((highByte (uint16 r)).setWidth 16) s
  | _ => (dstWrite dst wide (uint16 r) s).getD s

end Sys2Proof.Machine
end

