-- ==== Sys2Proof/Machine/Arith.lean ====
section
/-! DEFINITION. ADD, SUB, CMP (42_arith.md): the common operation R180 and the nine encodings R184 to R192. -/

namespace Sys2Proof.Machine

/-- Which of the three arithmetic operations is performed (42_arith.md R180). -/
inductive ArithOp where
  | add | sub | cmp
  deriving DecidableEq, Repr

/-- "cmp computes as sub" (42_arith.md R180). -/
def ArithOp.fn : ArithOp → AluFn
  | .add => .add
  | .sub => .sub
  | .cmp => .sub

/-- The write-back of ADD and SUB; "CMP does not write" (42_arith.md R180). -/
def ArithOp.store (op : ArithOp) (dst : Operand) (wide : Bool) (r : Int) (s : State) : State :=
  match op with
  | .add => writeBack dst wide r s
  | .sub => writeBack dst wide r s
  | .cmp => s

/-- `Exec_arith` (42_arith.md R180): the flags are computed from the operands as they were before the write-back. A
destination that is an *immediate* or *none*, or a source that is *none*, raises before any write. -/
def arithOp (op : ArithOp) (wide : Bool) (size : Nat) (dst src : Operand) (s : State) : Result :=
  match srcValue src wide s with
  | none => raise .unsupportedOperandForOperation
  | some v =>
    match alignDst dst v wide s with
    | none => raise .unsupportedOperandForOperation
    | some x =>
      let withFlags := s.setReg .flags (flagUnit op.fn x.a x.b x.width (s.getReg .flags))
      finish s size 0 (op.store dst wide (op.fn.apply x.a x.b) withFlags)

/-- ADD register/memory with register (42_arith.md R184). -/
def execAddNormal (d w : Bool) (reg : RegField) (rm : RegMem) (s : State) : Result :=
  arithOp .add w (Instr.addNormal d w reg rm).size (rmDst d w reg rm) (rmSrc d w reg rm) s

/-- ADD immediate to register/memory (42_arith.md R185). -/
def execAddImmediateToRegisterOrMemory (rm : RegMem) (imm : ArithImm) (s : State) : Result :=
  arithOp .add imm.wide (Instr.addImmediateToRegisterOrMemory rm imm).size (rm.operand imm.wide) imm.operand s

/-- ADD immediate to accumulator (42_arith.md R186). -/
def execAddImmediateToAccumulator (imm : Imm) (s : State) : Result :=
  arithOp .add imm.wide (Instr.addImmediateToAccumulator imm).size (accOperand imm.wide) imm.operand s

/-- SUB register/memory and register (42_arith.md R187). -/
def execSubNormal (d w : Bool) (reg : RegField) (rm : RegMem) (s : State) : Result :=
  arithOp .sub w (Instr.subNormal d w reg rm).size (rmDst d w reg rm) (rmSrc d w reg rm) s

/-- SUB immediate from register/memory (42_arith.md R188). -/
def execSubImmediateFromRegisterOrMemory (rm : RegMem) (imm : ArithImm) (s : State) : Result :=
  arithOp .sub imm.wide (Instr.subImmediateFromRegisterOrMemory rm imm).size (rm.operand imm.wide) imm.operand s

/-- SUB immediate from accumulator (42_arith.md R189). -/
def execSubImmediateFromAccumulator (imm : Imm) (s : State) : Result :=
  arithOp .sub imm.wide (Instr.subImmediateFromAccumulator imm).size (accOperand imm.wide) imm.operand s

/-- CMP register/memory and register (42_arith.md R190). -/
def execCmpNormal (d w : Bool) (reg : RegField) (rm : RegMem) (s : State) : Result :=
  arithOp .cmp w (Instr.cmpNormal d w reg rm).size (rmDst d w reg rm) (rmSrc d w reg rm) s

/-- CMP immediate with register/memory (42_arith.md R191). -/
def execCmpImmediateWithRegisterOrMemory (rm : RegMem) (imm : ArithImm) (s : State) : Result :=
  arithOp .cmp imm.wide (Instr.cmpImmediateWithRegisterOrMemory rm imm).size (rm.operand imm.wide) imm.operand s

/-- CMP immediate with accumulator (42_arith.md R192). -/
def execCmpImmediateWithAccumulator (imm : Imm) (s : State) : Result :=
  arithOp .cmp imm.wide (Instr.cmpImmediateWithAccumulator imm).size (accOperand imm.wide) imm.operand s

end Sys2Proof.Machine
end

