-- ==== Sys2Proof/Machine/Jumps.lean ====
section
/-! DEFINITION. Control transfer (43_jumps.md): the common branch R200, the sixteen conditional jumps R202 to R217, the LOOP
family R219 to R222, JCXZ R223, JMP short R225 and NOP R226. -/

namespace Sys2Proof.Machine

/-- `Exec_branch(instr, taken)` (43_jumps.md R200): IP receives `old_ip + size`, plus the displacement when taken. An operand
that is not an *immediate* raises. -/
def branchOp (size : Nat) (operand : Operand) (taken : Bool) (s : State) : Result :=
  match operand with
  | .immediate value _ => finish s size (if taken then value.toInt else 0) s
  | .absent => raise .unsupportedOperandForOperation
  | .register _ => raise .unsupportedOperandForOperation
  | .direct _ => raise .unsupportedOperandForOperation
  | .effective _ _ _ _ => raise .unsupportedOperandForOperation

/-- CX after the decrement, "0 becomes 0xFFFF" (43_jumps.md R219). -/
def decrementedCx (s : State) : Word := s.getReg .cx - 1

/-- `Exec_loop(instr, cond)` (43_jumps.md R219): CX is decremented whether or not the jump is taken, FLAGS is not written;
`cond` is applied to ZF before the instruction. The operand is checked before CX is written (70_reset_and_hazards.md
R297). -/
def loopOp (size : Nat) (operand : Operand) (cond : Bool → Bool) (s : State) : Result :=
  match operand with
  | .immediate value _ =>
      let taken := decrementedCx s != 0 && cond (flagZF (s.getReg .flags))
      finish s size (if taken then value.toInt else 0) (s.setReg .cx (decrementedCx s))
  | .absent => raise .unsupportedOperandForOperation
  | .register _ => raise .unsupportedOperandForOperation
  | .direct _ => raise .unsupportedOperandForOperation
  | .effective _ _ _ _ => raise .unsupportedOperandForOperation

/-- NOP's effect: "No state change beyond IP advance" (43_jumps.md R226). -/
def nopOp (size : Nat) (s : State) : Result := finish s size 0 s

/-! ### Conditions on the FLAGS word before the instruction (43_jumps.md R228) -/

/-- JO: taken when OF=1 (43_jumps.md R202). -/
def takenJo (f : Word) : Bool := flagOF f

/-- JNO: taken when OF=0 (43_jumps.md R203). -/
def takenJno (f : Word) : Bool := !flagOF f

/-- JB: taken when CF=1 (43_jumps.md R204). -/
def takenJb (f : Word) : Bool := flagCF f

/-- JNB: taken when CF=0 (43_jumps.md R205). -/
def takenJnb (f : Word) : Bool := !flagCF f

/-- JE: taken when ZF=1 (43_jumps.md R206). -/
def takenJe (f : Word) : Bool := flagZF f

/-- JNE: taken when ZF=0 (43_jumps.md R207). -/
def takenJne (f : Word) : Bool := !flagZF f

/-- JBE: taken when CF=1 or ZF=1 (43_jumps.md R208). -/
def takenJbe (f : Word) : Bool := flagCF f || flagZF f

/-- JA: taken when CF=0 and ZF=0 (43_jumps.md R209). -/
def takenJa (f : Word) : Bool := !(flagCF f || flagZF f)

/-- JS: taken when SF=1 (43_jumps.md R210). -/
def takenJs (f : Word) : Bool := flagSF f

/-- JNS: taken when SF=0 (43_jumps.md R211). -/
def takenJns (f : Word) : Bool := !flagSF f

/-- JP: taken when PF=1 (43_jumps.md R212). -/
def takenJp (f : Word) : Bool := flagPF f

/-- JNP: taken when PF=0 (43_jumps.md R213). -/
def takenJnp (f : Word) : Bool := !flagPF f

/-- JL: taken when SF ≠ OF (43_jumps.md R214). -/
def takenJl (f : Word) : Bool := flagSF f ^^ flagOF f

/-- JNL: taken when SF = OF (43_jumps.md R215). -/
def takenJnl (f : Word) : Bool := !(flagSF f ^^ flagOF f)

/-- JLE: taken when SF ≠ OF or ZF=1 (43_jumps.md R216). -/
def takenJle (f : Word) : Bool := (flagSF f ^^ flagOF f) || flagZF f

/-- JG: taken when SF = OF and ZF=0 (43_jumps.md R217). -/
def takenJg (f : Word) : Bool := !((flagSF f ^^ flagOF f) || flagZF f)

/-- LOOPNZ: "AND ZF=0" (43_jumps.md R220). -/
def loopnzCond (zf : Bool) : Bool := !zf

/-- LOOPZ: "AND ZF=1" (43_jumps.md R221). -/
def loopzCond (zf : Bool) : Bool := zf

/-- LOOP: no condition beside CX (43_jumps.md R222). -/
def loopCond (_zf : Bool) : Bool := true

/-- JCXZ: taken when CX is 0; "JCXZ does not decrement" (43_jumps.md R223). -/
def takenJcxz (s : State) : Bool := s.getReg .cx == 0

/-! ### The instructions -/

/-- JO (43_jumps.md R202). -/
def execJo (disp : Byte) (s : State) : Result :=
  branchOp (Instr.jo disp).size (relOperand disp) (takenJo (s.getReg .flags)) s

/-- JNO (43_jumps.md R203). -/
def execJno (disp : Byte) (s : State) : Result :=
  branchOp (Instr.jno disp).size (relOperand disp) (takenJno (s.getReg .flags)) s

/-- JB (43_jumps.md R204). -/
def execJb (disp : Byte) (s : State) : Result :=
  branchOp (Instr.jb disp).size (relOperand disp) (takenJb (s.getReg .flags)) s

/-- JNB (43_jumps.md R205). -/
def execJnb (disp : Byte) (s : State) : Result :=
  branchOp (Instr.jnb disp).size (relOperand disp) (takenJnb (s.getReg .flags)) s

/-- JE (43_jumps.md R206). -/
def execJe (disp : Byte) (s : State) : Result :=
  branchOp (Instr.je disp).size (relOperand disp) (takenJe (s.getReg .flags)) s

/-- JNE (43_jumps.md R207). -/
def execJne (disp : Byte) (s : State) : Result :=
  branchOp (Instr.jne disp).size (relOperand disp) (takenJne (s.getReg .flags)) s

/-- JBE (43_jumps.md R208). -/
def execJbe (disp : Byte) (s : State) : Result :=
  branchOp (Instr.jbe disp).size (relOperand disp) (takenJbe (s.getReg .flags)) s

/-- JA (43_jumps.md R209). -/
def execJa (disp : Byte) (s : State) : Result :=
  branchOp (Instr.ja disp).size (relOperand disp) (takenJa (s.getReg .flags)) s

/-- JS (43_jumps.md R210). -/
def execJs (disp : Byte) (s : State) : Result :=
  branchOp (Instr.js disp).size (relOperand disp) (takenJs (s.getReg .flags)) s

/-- JNS (43_jumps.md R211). -/
def execJns (disp : Byte) (s : State) : Result :=
  branchOp (Instr.jns disp).size (relOperand disp) (takenJns (s.getReg .flags)) s

/-- JP (43_jumps.md R212). -/
def execJp (disp : Byte) (s : State) : Result :=
  branchOp (Instr.jp disp).size (relOperand disp) (takenJp (s.getReg .flags)) s

/-- JNP (43_jumps.md R213). -/
def execJnp (disp : Byte) (s : State) : Result :=
  branchOp (Instr.jnp disp).size (relOperand disp) (takenJnp (s.getReg .flags)) s

/-- JL (43_jumps.md R214). -/
def execJl (disp : Byte) (s : State) : Result :=
  branchOp (Instr.jl disp).size (relOperand disp) (takenJl (s.getReg .flags)) s

/-- JNL (43_jumps.md R215). -/
def execJnl (disp : Byte) (s : State) : Result :=
  branchOp (Instr.jnl disp).size (relOperand disp) (takenJnl (s.getReg .flags)) s

/-- JLE (43_jumps.md R216). -/
def execJle (disp : Byte) (s : State) : Result :=
  branchOp (Instr.jle disp).size (relOperand disp) (takenJle (s.getReg .flags)) s

/-- JG (43_jumps.md R217). -/
def execJg (disp : Byte) (s : State) : Result :=
  branchOp (Instr.jg disp).size (relOperand disp) (takenJg (s.getReg .flags)) s

/-- LOOPNZ (43_jumps.md R220). -/
def execLoopnz (disp : Byte) (s : State) : Result :=
  loopOp (Instr.loopnz disp).size (relOperand disp) loopnzCond s

/-- LOOPZ (43_jumps.md R221). -/
def execLoopz (disp : Byte) (s : State) : Result :=
  loopOp (Instr.loopz disp).size (relOperand disp) loopzCond s

/-- LOOP (43_jumps.md R222). -/
def execLoop (disp : Byte) (s : State) : Result :=
  loopOp (Instr.loop disp).size (relOperand disp) loopCond s

/-- JCXZ (43_jumps.md R223). -/
def execJcxz (disp : Byte) (s : State) : Result :=
  branchOp (Instr.jcxz disp).size (relOperand disp) (takenJcxz s) s

/-- JMP direct short: "Taken unconditionally" (43_jumps.md R225). -/
def execJmpDirectShort (disp : Byte) (s : State) : Result :=
  branchOp (Instr.jmpDirectShort disp).size (relOperand disp) true s

/-- NOP (43_jumps.md R226). -/
def execNop (s : State) : Result := nopOp Instr.nop.size s

end Sys2Proof.Machine
end

