-- ==== Sys2Proof/Machine/Mov.lean ====
section
/-! DEFINITION. MOV (41_mov.md): the common operation R160 and the seven encodings R162 to R167. -/

namespace Sys2Proof.Machine

/-- `Exec_mov` (41_mov.md R160): the source is fetched, the destination written, IP advanced by the size; FLAGS is not
touched. A destination that is an *immediate* or *none*, or a source that is *none*, raises before any write. -/
def movOp (wide : Bool) (size : Nat) (dst src : Operand) (s : State) : Result :=
  match srcValue src wide s with
  | none => raise .unsupportedOperandForOperation
  | some v =>
    match dstWrite dst wide v s with
    | none => raise .unsupportedOperandForOperation
    | some t => finish s size 0 t

/-- MOV register/memory to or from register (41_mov.md R162). -/
def execMovNormal (d w : Bool) (reg : RegField) (rm : RegMem) (s : State) : Result :=
  movOp w (Instr.movNormal d w reg rm).size (rmDst d w reg rm) (rmSrc d w reg rm) s

/-- MOV immediate to register/memory (41_mov.md R163). -/
def execMovImmediateToRegisterOrMemory (rm : RegMem) (imm : Imm) (s : State) : Result :=
  movOp imm.wide (Instr.movImmediateToRegisterOrMemory rm imm).size (rm.operand imm.wide) imm.operand s

/-- MOV immediate to register (41_mov.md R164). -/
def execMovImmediateToRegister (reg : RegField) (imm : Imm) (s : State) : Result :=
  movOp imm.wide (Instr.movImmediateToRegister reg imm).size (.register (regAccess reg imm.wide)) imm.operand s

/-- MOV memory to accumulator (41_mov.md R165). -/
def execMovMemoryToAccumulator (w : Bool) (addr : AccAddr) (s : State) : Result :=
  movOp w (Instr.movMemoryToAccumulator w addr).size (accOperand w) addr.operand s

/-- MOV accumulator to memory (41_mov.md R165). -/
def execMovAccumulatorToMemory (w : Bool) (addr : AccAddr) (s : State) : Result :=
  movOp w (Instr.movAccumulatorToMemory w addr).size addr.operand (accOperand w) s

/-- MOV register/memory to segment register, a 16-bit move (41_mov.md R166). -/
def execMovRegisterOrMemoryToSegmentRegister (sr : SegField) (rm : RegMem) (s : State) : Result :=
  movOp true (Instr.movRegisterOrMemoryToSegmentRegister sr rm).size (.register (segAccess sr)) (rm.operand true) s

/-- MOV segment register to register/memory, a 16-bit move (41_mov.md R167). -/
def execMovSegmentRegisterToRegisterOrMemory (sr : SegField) (rm : RegMem) (s : State) : Result :=
  movOp true (Instr.movSegmentRegisterToRegisterOrMemory sr rm).size (rm.operand true) (.register (segAccess sr)) s

end Sys2Proof.Machine
end

