-- ==== Sys2Proof/Machine/Dispatch.lean ====
section
/-! DEFINITION. The dispatch of an instruction to its meaning (70_reset_and_hazards.md R289, Execute). -/

namespace Sys2Proof.Machine

def exec (i : Instr) (s : State) : Host.Outcome State Fault Refusal :=
  match i with
  | .movNormal d w reg rm => Sys2Proof.Machine.execMovNormal d w reg rm s
  | .movImmediateToRegisterOrMemory rm imm => Sys2Proof.Machine.execMovImmediateToRegisterOrMemory rm imm s
  | .movImmediateToRegister reg imm => Sys2Proof.Machine.execMovImmediateToRegister reg imm s
  | .movMemoryToAccumulator w addr => Sys2Proof.Machine.execMovMemoryToAccumulator w addr s
  | .movAccumulatorToMemory w addr => Sys2Proof.Machine.execMovAccumulatorToMemory w addr s
  | .movRegisterOrMemoryToSegmentRegister sr rm => Sys2Proof.Machine.execMovRegisterOrMemoryToSegmentRegister sr rm s
  | .movSegmentRegisterToRegisterOrMemory sr rm => Sys2Proof.Machine.execMovSegmentRegisterToRegisterOrMemory sr rm s
  | .addNormal d w reg rm => Sys2Proof.Machine.execAddNormal d w reg rm s
  | .addImmediateToRegisterOrMemory rm imm => Sys2Proof.Machine.execAddImmediateToRegisterOrMemory rm imm s
  | .addImmediateToAccumulator imm => Sys2Proof.Machine.execAddImmediateToAccumulator imm s
  | .subNormal d w reg rm => Sys2Proof.Machine.execSubNormal d w reg rm s
  | .subImmediateFromRegisterOrMemory rm imm => Sys2Proof.Machine.execSubImmediateFromRegisterOrMemory rm imm s
  | .subImmediateFromAccumulator imm => Sys2Proof.Machine.execSubImmediateFromAccumulator imm s
  | .cmpNormal d w reg rm => Sys2Proof.Machine.execCmpNormal d w reg rm s
  | .cmpImmediateWithRegisterOrMemory rm imm => Sys2Proof.Machine.execCmpImmediateWithRegisterOrMemory rm imm s
  | .cmpImmediateWithAccumulator imm => Sys2Proof.Machine.execCmpImmediateWithAccumulator imm s
  | .jo disp => Sys2Proof.Machine.execJo disp s
  | .jno disp => Sys2Proof.Machine.execJno disp s
  | .jb disp => Sys2Proof.Machine.execJb disp s
  | .jnb disp => Sys2Proof.Machine.execJnb disp s
  | .je disp => Sys2Proof.Machine.execJe disp s
  | .jne disp => Sys2Proof.Machine.execJne disp s
  | .jbe disp => Sys2Proof.Machine.execJbe disp s
  | .ja disp => Sys2Proof.Machine.execJa disp s
  | .js disp => Sys2Proof.Machine.execJs disp s
  | .jns disp => Sys2Proof.Machine.execJns disp s
  | .jp disp => Sys2Proof.Machine.execJp disp s
  | .jnp disp => Sys2Proof.Machine.execJnp disp s
  | .jl disp => Sys2Proof.Machine.execJl disp s
  | .jnl disp => Sys2Proof.Machine.execJnl disp s
  | .jle disp => Sys2Proof.Machine.execJle disp s
  | .jg disp => Sys2Proof.Machine.execJg disp s
  | .loopnz disp => Sys2Proof.Machine.execLoopnz disp s
  | .loopz disp => Sys2Proof.Machine.execLoopz disp s
  | .loop disp => Sys2Proof.Machine.execLoop disp s
  | .jcxz disp => Sys2Proof.Machine.execJcxz disp s
  | .jmpDirectShort disp => Sys2Proof.Machine.execJmpDirectShort disp s
  | .nop => Sys2Proof.Machine.execNop s

end Sys2Proof.Machine
end

