-- ==== Sys2Proof/Machine/Fetch.lean ====
section
/-! DEFINITION. The code slice and the cursor (10_state.md R21; 20_memory.md R58), the byte reader on them (40_decoder.md
R120), the cursor move after an execution (70_reset_and_hazards.md R296), and placing bytes where the next fetch reads. -/

namespace Sys2Proof.Machine

/-- `N`, the length of the code slice (10_state.md R21). -/
def CodeSlice.length : CodeSlice → Nat
  | .memoryWindow len => len
  | .privateCopy bytes => bytes.length

/-- `S[k]` for a `k` below `N` (20_memory.md R58). -/
def State.sliceByte (s : State) (k : Nat) : Byte :=
  match s.code with
  | .memoryWindow _ => s.memByte (s.params.origin.toNat + k)
  | .privateCopy bytes => bytes.getD k 0

/-- `Read(S, N, i)` (40_decoder.md R120): `none` is *EndOfStream*, for every `i` outside `0..N-1`. -/
def State.codeByte (s : State) (i : Int) : Option Byte :=
  if i < 0 ∨ (s.code.length : Int) ≤ i then none else some (s.sliceByte i.toNat)

/-- The bytes from `i` on, at most `fuel` of them, up to the end of the slice. -/
def State.bytesFrom (s : State) : Nat → Int → List Byte
  | 0, _ => []
  | fuel + 1, i =>
    match s.codeByte i with
    | none => []
    | some b => b :: State.bytesFrom s fuel (i + 1)

/-- `S[i0 .. i0+5]`, "as many as exist" (40_decoder.md R121). -/
def State.fetchBytes (s : State) : List Byte := s.bytesFrom Config.instrMax s.cursor

/-- `Decode(S, N, cursor)` (40_decoder.md R122). -/
def State.decodeNext (s : State) : Reading Instr := decode s.params.accAddrNarrow s.fetchBytes

/-- The error a failed decode surfaces to the driver (60_exceptions.md R261, R262). -/
def decodeFault : DecodeError → Fault
  | .endOfStream => .endOfStream
  | .unrecognizedOpcode => .unrecognizedOpcode

/-- `cursor <- c1`: decode "leaves the cursor positioned after" the instruction (40_decoder.md R121). -/
def State.afterDecode (s : State) (i : Instr) : State := { s with cursor := s.cursor + i.size }

/-- `delta = sint16(new_ip - old_ip - size)` (70_reset_and_hazards.md R296). -/
def cursorDelta (oldIp newIp : Word) (size : Nat) : Int :=
  sint16 (uint16 ((newIp.toNat : Int) - oldIp.toNat - size))

/-- `cursor <- cursor + delta` after an execution that answered a next state (70_reset_and_hazards.md R289, R296). -/
def reposition (oldIp : Word) (size : Nat) : Result → Result
  | .next t => .next { t with cursor := t.cursor + cursorDelta oldIp (t.getReg .ip) size }
  | .fault f => .fault f
  | .refused r => .refused r

/-- The run has ended: "`cursor = N`: normal end" (70_reset_and_hazards.md R290). -/
def State.runEnded (s : State) : Bool := s.cursor == (s.code.length : Int)

/-! ### Placing bytes -/

/-- The bytes stored at consecutive physical addresses from `addr` (70_reset_and_hazards.md R286). -/
def State.writeBytes (s : State) (addr : Int) : List Byte → State
  | [] => s
  | b :: rest => State.writeBytes (s.setMemByte addr b) (addr + 1) rest

/-- A list with `new` in place of its entries from position `c` on, filled up with 0 where it is shorter than `c`. -/
def overlay (old : List Byte) (c : Nat) (new : List Byte) : List Byte :=
  (old ++ List.replicate (c - old.length) 0).take c ++ new ++ old.drop (c + new.length)

/-- The state with `bytes` where the next fetch reads (log 21): in the memory window or in the private copy, the slice long
enough to hold them, and a cursor below the slice moved to its start. -/
def State.placeCode (s : State) (bytes : List Byte) : State :=
  let c := s.cursor.toNat
  match s.code with
  | .memoryWindow len =>
      { s.writeBytes (s.params.origin.toNat + c) bytes with
        cursor := c, code := .memoryWindow (max len (c + bytes.length)) }
  | .privateCopy old => { s with cursor := c, code := .privateCopy (overlay old c bytes) }

end Sys2Proof.Machine
end

