-- ==== Sys2Proof/Machine/RunLoop.lean ====
section
/-! DEFINITION. One step of the run loop (70_reset_and_hazards.md R289, R290). -/

namespace Sys2Proof.Machine

/-- The body of R289's Step once the instruction is decoded: the cursor moves past it, it executes, and the cursor follows a
taken branch. -/
def State.runInstr (s : State) (i : Instr) : Result :=
  reposition (s.getReg .ip) i.size (exec i (s.afterDecode i))

/-- R289's Step, at any cursor: a decode that fails raises its error with no state change (60_exceptions.md R265). -/
def State.attemptStep (s : State) : Result :=
  match s.decodeNext with
  | .ok (i, _) => s.runInstr i
  | .error e => raise (decodeFault e)

/-- One turn of R290's Run: at `cursor = N` the run has ended and no decode is attempted (log 5). -/
def State.runStep (s : State) : Result :=
  if s.runEnded then .refused .runEnded else s.attemptStep

end Sys2Proof.Machine
end

