-- ==== Sys2Proof/Machine/Step.lean ====
section
/-! DEFINITION. One step of the machine, and placing an instruction where it fetches. -/

namespace Sys2Proof.Machine

/-- One decode followed by one execution and the cursor move (70_reset_and_hazards.md R289, R290). -/
def step (s : State) : Host.Outcome State Fault Refusal := s.runStep

/-- The state with an opcode-table word where the next step fetches its instruction (logs 4 and 21). -/
def State.withFetchWord (s : State) (nbits w : Nat) : State := s.placeCode (tableBytes nbits w)

end Sys2Proof.Machine
end

