-- ==== Sys2Proof/Machine/Cycles.lean ====
section
/-! DEFINITION. The cycle estimator (70_reset_and_hazards.md R300 to R302). It reads no register and no memory and changes no
state; no rule of any other file depends on it. -/

namespace Sys2Proof.Machine

/-- "Operand kinds collapse the operand variants" (70_reset_and_hazards.md R301). -/
inductive OperandKind where
  | accumulator | register | memory | immediate | absent
  deriving DecidableEq, Repr

/-- "A register is classified as *accumulator* when it names AX/AH/AL" (70_reset_and_hazards.md R301). Every other register
access is a plain register, a segment register too: R301's kinds have no other name for it, while 91_not_in_source.md N10
counts MOV with segment registers among the rows not given (DEDUCED, log 25). -/
def accessKind (acc : RegAccess) : OperandKind :=
  if accessSlot acc = .ax then .accumulator else .register

def operandKind : Operand → OperandKind
  | .absent => .absent
  | .register acc => accessKind acc
  | .direct _ => .memory
  | .effective _ _ _ _ => .memory
  | .immediate _ _ => .immediate

/-- One row of the base table: the base count, and whether "+ EA" stands beside it. -/
structure BaseRow where
  base : Nat
  addEa : Bool
  deriving DecidableEq, Repr

/-- The eleven rows of the base table (70_reset_and_hazards.md R301); every other tuple is missing (log 13). -/
def baseRow : Op → OperandKind → OperandKind → Option BaseRow
  | .mov, .memory, .accumulator => some ⟨10, false⟩
  | .mov, .register, .register => some ⟨2, false⟩
  | .mov, .register, .memory => some ⟨8, true⟩
  | .mov, .memory, .register => some ⟨9, true⟩
  | .mov, .register, .immediate => some ⟨4, false⟩
  | .mov, .memory, .immediate => some ⟨10, true⟩
  | .add, .register, .register => some ⟨3, false⟩
  | .add, .register, .memory => some ⟨9, true⟩
  | .add, .memory, .register => some ⟨16, true⟩
  | .add, .register, .immediate => some ⟨4, false⟩
  | .add, .memory, .immediate => some ⟨17, true⟩
  | _, _, _ => none

/-- The cost of the base and index terms, "keyed on which of {BX, BP, SI, DI, disp} participate", without a displacement
(70_reset_and_hazards.md R302). Other terms are no row of the table. -/
def listedTermsCost : RegAccess → Option RegAccess → Option Nat
  | .word .bx, none | .word .bp, none | .word .si, none | .word .di, none => some 5
  | .word .bx, some (.word .si) | .word .si, some (.word .bx) => some 7
  | .word .bp, some (.word .di) | .word .di, some (.word .bp) => some 7
  | .word .bx, some (.word .di) | .word .di, some (.word .bx) => some 8
  | .word .bp, some (.word .si) | .word .si, some (.word .bp) => some 8
  | _, _ => none

/-- How many immediate bytes an encoding of the instruction can have (30_encoding.md R82, R90): a word ADD whose immediate is a
sign-extended byte has one or two. -/
def immediateLengths (si : SemInstr) : List Nat :=
  match si.operand1 with
  | .immediate value _ =>
      if si.flags.wide then
        if si.op = .add ∧ value = (value.setWidth 8).signExtend 32 then [1, 2] else [2]
      else [1]
  | .absent => [0]
  | .register _ => [0]
  | .direct _ => [0]
  | .effective _ _ _ _ => [0]

/-- Whether an encoding with mod=00, which has no displacement byte, builds an instruction of this size with these terms;
`[bp]` has none (30_encoding.md R80, R85, R100). The semantic instruction does not keep its displacement bytes (10_state.md
R26), so one that such an encoding builds costs what that encoding costs, whichever encoding built it (DEDUCED, log 12). -/
def hasPlainEncoding (si : SemInstr) (term1 : EaTerm) (term2 : Option EaTerm) : Bool :=
  (term2.isSome || term1.access != .word .bp) && (immediateLengths si).any fun n => si.size == 2 + n

/-- "with displacement → +4 over base+index" (70_reset_and_hazards.md R302). Whether a zero displacement that must have been
encoded counts is not stated (91_not_in_source.md N10): a free value (log 12). -/
def displacementCost (si : SemInstr) (term1 : EaTerm) (term2 : Option EaTerm) (disp : BitVec 16) : Nat :=
  if disp ≠ 0 then 4
  else if hasPlainEncoding si term1 term2 then 0
  else if Config.zeroDisplacementCosts si then 4
  else 0

/-- The effective-address cost of an operand (70_reset_and_hazards.md R302); a direct address is "displacement only". -/
def eaCost (si : SemInstr) (op : Operand) : Nat :=
  match op with
  | .direct _ => 6
  | .effective term1 term2 disp _ =>
    match listedTermsCost term1.access (term2.map EaTerm.access) with
    | some cost => cost + displacementCost si term1 term2 disp
    | none => Config.unlistedEaCost op
  | .absent => 0
  | .register _ => 0
  | .immediate _ _ => 0

/-- The memory operand of a row with "+ EA": the destination where it is in memory, else the source. -/
def memoryOperand (si : SemInstr) : Operand :=
  if operandKind si.operand0 = .memory then si.operand0 else si.operand1

/-- "`{base, ea}`" (70_reset_and_hazards.md R300). -/
structure CycleCount where
  base : Nat
  ea : Nat
  deriving DecidableEq, Repr

/-- "the driver reports total as `base + ea`" (70_reset_and_hazards.md R300). -/
def CycleCount.total (c : CycleCount) : Nat := c.base + c.ea

/-- The estimate of a semantic instruction (70_reset_and_hazards.md R300): "Unknown tuple → *UnsupportedForCycleEstimation*"
(R301). -/
def cycleEstimate (si : SemInstr) : Except Fault CycleCount :=
  match baseRow si.op (operandKind si.operand0) (operandKind si.operand1) with
  | some row => .ok { base := row.base, ea := if row.addEa then eaCost si (memoryOperand si) else 0 }
  | none => .error .unsupportedForCycleEstimation

end Sys2Proof.Machine
end

