-- ==== Sys2Proof/Machine/Execute.lean ====
section
/-! DEFINITION. Execution of a semantic instruction (70_reset_and_hazards.md R289, `Execute`), hand-built ones included
(60_exceptions.md R263). exec, on decoded instructions, uses the same operations. -/

namespace Sys2Proof.Machine

/-- `Execute(instr)`, by `instr.op` (70_reset_and_hazards.md R289). -/
def execute (si : SemInstr) (s : State) : Result :=
  match si.op with
  | .mov => movOp si.flags.wide si.size si.operand0 si.operand1 s
  | .add => arithOp .add si.flags.wide si.size si.operand0 si.operand1 s
  | .sub => arithOp .sub si.flags.wide si.size si.operand0 si.operand1 s
  | .cmp => arithOp .cmp si.flags.wide si.size si.operand0 si.operand1 s
  | .je => branchOp si.size si.operand0 (takenJe (s.getReg .flags)) s
  | .jne => branchOp si.size si.operand0 (takenJne (s.getReg .flags)) s
  | .jl => branchOp si.size si.operand0 (takenJl (s.getReg .flags)) s
  | .jnl => branchOp si.size si.operand0 (takenJnl (s.getReg .flags)) s
  | .jle => branchOp si.size si.operand0 (takenJle (s.getReg .flags)) s
  | .jg => branchOp si.size si.operand0 (takenJg (s.getReg .flags)) s
  | .jb => branchOp si.size si.operand0 (takenJb (s.getReg .flags)) s
  | .jnb => branchOp si.size si.operand0 (takenJnb (s.getReg .flags)) s
  | .jbe => branchOp si.size si.operand0 (takenJbe (s.getReg .flags)) s
  | .ja => branchOp si.size si.operand0 (takenJa (s.getReg .flags)) s
  | .jp => branchOp si.size si.operand0 (takenJp (s.getReg .flags)) s
  | .jnp => branchOp si.size si.operand0 (takenJnp (s.getReg .flags)) s
  | .jo => branchOp si.size si.operand0 (takenJo (s.getReg .flags)) s
  | .jno => branchOp si.size si.operand0 (takenJno (s.getReg .flags)) s
  | .js => branchOp si.size si.operand0 (takenJs (s.getReg .flags)) s
  | .jns => branchOp si.size si.operand0 (takenJns (s.getReg .flags)) s
  | .loop => loopOp si.size si.operand0 loopCond s
  | .loopz => loopOp si.size si.operand0 loopzCond s
  | .loopnz => loopOp si.size si.operand0 loopnzCond s
  | .jcxz => branchOp si.size si.operand0 (takenJcxz s) s
  | .jmp => branchOp si.size si.operand0 true s
  | .nop => nopOp si.size s

end Sys2Proof.Machine
end

