-- ==== Sys2Proof/Machine/Report.lean ====
section
/-! DEFINITION. The step report (70_reset_and_hazards.md R289; 41_mov.md R168; 42_arith.md R194; 43_jumps.md R227), an output
for the host with no effect on state. -/

namespace Sys2Proof.Machine

/-- "`{destination, old_value, new_value, old_flags, new_flags, old_ip, new_ip}`" (70_reset_and_hazards.md R289). -/
structure StepReport where
  destination : Operand
  oldValue : Word
  newValue : Word
  oldFlags : Word
  newFlags : Word
  oldIp : Word
  newIp : Word
  deriving DecidableEq, Repr

/-- The reported destination: `operands[0]` of MOV, ADD, SUB, CMP (R168, R194), CX for the loop family and JCXZ, and none for
the conditional jumps, JMP and NOP (R227; log 18). -/
def reportedDestination (si : SemInstr) : Operand :=
  match si.op with
  | .mov | .add | .sub | .cmp => si.operand0
  | .loop | .loopz | .loopnz | .jcxz => .register (.word .cx)
  | .je | .jne | .jl | .jnl | .jle | .jg | .jb | .jnb => .absent
  | .jbe | .ja | .jp | .jnp | .jo | .jno | .js | .jns => .absent
  | .jmp | .nop => .absent

/-- A destination's value, 0 where there is none (92_eei_decisions.md D25); "byte destinations report the byte". -/
def destinationValue (op : Operand) (wide : Bool) (s : State) : Word := (srcValue op wide s).getD 0

/-- The report of an execution from `before` to `after`. -/
def stepReport (si : SemInstr) (before after : State) : StepReport :=
  { destination := reportedDestination si
    oldValue := destinationValue (reportedDestination si) si.flags.wide before
    newValue := destinationValue (reportedDestination si) si.flags.wide after
    oldFlags := before.getReg .flags
    newFlags := after.getReg .flags
    oldIp := before.getReg .ip
    newIp := after.getReg .ip }

/-- The report of the step from `s`, where it answers a next state (70_reset_and_hazards.md R289). `address` is the cursor
value at which the first byte was read (10_state.md R23). -/
def State.reportNext (s : State) : Option StepReport :=
  match s.decodeNext with
  | .error _ => none
  | .ok (i, _) =>
    match s.runInstr i with
    | .next t => some (stepReport (i.build (BitVec.ofInt 32 s.cursor)) s t)
    | .fault _ => none
    | .refused _ => none

end Sys2Proof.Machine
end

