-- ==== Sys2Proof/Machine/Driver.lean ====
section
/-! DEFINITION. The host's moves (70_reset_and_hazards.md R286 to R290): loading a program, decoding without executing, and
the run loop. -/

namespace Sys2Proof.Machine

/-- `CODE_SOURCE` (20_memory.md R58). -/
inductive CodeSource where
  | memoryWindow
  | privateCopy
  deriving DecidableEq, Repr

/-- The code slice of a file under either setting (20_memory.md R58). -/
def CodeSource.slice (source : CodeSource) (file : List Byte) : CodeSlice :=
  match source with
  | .memoryWindow => .memoryWindow file.length
  | .privateCopy => .privateCopy file

/-- `Load` (70_reset_and_hazards.md R286): the file goes to `M[ORIGIN..]`, CS gets `CS_INIT`, the cursor goes to the start of
the slice. -/
def load (params : Params) (source : CodeSource) (csInit : Word) (file : List Byte) (s : State) : State :=
  { (s.writeBytes params.origin.toNat file).setReg .cs csInit with
    cursor := 0, code := source.slice file, params := params }

/-- Pure-decode mode: "without, it decodes only and no state but the cursor changes" (70_reset_and_hazards.md R288). -/
def decodeOnly (s : State) : Result :=
  if s.runEnded then .refused .runEnded
  else
    match s.decodeNext with
    | .ok (i, _) => .next (s.afterDecode i)
    | .error e => raise (decodeFault e)

/-- How a run of at most `fuel` steps stands (70_reset_and_hazards.md R290): ended normally at `cursor = N`, ended in a fault
in the given state, or still going. -/
inductive RunResult where
  | ended (s : State)
  | faulted (f : Fault) (s : State)
  | running (s : State)
  deriving DecidableEq, Repr

/-- `Run` (70_reset_and_hazards.md R290), at most `fuel` steps of it. -/
def run : Nat → State → RunResult
  | 0, s => if s.runEnded then .ended s else .running s
  | fuel + 1, s =>
    match step s with
    | .next t => run fuel t
    | .fault f => .faulted f s
    | .refused _ => .ended s

end Sys2Proof.Machine
end

