-- ==== Sys2Proof/Safety.lean ====
section
/-! DEFINITION. What counts as a sound state and a safe run: the invariants that the spec states of every reachable state,
and the premise under which the two settings of `CODE_SOURCE` agree. -/

namespace Sys2Proof.Machine

/-- "FLAGS bits outside the ... mask of recognized flags are always zero" (10_state.md R18). -/
def State.flagsMasked (s : State) : Bool := s.regs.flags &&& flagsMask == s.regs.flags

/-- A sound state: memory in canonical form, every unrecognised FLAGS bit 0 (10_state.md R18, R19). -/
def State.Sound (s : State) : Prop := s.mem.wf = true ∧ s.flagsMasked = true

/-- IP is the cursor, modulo the width of IP (70_reset_and_hazards.md R290; 92_eei_decisions.md D14). -/
def State.CursorTracksIp (s : State) : Prop := uint16 s.cursor = s.regs.ip

/-- The physical addresses of the code window `ORIGIN .. ORIGIN+N-1` (20_memory.md R58). -/
def State.inCodeWindow (s : State) (a : Nat) : Prop :=
  ∃ k : Nat, k < s.code.length ∧ a = phys (s.params.origin.toNat + k)

/-- Two machines alike but for `CODE_SOURCE`: `s` decodes the memory window, `t` a private copy of the same bytes, and the
window still holds them (20_memory.md R58). -/
def SameButCodeSource (s t : State) : Prop :=
  ∃ bytes : List Byte,
    s.code = .memoryWindow bytes.length ∧ t = { s with code := .privateCopy bytes } ∧
    ∀ k : Nat, k < bytes.length → s.memByte (s.params.origin.toNat + k) = bytes.getD k 0

/-- The outcome is no fault. -/
def NoFault (r : Result) : Prop := ∀ f, r ≠ .fault f

/-- A run is safe from `s` for `n` steps: no step of it faults (60_exceptions.md R266). -/
def SafeRun : Nat → State → Prop
  | 0, _ => True
  | n + 1, s => NoFault (step s) ∧ ∀ t, step s = .next t → SafeRun n t

end Sys2Proof.Machine
end

