-- ==== Sys2Proof/Certificates/Slice0/Obligations.lean ====
section
/-! DEFINITION. The statements for the provers, from the rules of spec/. A docstring names the rule a statement rests on, and
says where a clause rests on a decision of the spec (92_eei_decisions.md D<n>) or on a log entry of this model. -/

namespace Sys2Proof.Claim

open Sys2Proof Sys2Proof.Machine

/-! ### What an instruction leaves unchanged -/

/-- Every register slot outside the list is unchanged. -/
def RegsKept (s t : State) (except : List Slot) : Prop := ∀ r : Slot, r ∉ except → t.getReg r = s.getReg r

/-- Every byte of memory reads as before. -/
def MemKept (s t : State) : Prop := ∀ a : Nat, Memory.get t.mem a = Memory.get s.mem a

/-- Every byte of memory reads as before, but for the byte at `x` and, for a word, the byte after it. -/
def MemKeptOutside (s t : State) (x : Int) (wide : Bool) : Prop :=
  ∀ a : Nat, a ≠ phys x → (wide = true → a ≠ phys (x + 1)) → Memory.get t.mem a = Memory.get s.mem a

/-- The cursor, the code slice and the parameters are unchanged. -/
def RestKept (s t : State) : Prop := t.cursor = s.cursor ∧ t.code = s.code ∧ t.params = s.params

/-- IP after an instruction of `size` bytes that moves it by `disp` more, modulo 65536 (10_state.md R16, decision D13). -/
def ipAfter (s : State) (size : Nat) (disp : Int) : Word := BitVec.ofInt 16 ((s.regs.ip.toNat : Int) + size + disp)

/-- A branch of two bytes: only IP changes, to `old_ip + 2`, plus the displacement when taken (43_jumps.md R200). -/
def Branches (i : Instr) (s : State) (taken : Bool) (disp : Byte) : Prop :=
  exec i s = .next { s with regs := { s.regs with ip := ipAfter s 2 (if taken then disp.toInt else 0) } }

/-- A loop instruction of two bytes: CX and IP change, nothing else (43_jumps.md R219). -/
def Loops (i : Instr) (s : State) (cond : Bool) (disp : Byte) : Prop :=
  exec i s = .next
    { s with regs := { s.regs with
        cx := s.regs.cx - 1
        ip := ipAfter s 2 (if s.regs.cx - 1 ≠ 0 ∧ cond = true then disp.toInt else 0) } }

/-- `a ± b`. -/
def sumOrDifference (isAdd : Bool) (a b : Int) : Int := if isAdd then a + b else a - b

/-- The function of the flag unit an ADD (true) or a SUB or CMP (false) presents. -/
def unitFn (isAdd : Bool) : AluFn := if isAdd then .add else .sub

/-- `i` is an ADD (true) or a SUB (false). -/
def IsAddOrSub (isAdd : Bool) (i : Instr) : Prop := i.op = if isAdd then .add else .sub

/-- The segment registers aside, two states are the same. -/
def SameButSegments (s t : State) : Prop :=
  (∀ r : Slot, r ∉ [Slot.cs, .ds, .ss, .es] → t.getReg r = s.getReg r) ∧
  t.mem = s.mem ∧ t.cursor = s.cursor ∧ t.code = s.code ∧ t.params = s.params

/-- The instruction bytes `bs` stand in the code slice from the cursor on. -/
def BytesAtCursor (s : State) (bs : List Byte) : Prop :=
  ∀ k : Nat, k < bs.length → s.codeByte (s.cursor + k) = bs[k]?

/-- The descriptors of a register number with `w` clear and set, row by row (30_encoding.md R83). -/
def registerTable : List (BitVec 3 × RegAccess × RegAccess) :=
  [(0, .low .ax, .word .ax), (1, .low .cx, .word .cx), (2, .low .dx, .word .dx), (3, .low .bx, .word .bx)] ++
  [(4, .high .ax, .word .sp), (5, .high .cx, .word .bp), (6, .high .dx, .word .si), (7, .high .bx, .word .di)]

/-- The segment register of a number `sr` (30_encoding.md R84). -/
def segmentTable : List (BitVec 2 × SegField × Slot) := [(0, .es, .es), (1, .cs, .cs), (2, .ss, .ss), (3, .ds, .ds)]

/-- The rm table, row by row: `rm`, the base, its registers (30_encoding.md R85). -/
def rmTable : List (Nat × EaBase × Slot × Option Slot) :=
  [(0, .bxSi, .bx, some .si), (1, .bxDi, .bx, some .di), (2, .bpSi, .bp, some .si), (3, .bpDi, .bp, some .di)] ++
  [(4, .si, .si, none), (5, .di, .di, none), (6, .bp, .bp, none), (7, .bx, .bx, none)]

/-- `base` is the row of the rm table that the low three bits of `b1` name (30_encoding.md R73, R85). -/
def RmRow (b1 : Byte) (base : EaBase) : Prop := ∃ row ∈ rmTable, row.1 = b1.toNat % 8 ∧ row.2.1 = base

/-- The register whose number is `n` (30_encoding.md R83). -/
def registerNumber (n : Nat) : RegField := RegField.ofBits (BitVec.ofNat 3 n)

/-- The term of a word register, with scale 0 (30_encoding.md R85). -/
def wordTerm (slot : Slot) : EaTerm := { access := .word slot, scale := 0 }

/-- The instructions with two register-or-memory operands, and the operation of each (formats RM of 30_encoding.md R76). -/
def registerMemoryForms : List ((Bool → Bool → RegField → RegMem → Instr) × Op) :=
  [(.movNormal, .mov), (.addNormal, .add), (.subNormal, .sub), (.cmpNormal, .cmp)]

/-- The instructions `100000sw` resolves to, and the operation of each. -/
def arithImmediateForms : List ((RegMem → ArithImm → Instr) × Op) :=
  [(.addImmediateToRegisterOrMemory, .add), (.subImmediateFromRegisterOrMemory, .sub),
    (.cmpImmediateWithRegisterOrMemory, .cmp)]

/-- The accumulator-immediate instructions (format AI), and the operation of each. -/
def accumulatorForms : List ((Imm → Instr) × Op) :=
  [(.addImmediateToAccumulator, .add), (.subImmediateFromAccumulator, .sub), (.cmpImmediateWithAccumulator, .cmp)]

/-- The instructions of format J8, and the operation of each. -/
def jumpForms : List ((Byte → Instr) × Op) :=
  [(.jo, .jo), (.jno, .jno), (.jb, .jb), (.jnb, .jnb), (.je, .je), (.jne, .jne), (.jbe, .jbe), (.ja, .ja)] ++
  [(.js, .js), (.jns, .jns), (.jp, .jp), (.jnp, .jnp), (.jl, .jl), (.jnl, .jnl), (.jle, .jle), (.jg, .jg)] ++
  [(.loopnz, .loopnz), (.loopz, .loopz), (.loop, .loop), (.jcxz, .jcxz), (.jmpDirectShort, .jmp)]

/-- What the structural decoder builds of `i`: its operation, operands and `wide`. -/
def Builds (i : Instr) (op : Op) (operand0 operand1 : Operand) (wide : Bool) : Prop :=
  ∀ address : BitVec 32,
    (i.build address).op = op ∧ (i.build address).operand0 = operand0 ∧ (i.build address).operand1 = operand1 ∧
    (i.build address).flags =
      { wide := wide, far := false, lock := false, rep := false, repNe := false, segment := false } ∧
    (i.build address).segmentOverride = none

/-- The eleven rows of the base table (70_reset_and_hazards.md R301): operation and operand kinds, base, whether "+ EA". -/
def baseTable : List ((Op × OperandKind × OperandKind) × Nat × Bool) :=
  [((.mov, .memory, .accumulator), 10, false), ((.mov, .register, .register), 2, false),
    ((.mov, .register, .memory), 8, true), ((.mov, .memory, .register), 9, true),
    ((.mov, .register, .immediate), 4, false), ((.mov, .memory, .immediate), 10, true)] ++
  [((.add, .register, .register), 3, false), ((.add, .register, .memory), 9, true),
    ((.add, .memory, .register), 16, true), ((.add, .register, .immediate), 4, false),
    ((.add, .memory, .immediate), 17, true)]

/-- The operation and operand kinds of an instruction. -/
def kindsOf (i : Instr) : Op × OperandKind × OperandKind := (i.op, operandKind i.operand0, operandKind i.operand1)

/-- The register-or-memory operand an instruction's ModR/M byte encodes. -/
def regMemOf : Instr → Option RegMem
  | .movNormal _ _ _ rm | .addNormal _ _ _ rm | .subNormal _ _ _ rm | .cmpNormal _ _ _ rm => some rm
  | .movImmediateToRegisterOrMemory rm _ => some rm
  | .movRegisterOrMemoryToSegmentRegister _ rm | .movSegmentRegisterToRegisterOrMemory _ rm => some rm
  | .addImmediateToRegisterOrMemory rm _ | .subImmediateFromRegisterOrMemory rm _ => some rm
  | .cmpImmediateWithRegisterOrMemory rm _ => some rm
  | _ => none

/-- The cost of the terms of a row of the rm table (70_reset_and_hazards.md R302). -/
def termsCost : EaBase → Nat
  | .bxSi | .bpDi => 7
  | .bxDi | .bpSi => 8
  | .si | .di | .bp | .bx => 5

/-- The effective-address costs that 70_reset_and_hazards.md R302 allows a memory operand: one, but for a displacement of value
0 that is encoded, which may count or not (log 12). -/
def EaCostAllowed (rm : RegMem) (ea : Nat) : Prop :=
  match rm with
  | .reg _ => False
  | .direct _ => ea = 6
  | .mem base => ea = termsCost base
  | .mem8 base disp => ea = termsCost base + 4 ∨ (disp = 0 ∧ ea = termsCost base)
  | .mem16 base disp => ea = termsCost base + 4 ∨ (disp = 0 ∧ ea = termsCost base)

end Sys2Proof.Claim

open Sys2Proof Sys2Proof.Machine Sys2Proof.Claim

/-! ### Encoding and decoding -/

/-- Decoding the bytes of a well-formed instruction gives it back and leaves the bytes after it, under either setting of
`ACC_ADDR_NARROW`, for every operand. Rests on 30_encoding.md sections 1 to 4, whose first-byte values are the spec's
decision D1. -/
def Obligations.DecodeInvertsEncode : Prop :=
  ∀ (narrow : Bool) (i : Instr) (rest : List Byte),
    i.wellFormed narrow = true → decode narrow (encode i ++ rest) = .ok (i, rest)

/-- Whatever the decoder answers is well formed. -/
def Obligations.DecodedInstructionsAreWellFormed : Prop :=
  ∀ (narrow : Bool) (bs rest : List Byte) (i : Instr),
    decode narrow bs = .ok (i, rest) → i.wellFormed narrow = true

/-- 40_decoder.md R145: a decode consumes exactly `instr.size` bytes, 1 to 6 of them, and the record built from the same
bytes at two cursor positions differs only in `address`. -/
def Obligations.DecodeConsumesItsSizeInBytes : Prop :=
  ∀ (narrow : Bool) (bs rest : List Byte) (i : Instr), decode narrow bs = .ok (i, rest) →
    (∃ consumed : List Byte, bs = consumed ++ rest ∧ consumed.length = i.size) ∧
    1 ≤ i.size ∧ i.size ≤ 6 ∧
    ∀ a a' : BitVec 32,
      (i.build a).size = i.size ∧ (i.build a).address = a ∧ { i.build a with address := a' } = i.build a'

/-- 30_encoding.md R106, 40_decoder.md R146: *UnrecognizedOpcode* is raised in exactly two cases, a first byte that is not one
of the 72 values, or 0x80..0x83 with a second byte whose bits 5:3 are not 000, 101 or 111, whatever follows. The 72 values
rest on decision D1. -/
def Obligations.UnrecognizedOpcodeInExactlyTwoCases : Prop :=
  ∀ (narrow : Bool) (bs : List Byte),
    decode narrow bs = .error .unrecognizedOpcode ↔
      (∃ (b0 : Byte) (rest : List Byte), bs = b0 :: rest ∧
        b0.toNat ∉ [0x00, 0x01, 0x02, 0x03, 0x04, 0x05, 0x28, 0x29, 0x2A, 0x2B, 0x2C, 0x2D, 0x38, 0x39, 0x3A, 0x3B, 0x3C, 0x3D,
          0x80, 0x81, 0x82, 0x83, 0x88, 0x89, 0x8A, 0x8B, 0x8C, 0x8E, 0x90, 0xA0, 0xA1, 0xA2, 0xA3, 0xC6, 0xC7,
          0xE0, 0xE1, 0xE2, 0xE3, 0xEB] ∧
        ¬ (0x70 ≤ b0.toNat ∧ b0.toNat ≤ 0x7F) ∧ ¬ (0xB0 ≤ b0.toNat ∧ b0.toNat ≤ 0xBF)) ∨
      (∃ (b0 b1 : Byte) (rest : List Byte), bs = b0 :: b1 :: rest ∧
        0x80 ≤ b0.toNat ∧ b0.toNat ≤ 0x83 ∧ b1.toNat / 8 % 8 ∉ [0, 5, 7])

/-- 40_decoder.md R121 and R125: a slice that ends inside an instruction raises *EndOfStream*, wherever it ends. -/
def Obligations.TruncatedInstructionsRaiseEndOfStream : Prop :=
  ∀ (narrow : Bool) (bs rest : List Byte) (i : Instr) (k : Nat),
    decode narrow bs = .ok (i, rest) → k < i.size → decode narrow (bs.take k) = .error .endOfStream

/-- 40_decoder.md R121: decode is a function of `S[i0 .. i0+5]` alone, "as many as exist". -/
def Obligations.DecodeReadsAtMostSixBytes : Prop :=
  ∀ (narrow : Bool) (bs : List Byte),
    (decode narrow bs).map (fun x => x.1) = (decode narrow (bs.take 6)).map (fun x => x.1)

/-- 30_encoding.md R107 (decisions D4, D5): `b1[5:3]` of `C6`/`C7` and `b1[5]` of `8C`/`8E` do not matter, `82` decodes exactly
as `80`, and a zero displacement byte is legal and longer than none. That `C6`, `C7`, `8C` and `8E` are these MOVs, and the
place of `sr`, are decision D1 (general knowledge G1, G2; log 17). -/
def Obligations.UnexaminedBitsDoNotChangeTheInstruction : Prop :=
  ∀ (narrow : Bool) (b1 : Byte) (rest : List Byte),
    (∀ (b0 : Byte) (x : BitVec 3), b0 = 0xC6 ∨ b0 = 0xC7 →
      decode narrow (b0 :: ((b1 &&& 0xC7) ||| (x.setWidth 8 <<< 3)) :: rest) = decode narrow (b0 :: b1 :: rest)) ∧
    (∀ b0 : Byte, b0 = 0x8C ∨ b0 = 0x8E →
      decode narrow (b0 :: (b1 ||| 0x20) :: rest) = decode narrow (b0 :: (b1 &&& 0xDF) :: rest)) ∧
    decode narrow (0x82 :: b1 :: rest) = decode narrow (0x80 :: b1 :: rest) ∧
    decode narrow (0x8B :: 0x5E :: 0x00 :: rest) = .ok (.movNormal true true .r011 (.mem8 .bp 0), rest)

/-- 30_encoding.md R78: the sub-opcode of `100000sw` resolves to ADD (000), SUB (101), CMP (111), any other value to
*UnrecognizedOpcode*. That a bad sub-opcode wins over a slice that ends right after `b1` is decision D3 of the spec (log 24,
DEDUCED), not R78. -/
def Obligations.ArithmeticImmediateResolvesByRegField : Prop :=
  ∀ (narrow : Bool) (b0 b1 : Byte) (bs : List Byte), b0.toNat / 4 = 0x20 →
    (b1.toNat / 8 % 8 ∉ [0, 5, 7] → decode narrow (b0 :: b1 :: bs) = .error .unrecognizedOpcode) ∧
    (∀ (i : Instr) (rest : List Byte), decode narrow (b0 :: b1 :: bs) = .ok (i, rest) →
      (b1.toNat / 8 % 8 = 0 ∧ ∃ rm imm, i = .addImmediateToRegisterOrMemory rm imm) ∨
      (b1.toNat / 8 % 8 = 5 ∧ ∃ rm imm, i = .subImmediateFromRegisterOrMemory rm imm) ∨
      (b1.toNat / 8 % 8 = 7 ∧ ∃ rm imm, i = .cmpImmediateWithRegisterOrMemory rm imm)) ∧
    (b1.toNat / 8 % 8 ∈ [0, 5, 7] → decode narrow (b0 :: b1 :: bs) ≠ .error .unrecognizedOpcode)

/-- 30_encoding.md R80 with R73 and R85: the displacement length follows `mod` and `rm` of any ModR/M byte, the bytes are read
low byte first, and `rm` names the row of the rm table, or with mod=11 the register of that number. -/
def Obligations.DisplacementLengthFollowsModAndRm : Prop :=
  ∀ (b1 lo hi : Byte) (rest : List Byte),
    let wordRead : Word := BitVec.ofNat 16 (lo.toNat + 256 * hi.toNat)
    (b1.toNat / 64 = 0 → b1.toNat % 8 = 6 → readRegMem b1 (lo :: hi :: rest) = .ok (.direct wordRead, rest)) ∧
    (b1.toNat / 64 = 0 → b1.toNat % 8 ≠ 6 → ∃ base, readRegMem b1 rest = .ok (.mem base, rest) ∧ RmRow b1 base) ∧
    (b1.toNat / 64 = 1 → ∃ base, readRegMem b1 (lo :: rest) = .ok (.mem8 base lo, rest) ∧ RmRow b1 base) ∧
    (b1.toNat / 64 = 2 →
      ∃ base, readRegMem b1 (lo :: hi :: rest) = .ok (.mem16 base wordRead, rest) ∧ RmRow b1 base) ∧
    (b1.toNat / 64 = 3 → readRegMem b1 rest = .ok (.reg (registerNumber (b1.toNat % 8)), rest))

/-- The eight byte strings of the source (95_test_vectors.md S1 to S8) decode to what they are written to stand for. -/
def Obligations.SourceExamplesDecode : Prop :=
  ∀ narrow : Bool,
    decode narrow [0x89, 0xD9] = .ok (.movNormal false true .r011 (.reg .r001), []) ∧
    decode narrow [0xB1, 0x0C] = .ok (.movImmediateToRegister .r001 (.byte 12), []) ∧
    decode narrow [0xB9, 0x0C, 0x00] = .ok (.movImmediateToRegister .r001 (.word 12), []) ∧
    decode narrow [0x8B, 0x5E, 0x00] = .ok (.movNormal true true .r011 (.mem8 .bp 0), []) ∧
    decode narrow [0x83, 0xC3, 0x05] = .ok (.addImmediateToRegisterOrMemory (.reg .r011) (.wordSigned 5), []) ∧
    decode narrow [0x75, 0xFE] = .ok (.jne 0xFE, []) ∧
    decode narrow [0xE2, 0xFE] = .ok (.loop 0xFE, []) ∧
    decode narrow [0x39, 0xD8] = .ok (.cmpNormal false true .r011 (.reg .r000), [])

/-! ### Registers, memory, operands -/

/-- 10_state.md R13: `RegRead` and `RegWrite` on the three descriptor forms; a half leaves the other half. That a write of the
FLAGS slot stores `v & 0x0FD5` is R18 with conflict C3 (log 14, DEDUCED), not R13. -/
def Obligations.RegisterAccessReadsAndWritesItsPart : Prop :=
  ∀ (s : State) (v : Word),
    (∀ slot : Slot, (regRead (.word slot) s).toNat = (s.getReg slot).toNat) ∧
    (∀ slot : Slot, slot ≠ .flags → (regWrite (.word slot) v s).getReg slot = v) ∧
    (regWrite (.word .flags) v s).getReg .flags = v &&& 0x0FD5 ∧
    (∀ r : HalfReg,
      (regRead (.low r) s).toNat = (s.getReg (halfSlot r)).toNat % 256 ∧
      (regRead (.high r) s).toNat = (s.getReg (halfSlot r)).toNat / 256 ∧
      ((regWrite (.low r) v s).getReg (halfSlot r)).toNat = (s.getReg (halfSlot r)).toNat / 256 * 256 + v.toNat % 256 ∧
      ((regWrite (.high r) v s).getReg (halfSlot r)).toNat = v.toNat % 256 * 256 + (s.getReg (halfSlot r)).toNat % 256) ∧
    (∀ acc : RegAccess, RegsKept s (regWrite acc v s) [accessSlot acc] ∧ MemKept s (regWrite acc v s) ∧
      RestKept s (regWrite acc v s))

/-- 20_memory.md R43: a byte store touches one cell, a word store `addr` (low byte) and `addr+1` (high byte), no other cell
and no register. Premise: the memory's canonical form. -/
def Obligations.MemWriteTouchesItsCellsOnly : Prop :=
  ∀ (s : State) (addr : Int) (wide : Bool) (v : Word), s.mem.wf = true →
    (Memory.get (memWrite addr wide v s).mem (phys addr)).toNat = v.toNat % 256 ∧
    (wide = true → (Memory.get (memWrite addr wide v s).mem (phys (addr + 1))).toNat = v.toNat / 256) ∧
    MemKeptOutside s (memWrite addr wide v s) addr wide ∧
    (memWrite addr wide v s).regs = s.regs ∧ RestKept s (memWrite addr wide v s)

/-- 20_memory.md R40 and R42: a read after a write at the same address returns what was written, and a word is read little-
endian from two cells. The reduction of addresses modulo 1048576 is decision D12. -/
def Obligations.MemReadReturnsWhatWasWritten : Prop :=
  ∀ (s : State) (addr : Int) (v : Word), s.mem.wf = true →
    memRead addr true (memWrite addr true v s) = v ∧
    (memRead addr false (memWrite addr false v s)).toNat = v.toNat % 256 ∧
    (memRead (addr + 1) false (memWrite addr true v s)).toNat = v.toNat / 256 ∧
    (memRead addr true s).toNat =
      (Memory.get s.mem (addr % 1048576).toNat).toNat + 256 * (Memory.get s.mem ((addr + 1) % 1048576).toNat).toNat ∧
    (memRead addr false s).toNat = (Memory.get s.mem (addr % 1048576).toNat).toNat

/-- Memories in canonical form that read alike everywhere are equal data: the model's memory is the spec's array of
1,048,576 bytes (10_state.md R19). -/
def Obligations.EqualReadsMeanEqualMemories : Prop :=
  ∀ m m' : Memory, m.wf = true → m'.wf = true → (∀ a : Nat, Memory.get m a = Memory.get m' a) → m = m'

/-- 20_memory.md R46 over the rm table 30_encoding.md R85: the address is the exact sum of the unsigned registers and the
signed displacement (decision D11); a direct address is itself (decision D10). -/
def Obligations.EffectiveAddressIsTheExactSum : Prop :=
  ∀ (s : State) (w : Bool) (d8 : Byte) (d16 : Word),
    (∀ base : EaBase,
      let sum : Int := match base with
        | .bxSi => s.regs.bx.toNat + s.regs.si.toNat
        | .bxDi => s.regs.bx.toNat + s.regs.di.toNat
        | .bpSi => s.regs.bp.toNat + s.regs.si.toNat
        | .bpDi => s.regs.bp.toNat + s.regs.di.toNat
        | .si => s.regs.si.toNat
        | .di => s.regs.di.toNat
        | .bp => s.regs.bp.toNat
        | .bx => s.regs.bx.toNat
      effectiveAddress ((RegMem.mem base).operand w) s = some sum ∧
      effectiveAddress ((RegMem.mem8 base d8).operand w) s = some (sum + d8.toInt) ∧
      effectiveAddress ((RegMem.mem16 base d16).operand w) s = some (sum + d16.toInt)) ∧
    effectiveAddress ((RegMem.direct d16).operand w) s = some (d16.toNat : Int) ∧
    effectiveAddress (AccAddr.full d16).operand s = some (d16.toNat : Int) ∧
    effectiveAddress (AccAddr.short d8).operand s = some (d8.toNat : Int)

/-- 20_memory.md R48: the source value of every operand form; a byte is zero-extended, an immediate is `uint16` of its signed
value. That every one-byte immediate is sign-extended (30_encoding.md R90) is decision D8 (log 10, DEDUCED). -/
def Obligations.SourceValueByOperandForm : Prop :=
  ∀ (s : State) (wide : Bool),
    (∀ acc : RegAccess, srcValue (.register acc) wide s = some (regRead acc s)) ∧
    (∀ (op : Operand) (addr : Int), effectiveAddress op s = some addr →
      ∃ v, srcValue op wide s = some v ∧
        (v.toNat : Int) = (s.memByte addr).toNat + if wide then 256 * ((s.memByte (addr + 1)).toNat : Int) else 0) ∧
    (∀ d : Byte, ∃ v, srcValue (Imm.byte d).operand wide s = some v ∧ v.toInt = d.toInt) ∧
    (∀ d : Word, srcValue (Imm.word d).operand wide s = some d) ∧
    (∀ d : Byte, ∃ v, srcValue (ArithImm.byte d).operand wide s = some v ∧ v.toInt = d.toInt) ∧
    (∀ d : Word, srcValue (ArithImm.word d).operand wide s = some d) ∧
    (∀ d : Byte, ∃ v, srcValue (ArithImm.wordSigned d).operand wide s = some v ∧ v.toInt = d.toInt) ∧
    (∀ d : Byte, ∃ v, srcValue (relOperand d) wide s = some v ∧ v.toInt = d.toInt) ∧
    (∀ (value : BitVec 32) (relative : Bool), srcValue (.immediate value relative) wide s = some (value.setWidth 16)) ∧
    srcValue .absent wide s = none

/-! ### The flag computation unit -/

/-- 44_flag_unit.md R247, R248, R249: PF is the even parity of `r & 0xFF`, ZF is `r = 0` on the untruncated result, SF is bit
15 of `r`, for either width. -/
def Obligations.FlagUnitParityZeroSign : Prop :=
  ∀ (isAdd : Bool) (a b : Int) (w : OpWidth) (flagsIn : Word),
    let r := sumOrDifference isAdd a b
    let out := flagUnit (unitFn isAdd) a b w flagsIn
    out.getLsbD 2 = decide (((List.range 8).countP fun k => (r % 256).toNat.testBit k) % 2 = 0) ∧
    out.getLsbD 6 = decide (r = 0) ∧
    out.getLsbD 7 = decide (32768 ≤ r % 65536)

/-- 44_flag_unit.md R250, R251, R252: OF, CF and AF by their bounds (the numbers of R246 are general knowledge, G6), TF, IF, DF
preserved, every other bit 0. -/
def Obligations.FlagUnitCarriesOverflowAndPreservedBits : Prop :=
  ∀ (isAdd : Bool) (a b : Int) (w : OpWidth) (flagsIn : Word),
    let r := sumOrDifference isAdd a b
    let ru := sumOrDifference isAdd (a % 65536) (b % 65536)
    let n := sumOrDifference isAdd (a % 16) (b % 16)
    let out := flagUnit (unitFn isAdd) a b w flagsIn
    out.getLsbD 0 = decide (ru < 0 ∨ (match w with | .byte => 255 | .word => 65535) < ru) ∧
    out.getLsbD 4 = decide (n < 0 ∨ 15 < n) ∧
    out.getLsbD 11 = (match w with
      | .byte => decide (r < -128 ∨ 127 < r)
      | .word => decide (r < -32768 ∨ 32767 < r)) ∧
    (∀ k ∈ [8, 9, 10], out.getLsbD k = flagsIn.getLsbD k) ∧
    (∀ k ∈ [1, 3, 5, 12, 13, 14, 15], out.getLsbD k = false)

/-- 44_flag_unit.md R253: on words the unit gives the flags of 16-bit arithmetic, ZF but for 0x8000 + 0x8000. -/
def Obligations.WordFlagsAreThoseOfSixteenBitArithmetic : Prop :=
  ∀ (x y flagsIn : Word),
    let add := flagUnit .add x.toInt y.toInt .word flagsIn
    let sub := flagUnit .sub x.toInt y.toInt .word flagsIn
    let evenParity (r : Word) : Bool := decide (((List.range 8).countP fun k => r.getLsbD k) % 2 = 0)
    add.getLsbD 0 = decide (65536 ≤ x.toNat + y.toNat) ∧
    add.getLsbD 2 = evenParity (x + y) ∧
    add.getLsbD 4 = decide (16 ≤ x.toNat % 16 + y.toNat % 16) ∧
    add.getLsbD 6 = (x + y == 0 && !(x == 0x8000 && y == 0x8000)) ∧
    add.getLsbD 7 = (x + y).msb ∧
    add.getLsbD 11 = x.saddOverflow y ∧
    sub.getLsbD 0 = decide (x.toNat < y.toNat) ∧
    sub.getLsbD 2 = evenParity (x - y) ∧
    sub.getLsbD 4 = decide (x.toNat % 16 < y.toNat % 16) ∧
    sub.getLsbD 6 = (x == y) ∧
    sub.getLsbD 7 = (x - y).msb ∧
    sub.getLsbD 11 = x.ssubOverflow y

/-! ### Execution: completion, MOV -/

/-- No decoded instruction stops: whatever the operands and the state, exec answers a next state (60_exceptions.md R263,
derived there from the decoder's rules). -/
def Obligations.EveryInstructionCompletes : Prop :=
  ∀ (i : Instr) (s : State), ∃ t, exec i s = .next t

/-- 70_reset_and_hazards.md R289 and 40_decoder.md R135: exec is `Execute` of the semantic instruction the structural decoder
builds, whatever its address. -/
def Obligations.ExecIsExecuteOfTheBuiltRecord : Prop :=
  ∀ (i : Instr) (address : BitVec 32) (s : State), exec i s = execute (i.build address) s

/-- 60_exceptions.md R263 (decision D18): `Execute` raises *UnsupportedOperandForOperation* in exactly its three cases, and
raises nothing else. -/
def Obligations.ExecuteFaultsExactlyOnUnsupportedOperands : Prop :=
  ∀ (si : SemInstr) (s : State),
    let twoOperand := si.op ∈ [Op.mov, .add, .sub, .cmp]
    let isImmediate := ∃ v rel, si.operand0 = .immediate v rel
    let unsupported :=
      (twoOperand ∧ (isImmediate ∨ si.operand0 = .absent)) ∨
      (twoOperand ∧ si.operand1 = .absent) ∨
      (¬ twoOperand ∧ si.op ≠ .nop ∧ ¬ isImmediate)
    (unsupported → execute si s = .fault .unsupportedOperandForOperation) ∧
    (¬ unsupported → ∃ t, execute si s = .next t)

/-- 41_mov.md R160 to R167, register destination: each of the seven MOV encodings whose destination is a register completes,
writes the source value (its low byte for a half, the other half kept), and changes no other register but IP, no flag and no
memory. Address reduction, widths and IP wrap rest on decisions D9 to D13. -/
def Obligations.MovToRegisterWritesTheSource : Prop :=
  ∀ (i : Instr) (acc : RegAccess) (s : State), i.op = .mov → i.operand0 = .register acc →
    ∃ v t, srcValue i.operand1 i.wide s = some v ∧ exec i s = .next t ∧
      (match acc with
        | .word slot => t.getReg slot = v
        | .low r => (t.getReg (halfSlot r)).toNat = (s.getReg (halfSlot r)).toNat / 256 * 256 + v.toNat % 256
        | .high r => (t.getReg (halfSlot r)).toNat = v.toNat % 256 * 256 + (s.getReg (halfSlot r)).toNat % 256) ∧
      t.getReg .ip = ipAfter s i.size 0 ∧ t.getReg .flags = s.getReg .flags ∧
      RegsKept s t [accessSlot acc, .ip] ∧ MemKept s t ∧ RestKept s t

/-- 41_mov.md R160 to R167, memory destination: each MOV encoding whose destination is in memory completes, stores the source
value there, one byte or two little-endian by `wide`, and changes no other byte, no register but IP and no flag. Premise: the
memory's canonical form. -/
def Obligations.MovToMemoryStoresTheSource : Prop :=
  ∀ (i : Instr) (s : State) (addr : Int), i.op = .mov → effectiveAddress i.operand0 s = some addr → s.mem.wf = true →
    ∃ v t, srcValue i.operand1 i.wide s = some v ∧ exec i s = .next t ∧
      (Memory.get t.mem (phys addr)).toNat = v.toNat % 256 ∧
      (i.wide = true → (Memory.get t.mem (phys (addr + 1))).toNat = v.toNat / 256) ∧
      MemKeptOutside s t addr i.wide ∧
      t.getReg .ip = ipAfter s i.size 0 ∧ RegsKept s t [.ip] ∧ RestKept s t

/-! ### Execution: ADD, SUB, CMP -/

/-- 42_arith.md R180, R181, R183, R193, word register destination: every ADD and SUB encoding completes; the register gets the
sum or difference modulo 65536, FLAGS the flag unit's word on the signed operands; nothing else changes but IP. -/
def Obligations.AddSubWordRegister : Prop :=
  ∀ (isAdd : Bool) (i : Instr) (slot : Slot) (s : State),
    IsAddOrSub isAdd i → i.operand0 = .register (.word slot) →
    ∃ v t, srcValue i.operand1 i.wide s = some v ∧ exec i s = .next t ∧
      t.getReg slot = (if isAdd then s.getReg slot + v else s.getReg slot - v) ∧
      t.getReg .flags = flagUnit (unitFn isAdd) (s.getReg slot).toInt v.toInt .word (s.getReg .flags) ∧
      t.getReg .ip = ipAfter s i.size 0 ∧ RegsKept s t [slot, .flags, .ip] ∧ MemKept s t ∧ RestKept s t

/-- 42_arith.md R180, R181, R183, byte half destinations (decisions D16, D17): the half gets the sum or difference modulo 256
and the other half is kept; a low half presents its byte 0..255 with byte bounds, a high half the whole word register with the
source shifted left by 8 and word bounds. -/
def Obligations.AddSubByteRegister : Prop :=
  ∀ (isAdd : Bool) (i : Instr) (r : HalfReg) (s : State), IsAddOrSub isAdd i →
    (i.operand0 = .register (.low r) →
      ∃ v t, srcValue i.operand1 i.wide s = some v ∧ exec i s = .next t ∧
        ((t.getReg (halfSlot r)).toNat % 256 : Int) =
          sumOrDifference isAdd ((s.getReg (halfSlot r)).toNat % 256) v.toNat % 256 ∧
        (t.getReg (halfSlot r)).toNat / 256 = (s.getReg (halfSlot r)).toNat / 256 ∧
        t.getReg .flags =
          flagUnit (unitFn isAdd) ((s.getReg (halfSlot r)).toNat % 256 : Nat) v.toInt .byte (s.getReg .flags) ∧
        t.getReg .ip = ipAfter s i.size 0 ∧ RegsKept s t [halfSlot r, .flags, .ip] ∧ MemKept s t ∧ RestKept s t) ∧
    (i.operand0 = .register (.high r) →
      ∃ v t, srcValue i.operand1 i.wide s = some v ∧ exec i s = .next t ∧
        ((t.getReg (halfSlot r)).toNat / 256 : Int) =
          sumOrDifference isAdd ((s.getReg (halfSlot r)).toNat / 256) v.toNat % 256 ∧
        (t.getReg (halfSlot r)).toNat % 256 = (s.getReg (halfSlot r)).toNat % 256 ∧
        t.getReg .flags =
          flagUnit (unitFn isAdd) (s.getReg (halfSlot r)).toInt (v <<< 8).toInt .word (s.getReg .flags) ∧
        t.getReg .ip = ipAfter s i.size 0 ∧ RegsKept s t [halfSlot r, .flags, .ip] ∧ MemKept s t ∧ RestKept s t)

/-- 42_arith.md R182, memory destination: "read per `wide`, compute, write per `wide`, recompute flags", at one address; no
other byte and no register but FLAGS and IP changes. Premise: the memory's canonical form. -/
def Obligations.AddSubMemory : Prop :=
  ∀ (isAdd : Bool) (i : Instr) (s : State) (addr : Int),
    IsAddOrSub isAdd i → effectiveAddress i.operand0 s = some addr → s.mem.wf = true →
    ∃ v t, srcValue i.operand1 i.wide s = some v ∧ exec i s = .next t ∧
      (if i.wide then
        memRead addr true t = (if isAdd then memRead addr true s + v else memRead addr true s - v) ∧
        t.getReg .flags = flagUnit (unitFn isAdd) (memRead addr true s).toInt v.toInt .word (s.getReg .flags)
      else
        ((s.memByte addr).toNat + (if isAdd then (v.toNat : Int) else -v.toNat)) % 256 = (t.memByte addr).toNat ∧
        t.getReg .flags = flagUnit (unitFn isAdd) (s.memByte addr).toNat v.toInt .byte (s.getReg .flags)) ∧
      MemKeptOutside s t addr i.wide ∧
      t.getReg .ip = ipAfter s i.size 0 ∧ RegsKept s t [.flags, .ip] ∧ RestKept s t

/-- 42_arith.md R190: CMP "produces the same flags as SUB with the same operands" and writes FLAGS and IP only, for every
destination form (alignment by decisions D16, D17). -/
def Obligations.CmpWritesFlagsAndIpOnly : Prop :=
  ∀ (i : Instr) (s : State), i.op = .cmp →
    ∃ v t, srcValue i.operand1 i.wide s = some v ∧ exec i s = .next t ∧
      (∀ slot, i.operand0 = .register (.word slot) →
        t.getReg .flags = flagUnit .sub (s.getReg slot).toInt v.toInt .word (s.getReg .flags)) ∧
      (∀ r, i.operand0 = .register (.low r) →
        t.getReg .flags =
          flagUnit .sub ((s.getReg (halfSlot r)).toNat % 256 : Nat) v.toInt .byte (s.getReg .flags)) ∧
      (∀ r, i.operand0 = .register (.high r) →
        t.getReg .flags = flagUnit .sub (s.getReg (halfSlot r)).toInt (v <<< 8).toInt .word (s.getReg .flags)) ∧
      (∀ addr, effectiveAddress i.operand0 s = some addr →
        t.getReg .flags =
          (if i.wide then flagUnit .sub (memRead addr true s).toInt v.toInt .word (s.getReg .flags)
           else flagUnit .sub (s.memByte addr).toNat v.toInt .byte (s.getReg .flags))) ∧
      t.getReg .ip = ipAfter s i.size 0 ∧ RegsKept s t [.flags, .ip] ∧ MemKept s t ∧ RestKept s t

/-! ### Execution: control transfer -/

/-- 43_jumps.md R202 to R209: JO, JNO, JB, JNB, JE, JNE, JBE, JA are taken on their conditions of the FLAGS bits OF (11), CF
(0), ZF (6), and change IP only. The IP wrap is decision D13. -/
def Obligations.OverflowCarryZeroJumps : Prop :=
  ∀ (d : Byte) (s : State),
    let cf := s.regs.flags.getLsbD 0
    let zf := s.regs.flags.getLsbD 6
    let of := s.regs.flags.getLsbD 11
    Branches (.jo d) s (of == true) d ∧ Branches (.jno d) s (of == false) d ∧
    Branches (.jb d) s (cf == true) d ∧ Branches (.jnb d) s (cf == false) d ∧
    Branches (.je d) s (zf == true) d ∧ Branches (.jne d) s (zf == false) d ∧
    Branches (.jbe d) s (cf == true || zf == true) d ∧ Branches (.ja d) s (cf == false && zf == false) d

/-- 43_jumps.md R210 to R217: JS, JNS, JP, JNP, JL, JNL, JLE, JG are taken on their conditions of the FLAGS bits SF (7), PF
(2), OF (11), ZF (6), and change IP only. The IP wrap is decision D13. -/
def Obligations.SignParityComparisonJumps : Prop :=
  ∀ (d : Byte) (s : State),
    let pf := s.regs.flags.getLsbD 2
    let zf := s.regs.flags.getLsbD 6
    let sf := s.regs.flags.getLsbD 7
    let of := s.regs.flags.getLsbD 11
    Branches (.js d) s (sf == true) d ∧ Branches (.jns d) s (sf == false) d ∧
    Branches (.jp d) s (pf == true) d ∧ Branches (.jnp d) s (pf == false) d ∧
    Branches (.jl d) s (sf != of) d ∧ Branches (.jnl d) s (sf == of) d ∧
    Branches (.jle d) s (sf != of || zf == true) d ∧ Branches (.jg d) s (sf == of && zf == false) d

/-- 43_jumps.md R219 to R222: LOOPNZ, LOOPZ and LOOP decrement CX, 0 becoming 0xFFFF, whether or not the jump is taken; it is
taken when CX is then not 0 and ZF meets the condition; FLAGS is not written; the report names CX. -/
def Obligations.LoopFamilyDecrementsCxThenTests : Prop :=
  ∀ (d : Byte) (s : State),
    let zf := s.regs.flags.getLsbD 6
    Loops (.loopnz d) s (zf == false) d ∧ Loops (.loopz d) s (zf == true) d ∧ Loops (.loop d) s true d ∧
    (∀ (i : Instr) (address : BitVec 32) (t : State), i = .loopnz d ∨ i = .loopz d ∨ i = .loop d →
      exec i s = .next t →
      (stepReport (i.build address) s t).destination = .register (.word .cx) ∧
      (stepReport (i.build address) s t).oldValue = s.regs.cx ∧
      (stepReport (i.build address) s t).newValue = s.regs.cx - 1)

/-- 43_jumps.md R223, R225: JCXZ is taken when CX is 0, does not decrement, and its report names CX; JMP is always taken.
Neither changes anything but IP. The IP wrap is decision D13. -/
def Obligations.JcxzTestsAndJmpAlwaysJumps : Prop :=
  ∀ (d : Byte) (s : State),
    Branches (.jcxz d) s (s.regs.cx == 0) d ∧
    Branches (.jmpDirectShort d) s true d ∧
    (∀ (address : BitVec 32) (t : State), exec (.jcxz d) s = .next t →
      (stepReport ((Instr.jcxz d).build address) s t).destination = .register (.word .cx) ∧
      (stepReport ((Instr.jcxz d).build address) s t).oldValue = s.regs.cx ∧
      (stepReport ((Instr.jcxz d).build address) s t).newValue = s.regs.cx)

/-- 43_jumps.md R226: NOP has no operands and one byte, and does nothing but `R[IP] <- uint16(R[IP] + 1)`. That its byte is
`90` is decision D1, general knowledge G1 (log 17, PRESUMED). -/
def Obligations.NopAdvancesIpByOne : Prop :=
  ∀ (narrow : Bool) (rest : List Byte) (s : State),
    decode narrow (0x90 :: rest) = .ok (.nop, rest) ∧
    Instr.nop.operand0 = .absent ∧ Instr.nop.operand1 = .absent ∧
    exec .nop s = .next { s with regs := { s.regs with ip := s.regs.ip + 1 } }

/-- 43_jumps.md R225 and 60_exceptions.md R268: `EB FE` at the cursor jumps to itself for ever; the step answers the very
same state. That `EB` is the short JMP is decision D1, general knowledge G1 (log 17, PRESUMED). The other displacements of JMP
are JcxzTestsAndJmpAlwaysJumps. -/
def Obligations.JumpToItselfStaysForEver : Prop :=
  ∀ s : State, BytesAtCursor s [0xEB, 0xFE] → step s = .next s

/-! ### The whole machine -/

/-- 10_state.md R17: FLAGS is written by ADD, SUB and CMP and by no other instruction. -/
def Obligations.OnlyArithmeticWritesFlags : Prop :=
  ∀ (i : Instr) (s t : State), i.op ∉ [Op.add, .sub, .cmp] → exec i s = .next t → t.getReg .flags = s.getReg .flags

/-- 10_state.md R17 and 60_exceptions.md R269: "Trap/Interrupt/Direction are preserved but never written by supported
operations", over a whole step. -/
def Obligations.NoStepWritesTrapInterruptDirection : Prop :=
  ∀ (s t : State), step s = .next t →
    ∀ k ∈ [8, 9, 10], (t.getReg .flags).getLsbD k = (s.getReg .flags).getLsbD k

/-- 10_state.md R12 and R15: CS, DS, SS and ES are written only by MOV to a segment register, and only the one its `sr` field
names. -/
def Obligations.SegmentRegistersWrittenByTheirMovOnly : Prop :=
  ∀ (i : Instr) (s t : State) (seg : SegField), exec i s = .next t →
    (∀ rm, i ≠ .movRegisterOrMemoryToSegmentRegister seg rm) → t.getReg seg.slot = s.getReg seg.slot

/-- 10_state.md R15: "no address computed by any rule of this spec reads them". Two states alike but for CS, DS, SS, ES stay
alike under every instruction but the one that stores a segment register. -/
def Obligations.SegmentRegistersInfluenceNothingElse : Prop :=
  ∀ (i : Instr) (s u s' : State), SameButSegments s u →
    (∀ sr rm, i ≠ .movSegmentRegisterToRegisterOrMemory sr rm) → exec i s = .next s' →
    ∃ u', exec i u = .next u' ∧ SameButSegments s' u'

/-- 10_state.md R12 and 41_mov.md R160: memory changes only under MOV, ADD or SUB with a memory destination. -/
def Obligations.MemoryChangesOnlyThroughMemoryDestinations : Prop :=
  ∀ (i : Instr) (s t : State), exec i s = .next t →
    (i.op ∉ [Op.mov, .add, .sub] ∨ effectiveAddress i.operand0 s = none) → t.mem = s.mem

/-- No step changes the OPEN parameters or the code slice's own data (00_scope.md R5; the fields are the model's, logs 1 to
3). -/
def Obligations.NoStepChangesTheParameters : Prop :=
  ∀ (s t : State), step s = .next t → t.params = s.params ∧ t.code = s.code

/-! ### Reset, steps and the run -/

/-- 10_state.md R28 and 70_reset_and_hazards.md R280: at process start every register slot, every memory byte and the cursor
(decision D21) is 0. The parameters are the spec's defaults, nothing loaded (logs 1 to 4). -/
def Obligations.ResetIsAllZero : Prop :=
  (∀ r : Slot, State.reset.getReg r = 0) ∧ (∀ x : Int, State.reset.memByte x = 0) ∧ State.reset.cursor = 0 ∧
  State.reset.code = .memoryWindow 0 ∧ State.reset.params.accAddrNarrow = true ∧ State.reset.params.origin = 0

/-- 70_reset_and_hazards.md R289: away from the end of the slice, when the bytes from the cursor on decode to `i`, the step is
exec of `i` on the state whose cursor is past it, after which the cursor moves by the signed difference of IP (R296, decision
D13). -/
def Obligations.StepRunsTheDecodedInstruction : Prop :=
  ∀ (s : State) (i : Instr) (rest : List Byte),
    s.cursor ≠ s.code.length → decode s.params.accAddrNarrow s.fetchBytes = .ok (i, rest) →
    ∃ t, exec i { s with cursor := s.cursor + i.size } = .next t ∧
      step s = .next
        { t with cursor := t.cursor + (BitVec.ofInt 16 ((t.regs.ip.toNat : Int) - s.regs.ip.toNat - i.size)).toInt }

/-- 40_decoder.md R120 to R122 and 70_reset_and_hazards.md R289: when the code slice holds the bytes of a well-formed
instruction from the cursor on, the step executes exactly that instruction. -/
def Obligations.StepRunsTheInstructionInTheSlice : Prop :=
  ∀ (s : State) (i : Instr), i.wellFormed s.params.accAddrNarrow = true → BytesAtCursor s (encode i) →
    ∃ t t', exec i { s with cursor := s.cursor + i.size } = .next t ∧ step s = .next t' ∧
      t'.regs = t.regs ∧ t'.mem = t.mem ∧ t'.code = t.code ∧ t'.params = t.params

/-- 70_reset_and_hazards.md R296: the cursor moves by the size plus the branch displacement when a branch was taken, plus 0
otherwise, and IP by the same amount. -/
def Obligations.CursorFollowsTakenBranches : Prop :=
  ∀ (s t : State) (i : Instr) (rest : List Byte), s.decodeNext = .ok (i, rest) → step s = .next t →
    ∃ d : Int, (d = 0 ∨ ∃ b : Byte, i.operand0 = relOperand b ∧ d = b.toInt) ∧
      t.cursor = s.cursor + i.size + d ∧ t.getReg .ip = ipAfter s i.size d

/-- 60_exceptions.md R261, R262, R263, R267: a step faults exactly when a decode is attempted and fails, with the decoder's
error; *EndOfStream* whenever the cursor lies outside `0..N` (decision D15). -/
def Obligations.StepFaultsExactlyOnDecodeErrors : Prop :=
  ∀ (s : State),
    (∀ f, step s = .fault f ↔
      s.cursor ≠ s.code.length ∧
        ((f = .endOfStream ∧ s.decodeNext = .error .endOfStream) ∨
         (f = .unrecognizedOpcode ∧ s.decodeNext = .error .unrecognizedOpcode))) ∧
    (s.cursor < 0 ∨ (s.code.length : Int) < s.cursor → step s = .fault .endOfStream)

/-- 70_reset_and_hazards.md R290 (decision D15): a run ends normally when the cursor equals `N`, and then only; that the model
answers this as the refusal runEnded is log 5. -/
def Obligations.RunEndsExactlyWhenCursorIsN : Prop :=
  ∀ (s : State), (step s = .refused .runEnded ↔ s.cursor = s.code.length) ∧
    (∀ r, step s = .refused r → r = .runEnded)

/-- Reset meets the invariant Sound: memory in canonical form, unrecognised FLAGS bits 0. -/
def Obligations.ResetIsSound : Prop := State.reset.Sound ∧ State.reset.CursorTracksIp

/-- 10_state.md R18 and the memory's canonical form: every step from a sound state gives a sound state; bits 1, 3, 5 and 15:12
of FLAGS stay 0. -/
def Obligations.StepKeepsSound : Prop :=
  ∀ (s t : State), s.Sound → step s = .next t →
    t.Sound ∧ ∀ k ∈ [1, 3, 5, 12, 13, 14, 15], (t.getReg .flags).getLsbD k = false

/-- 70_reset_and_hazards.md R290 (decisions D13, D14): every step keeps IP equal to the cursor modulo 65536, taken branches
and wraps included. -/
def Obligations.StepKeepsCursorTrackingIp : Prop :=
  ∀ (s t : State), s.CursorTracksIp → step s = .next t → t.CursorTracksIp

/-- 70_reset_and_hazards.md R290 (decision D14): "`cursor = IP` as long as IP has not wrapped". -/
def Obligations.CursorEqualsIpUntilItWraps : Prop :=
  ∀ (s t : State), s.cursor = s.regs.ip.toNat → step s = .next t → 0 ≤ t.cursor → t.cursor < 65536 →
    t.cursor = t.regs.ip.toNat

/-- 20_memory.md R58 (decision D14): from states alike but for `CODE_SOURCE`, a step answers alike; and while no store
changes a cell of the code window, the two settings go on agreeing. -/
def Obligations.CodeSourceSettingsAgree : Prop :=
  ∀ (s u : State), SameButCodeSource s u →
    (∀ f, step s = .fault f ↔ step u = .fault f) ∧ (∀ r, step s = .refused r ↔ step u = .refused r) ∧
    (∀ s', step s = .next s' →
      step u = .next { s' with code := u.code } ∧
      ((∀ a : Nat, s.inCodeWindow a → Memory.get s'.mem a = Memory.get s.mem a) →
        SameButCodeSource s' { s' with code := u.code }))

/-- 70_reset_and_hazards.md R286: the load puts the file at `ORIGIN`, changes no other memory cell, sets CS and no other
register, puts the cursor at the start of the slice, and the slice reads as the file under either `CODE_SOURCE`. -/
def Obligations.LoadPlacesTheProgram : Prop :=
  ∀ (p : Params) (source : CodeSource) (csInit : Word) (file : List Byte) (s : State),
    s.mem.wf = true → file.length ≤ 1048576 →
    let t := load p source csInit file s
    (∀ k : Nat, k < file.length → t.memByte (p.origin.toNat + k) = file.getD k 0 ∧ t.codeByte k = file[k]?) ∧
    (∀ a : Nat, (∀ k : Nat, k < file.length → a ≠ phys (p.origin.toNat + k)) → Memory.get t.mem a = Memory.get s.mem a) ∧
    t.getReg .cs = csInit ∧ RegsKept s t [.cs] ∧ t.cursor = 0 ∧ t.code.length = file.length ∧ t.params = p ∧
    t.mem.wf = true

/-- 70_reset_and_hazards.md R288: in pure-decode mode no state but the cursor changes. A decode that succeeds moves it past the
instruction, one that fails raises its error (60_exceptions.md R261, R262), and at `cursor = N` none is attempted (R290,
decision D15; log 5). -/
def Obligations.DecodeOnlyMovesTheCursorOnly : Prop :=
  ∀ s : State,
    (s.cursor ≠ s.code.length →
      (∀ (i : Instr) (rest : List Byte), s.decodeNext = .ok (i, rest) →
        decodeOnly s = .next { s with cursor := s.cursor + i.size }) ∧
      (s.decodeNext = .error .endOfStream → decodeOnly s = .fault .endOfStream) ∧
      (s.decodeNext = .error .unrecognizedOpcode → decodeOnly s = .fault .unrecognizedOpcode)) ∧
    (s.cursor = s.code.length → decodeOnly s = .refused .runEnded) ∧
    (∀ t : State, decodeOnly s = .next t →
      ∃ i rest, s.decodeNext = .ok (i, rest) ∧ t = { s with cursor := s.cursor + i.size })

/-! ### The report and the cycle estimator -/

/-- 41_mov.md R168 and 42_arith.md R194: MOV, ADD, SUB and CMP report their destination with its value before and after; MOV's
flags are equal before and after, CMP's destination values are equal. -/
def Obligations.ReportOfTwoOperandInstructions : Prop :=
  ∀ (i : Instr) (address : BitVec 32) (s t : State), i.op ∈ [Op.mov, .add, .sub, .cmp] → exec i s = .next t →
    let report := stepReport (i.build address) s t
    report.destination = i.operand0 ∧
    srcValue i.operand0 i.wide s = some report.oldValue ∧ srcValue i.operand0 i.wide t = some report.newValue ∧
    report.oldFlags = s.getReg .flags ∧ report.newFlags = t.getReg .flags ∧
    report.oldIp = s.getReg .ip ∧ report.newIp = ipAfter s i.size 0 ∧
    (i.op = .mov → report.newFlags = report.oldFlags) ∧ (i.op = .cmp → report.newValue = report.oldValue)

/-- 70_reset_and_hazards.md R300 to R302, on the semantic instruction of every encoding: for the operand kinds of one of the
eleven rows the estimate is that row's base and, where the row says "+ EA", the cost of the memory operand, else 0; for any
other kinds it is *UnsupportedForCycleEstimation*. That no further row is assumed is log 13, that a segment register counts as
a plain register log 25, that an encoded zero displacement may cost 4 or nothing log 12. -/
def Obligations.CycleEstimateExistsForTheListedTuples : Prop :=
  (∀ (narrow : Bool) (i : Instr) (address : BitVec 32), i.wellFormed narrow = true →
    (∀ (base : Nat) (addEa : Bool), (kindsOf i, base, addEa) ∈ baseTable →
      ∃ ea, cycleEstimate (i.build address) = .ok { base := base, ea := ea } ∧
        (if addEa then ∃ rm, regMemOf i = some rm ∧ EaCostAllowed rm ea else ea = 0)) ∧
    ((∀ (base : Nat) (addEa : Bool), (kindsOf i, base, addEa) ∉ baseTable) →
      cycleEstimate (i.build address) = .error .unsupportedForCycleEstimation)) ∧
  (∀ acc : RegAccess, operandKind (.register acc) =
    if acc ∈ [RegAccess.word .ax, .low .ax, .high .ax] then .accumulator else .register) ∧
  (∀ (value : BitVec 32) (relative : Bool), operandKind (.immediate value relative) = .immediate) ∧
  (∀ (op : Operand) (s : State), operandKind op = .memory ↔ ∃ addr, effectiveAddress op s = some addr) ∧
  operandKind .absent = .absent

/-- 43_jumps.md R227 (decision D25; log 18, DEDUCED): the conditional jumps, JMP and NOP report no destination and the values
0, with FLAGS equal before and after. -/
def Obligations.ReportOfJumpsAndNop : Prop :=
  ∀ (i : Instr) (address : BitVec 32) (s t : State),
    i.op ∉ [Op.mov, .add, .sub, .cmp, .loop, .loopz, .loopnz, .jcxz] → exec i s = .next t →
    let report := stepReport (i.build address) s t
    report.destination = .absent ∧ report.oldValue = 0 ∧ report.newValue = 0 ∧
    report.oldFlags = s.getReg .flags ∧ report.newFlags = report.oldFlags ∧
    report.oldIp = s.getReg .ip ∧ report.newIp = t.getReg .ip

/-! ### The structural decoder -/

/-- 40_decoder.md R135 to R142 with 30_encoding.md R81, R83 to R87, R91 and R93 and 10_state.md R24: the register a number names,
the operand of every register-or-memory and address form, and the operation, operands and flags built of every constructor.
`reg` is the destination when `d` is set, else the source; both segment-register MOVs are wide (decision D9); one-byte
immediates are sign-extended (decision D8; log 10), direct addresses zero-extended (decision D10; log 7), the one address byte
too (decision D6; log 1). -/
def Obligations.StructuralDecoderBuildsTheOperands : Prop :=
  (∀ row ∈ registerTable,
    regAccess (RegField.ofBits row.1) false = row.2.1 ∧ regAccess (RegField.ofBits row.1) true = row.2.2) ∧
  (∀ row ∈ segmentTable, SegField.ofBits row.1 = row.2.1 ∧ segAccess row.2.1 = .word row.2.2) ∧
  (∀ (w : Bool) (r : RegField) (addr : Word),
    (RegMem.reg r).operand w = .register (regAccess r w) ∧ (RegMem.direct addr).operand w = .direct (addr.setWidth 20)) ∧
  (∀ row ∈ rmTable, ∀ (w : Bool) (d8 : Byte) (d16 : Word),
    let term1 := wordTerm row.2.2.1
    let term2 := row.2.2.2.map wordTerm
    (RegMem.mem row.2.1).operand w = .effective term1 term2 0 none ∧
    (RegMem.mem8 row.2.1 d8).operand w = .effective term1 term2 (d8.signExtend 16) none ∧
    (RegMem.mem16 row.2.1 d16).operand w = .effective term1 term2 d16 none) ∧
  (∀ (a8 : Byte) (a16 : Word),
    (AccAddr.short a8).operand = .direct (a8.setWidth 20) ∧ (AccAddr.full a16).operand = .direct (a16.setWidth 20)) ∧
  (∀ form ∈ registerMemoryForms, ∀ (w : Bool) (reg : RegField) (rm : RegMem),
    Builds (form.1 true w reg rm) form.2 (.register (regAccess reg w)) (rm.operand w) w ∧
    Builds (form.1 false w reg rm) form.2 (rm.operand w) (.register (regAccess reg w)) w) ∧
  (∀ form ∈ arithImmediateForms, ∀ (rm : RegMem) (b : Byte) (v : Word),
    Builds (form.1 rm (.byte b)) form.2 (rm.operand false) (.immediate (b.signExtend 32) false) false ∧
    Builds (form.1 rm (.word v)) form.2 (rm.operand true) (.immediate (v.signExtend 32) false) true ∧
    Builds (form.1 rm (.wordSigned b)) form.2 (rm.operand true) (.immediate (b.signExtend 32) false) true) ∧
  (∀ form ∈ accumulatorForms, ∀ (b : Byte) (v : Word),
    Builds (form.1 (.byte b)) form.2 (.register (.low .ax)) (.immediate (b.signExtend 32) false) false ∧
    Builds (form.1 (.word v)) form.2 (.register (.word .ax)) (.immediate (v.signExtend 32) false) true) ∧
  (∀ form ∈ jumpForms, ∀ b : Byte, Builds (form.1 b) form.2 (.immediate (b.signExtend 32) true) .absent false) ∧
  Builds .nop .nop .absent .absent false ∧
  (∀ (rm : RegMem) (reg : RegField) (sr : SegField) (b : Byte) (v : Word),
    Builds (.movImmediateToRegisterOrMemory rm (.byte b)) .mov (rm.operand false) (.immediate (b.signExtend 32) false) false ∧
    Builds (.movImmediateToRegisterOrMemory rm (.word v)) .mov (rm.operand true) (.immediate (v.signExtend 32) false) true ∧
    Builds (.movImmediateToRegister reg (.byte b)) .mov (.register (regAccess reg false)) (.immediate (b.signExtend 32) false)
      false ∧
    Builds (.movImmediateToRegister reg (.word v)) .mov (.register (regAccess reg true)) (.immediate (v.signExtend 32) false)
      true ∧
    Builds (.movRegisterOrMemoryToSegmentRegister sr rm) .mov (.register (segAccess sr)) (rm.operand true) true ∧
    Builds (.movSegmentRegisterToRegisterOrMemory sr rm) .mov (rm.operand true) (.register (segAccess sr)) true) ∧
  (∀ (addr : AccAddr),
    Builds (.movMemoryToAccumulator true addr) .mov (.register (.word .ax)) addr.operand true ∧
    Builds (.movMemoryToAccumulator false addr) .mov (.register (.low .ax)) addr.operand false ∧
    Builds (.movAccumulatorToMemory true addr) .mov addr.operand (.register (.word .ax)) true ∧
    Builds (.movAccumulatorToMemory false addr) .mov addr.operand (.register (.low .ax)) false)

/-- 30_encoding.md R72, R83 and R87 with 40_decoder.md R126 and R136, from the bytes: in format RM bit 0 of the first byte is
`wide`, bit 1 makes `reg` (bits 5:3 of the second byte) the destination, and the other operand is the one `mod` and `rm`
encode. The first bytes are decision D1 of the spec (log 17). -/
def Obligations.RegisterMemoryOperandsFollowTheBytes : Prop :=
  ∀ (narrow : Bool) (b0 b1 : Byte) (bs rest : List Byte) (i : Instr),
    b0.toNat / 4 ∈ [0x22, 0x00, 0x0A, 0x0E] → decode narrow (b0 :: b1 :: bs) = .ok (i, rest) →
    let reg := registerNumber (b1.toNat / 8 % 8)
    ∃ rm : RegMem, readRegMem b1 bs = .ok (rm, rest) ∧
      i.wide = decide (b0.toNat % 2 = 1) ∧
      (b0.toNat / 2 % 2 = 1 → i.operand0 = .register (regAccess reg i.wide) ∧ i.operand1 = rm.operand i.wide) ∧
      (b0.toNat / 2 % 2 = 0 → i.operand0 = rm.operand i.wide ∧ i.operand1 = .register (regAccess reg i.wide)) ∧
      (b0.toNat / 4 = 0x22 → i.op = .mov) ∧ (b0.toNat / 4 = 0x00 → i.op = .add) ∧
      (b0.toNat / 4 = 0x0A → i.op = .sub) ∧ (b0.toNat / 4 = 0x0E → i.op = .cmp)

/-- 30_encoding.md R84 with 40_decoder.md R132 and R141, from the bytes: the segment register is `b1[4:3]`, 00 ES, 01 CS, 10 SS,
11 DS; `8E` writes it, `8C` reads it, and both move a word (decisions D1, D5, D9; log 17). -/
def Obligations.SegmentMovOperandsFollowTheBytes : Prop :=
  ∀ (narrow : Bool) (b1 : Byte) (bs rest : List Byte) (i : Instr),
    let seg : Slot :=
      if b1.toNat / 8 % 4 = 0 then .es else if b1.toNat / 8 % 4 = 1 then .cs
      else if b1.toNat / 8 % 4 = 2 then .ss else .ds
    (decode narrow (0x8E :: b1 :: bs) = .ok (i, rest) →
      ∃ rm, readRegMem b1 bs = .ok (rm, rest) ∧ i.op = .mov ∧ i.wide = true ∧
        i.operand0 = .register (.word seg) ∧ i.operand1 = rm.operand true) ∧
    (decode narrow (0x8C :: b1 :: bs) = .ok (i, rest) →
      ∃ rm, readRegMem b1 bs = .ok (rm, rest) ∧ i.op = .mov ∧ i.wide = true ∧
        i.operand0 = rm.operand true ∧ i.operand1 = .register (.word seg))

/-- 40_decoder.md R129, R130, R131, R138, R139 and R140, from the bytes: `1011wreg`, the accumulator immediates and the
accumulator moves. With `w` clear the data is one byte and the register a byte register, with `w` set two bytes low first and
a word register; the address of the accumulator moves has one byte when `w` is clear and `ACC_ADDR_NARROW` holds, else two
(decisions D1, D6, D8; log 17). -/
def Obligations.AccumulatorAndRegisterImmediateFollowTheBytes : Prop :=
  ∀ (narrow : Bool) (lo hi : Byte) (rest : List Byte),
    let full : Word := BitVec.ofNat 16 (lo.toNat + 256 * hi.toNat)
    (∀ b0 : Byte, b0.toNat / 16 = 0xB →
      let reg := registerNumber (b0.toNat % 8)
      (b0.toNat / 8 % 2 = 0 →
        decode narrow (b0 :: lo :: rest) = .ok (.movImmediateToRegister reg (.byte lo), rest)) ∧
      (b0.toNat / 8 % 2 = 1 →
        decode narrow (b0 :: lo :: hi :: rest) = .ok (.movImmediateToRegister reg (.word full), rest))) ∧
    (∀ form ∈ [((0x04 : Byte), (0x05 : Byte), Instr.addImmediateToAccumulator),
        (0x2C, 0x2D, .subImmediateFromAccumulator), (0x3C, 0x3D, .cmpImmediateWithAccumulator)],
      decode narrow (form.1 :: lo :: rest) = .ok (form.2.2 (.byte lo), rest) ∧
      decode narrow (form.2.1 :: lo :: hi :: rest) = .ok (form.2.2 (.word full), rest)) ∧
    (∀ form ∈ [((0xA0 : Byte), (0xA1 : Byte), Instr.movMemoryToAccumulator), (0xA2, 0xA3, .movAccumulatorToMemory)],
      decode true (form.1 :: lo :: rest) = .ok (form.2.2 false (.short lo), rest) ∧
      decode false (form.1 :: lo :: hi :: rest) = .ok (form.2.2 false (.full full), rest) ∧
      decode narrow (form.2.1 :: lo :: hi :: rest) = .ok (form.2.2 true (.full full), rest))
end

