-- ==== Sys2Proof/Laws/Cycles.lean ====
section
/-! SUPPORT. What the cycle estimator answers, said once: the kinds of the operand forms, and the effective-address cost of
every register-or-memory operand an encoding has. -/

namespace Sys2Proof.Machine

/-- The operand kinds a register-or-memory operand can have. -/
theorem operandKind_regMem (rm : RegMem) (w : Bool) :
    (operandKind (rm.operand w) = .memory ∧ ∀ r, rm ≠ .reg r) ∨
    (operandKind (rm.operand w) ≠ .memory ∧ ∃ r, rm = .reg r) := by
  cases rm with
  | reg r => exact .inr ⟨by cases r <;> cases w <;> decide, r, rfl⟩
  | direct _ => exact .inl ⟨rfl, by simp⟩
  | mem _ => exact .inl ⟨rfl, by simp⟩
  | mem8 _ _ => exact .inl ⟨rfl, by simp⟩
  | mem16 _ _ => exact .inl ⟨rfl, by simp⟩

theorem operandKind_register_ne_memory (acc : RegAccess) : operandKind (.register acc) ≠ .memory := by
  simp only [operandKind, accessKind]
  split <;> simp

theorem operandKind_register_ne_immediate (acc : RegAccess) : operandKind (.register acc) ≠ .immediate := by
  simp only [operandKind, accessKind]
  split <;> simp

/-- A memory operand is one that has an effective address. -/
theorem operandKind_eq_memory (op : Operand) (s : State) :
    operandKind op = .memory ↔ ∃ addr, effectiveAddress op s = some addr := by
  cases op with
  | absent => simp [operandKind, effectiveAddress]
  | register acc => simp [operandKind_register_ne_memory, effectiveAddress]
  | direct a => simp [operandKind, effectiveAddress]
  | effective t1 t2 d o => cases t2 <;> simp [operandKind, effectiveAddress]
  | immediate v r => simp [operandKind, effectiveAddress]

/-- A displacement other than 0 costs 4; one of value 0 costs nothing where a displacement-less encoding builds the
instruction, else 4 or nothing. -/
theorem displacementCost_cases (si : SemInstr) (t1 : EaTerm) (t2 : Option EaTerm) (disp : BitVec 16) :
    (disp = 0 ∨ displacementCost si t1 t2 disp = 4) ∧
    (displacementCost si t1 t2 disp = 4 ∨ disp = 0 ∧ displacementCost si t1 t2 disp = 0) ∧
    (disp = 0 → hasPlainEncoding si t1 t2 = true → displacementCost si t1 t2 disp = 0) := by
  unfold displacementCost
  by_cases h : disp = 0
  · subst h
    refine ⟨.inl rfl, ?_, fun _ hp => by simp [hp]⟩
    cases hasPlainEncoding si t1 t2 <;> cases Config.zeroDisplacementCosts si <;> simp
  · rw [if_pos h]
    exact ⟨.inr rfl, .inl rfl, fun h0 => absurd h0 h⟩

/-- Every row of the rm table has a listed cost. -/
theorem listedTermsCost_rmTable (base : EaBase) :
    ∃ cost, listedTermsCost base.term1.access (base.term2.map EaTerm.access) = some cost ∧ 5 ≤ cost ∧ cost ≤ 8 := by
  cases base <;> exact ⟨_, rfl, by decide, by decide⟩

/-- The cost of a row of the rm table with a displacement. -/
theorem eaCost_effectiveOperand (si : SemInstr) (base : EaBase) (disp : BitVec 16) {cost : Nat}
    (h : listedTermsCost base.term1.access (base.term2.map EaTerm.access) = some cost) :
    eaCost si (effectiveOperand base disp) = cost + displacementCost si base.term1 base.term2 disp := by
  simp [eaCost, effectiveOperand, h]

end Sys2Proof.Machine
end

