-- ==== Sys2Proof/Laws/Decode.lean ====
section
/-! SUPPORT. Small lemmas of the decode block: bytes and words, field numbers, the readers. -/

namespace Sys2Proof

/-! ### Bytes and words (00_scope.md R6) -/

@[simp] theorem lowByte_joinBytes (lo hi : Byte) : lowByte (joinBytes lo hi) = lo := by
  apply BitVec.eq_of_toNat_eq
  simp only [lowByte, joinBytes, BitVec.extractLsb'_toNat, BitVec.toNat_append]
  have := lo.isLt
  rw [Nat.shiftLeft_eq, Nat.shiftRight_zero, Nat.mul_comm, ← Nat.two_pow_add_eq_or_of_lt lo.isLt]
  omega

@[simp] theorem highByte_joinBytes (lo hi : Byte) : highByte (joinBytes lo hi) = hi := by
  apply BitVec.eq_of_toNat_eq
  simp only [highByte, joinBytes, BitVec.extractLsb'_toNat, BitVec.toNat_append]
  have := lo.isLt
  have := hi.isLt
  rw [Nat.shiftLeft_eq, Nat.mul_comm, ← Nat.two_pow_add_eq_or_of_lt lo.isLt, Nat.shiftRight_eq_div_pow]
  omega

theorem lowByte_toNat (v : Word) : (lowByte v).toNat = v.toNat % 256 := by
  simp [lowByte]

theorem highByte_toNat (v : Word) : (highByte v).toNat = v.toNat / 256 := by
  have := v.isLt
  simp only [highByte, BitVec.extractLsb'_toNat, Nat.shiftRight_eq_div_pow]
  omega

theorem joinBytes_toNat (lo hi : Byte) : (joinBytes lo hi).toNat = lo.toNat + 256 * hi.toNat := by
  simp only [joinBytes, BitVec.toNat_append]
  rw [Nat.shiftLeft_eq, Nat.mul_comm, ← Nat.two_pow_add_eq_or_of_lt lo.isLt]
  omega

@[simp] theorem joinBytes_lowByte_highByte (v : Word) : joinBytes (lowByte v) (highByte v) = v := by
  apply BitVec.eq_of_toNat_eq
  rw [joinBytes_toNat, lowByte_toNat, highByte_toNat]
  omega

/-! ### Field numbers (30_encoding.md R83 to R85) -/

@[simp] theorem RegField.ofBits_toBits (r : RegField) : RegField.ofBits r.toBits = r := by cases r <;> rfl
@[simp] theorem SegField.ofBits_toBits (r : SegField) : SegField.ofBits r.toBits = r := by cases r <;> rfl
@[simp] theorem EaBase.ofBits_toBits (b : EaBase) : EaBase.ofBits b.toBits = b := by cases b <;> rfl
theorem RegField.toBits_ofBits : ∀ b : BitVec 3, (RegField.ofBits b).toBits = b := by decide
theorem SegField.toBits_ofBits : ∀ b : BitVec 2, (SegField.ofBits b).toBits = b := by decide
theorem EaBase.toBits_ofBits : ∀ b : BitVec 3, (EaBase.ofBits b).toBits = b := by decide

/-! ### The ModR/M byte (30_encoding.md R73) -/

@[simp] theorem modBits_modRm : ∀ (mod : BitVec 2) (mid rm : BitVec 3), modBits (modRm mod mid rm) = mod := by decide
@[simp] theorem regBits_modRm : ∀ (mod : BitVec 2) (mid rm : BitVec 3), regBits (modRm mod mid rm) = mid := by decide
@[simp] theorem rmBits_modRm : ∀ (mod : BitVec 2) (mid rm : BitVec 3), rmBits (modRm mod mid rm) = rm := by decide
@[simp] theorem srBits_modRm : ∀ (mod : BitVec 2) (sr : BitVec 2) (rm : BitVec 3),
    srBits (modRm mod (sr.setWidth 3) rm) = sr := by decide

theorem modBits_toNat (b : Byte) : (modBits b).toNat = b.toNat / 64 := by
  have := b.isLt
  simp only [modBits, BitVec.extractLsb'_toNat, Nat.shiftRight_eq_div_pow]
  omega

theorem regBits_toNat (b : Byte) : (regBits b).toNat = b.toNat / 8 % 8 := by
  simp only [regBits, BitVec.extractLsb'_toNat, Nat.shiftRight_eq_div_pow]

theorem rmBits_toNat (b : Byte) : (rmBits b).toNat = b.toNat % 8 := by
  simp [rmBits]

/-! ### Readers (40_decoder.md R120, R125) -/

@[simp] theorem readByte_cons (b : Byte) (bs : List Byte) : readByte (b :: bs) = .ok (b, bs) := rfl
@[simp] theorem readByte_nil : readByte [] = .error .endOfStream := rfl
@[simp] theorem readThen_ok {α β : Type} (a : α) (bs : List Byte) (f : α → List Byte → Reading β) :
    readThen (.ok (a, bs)) f = f a bs := rfl
@[simp] theorem readThen_error {α β : Type} (e : DecodeError) (f : α → List Byte → Reading β) :
    readThen (.error e) f = .error e := rfl
@[simp] theorem readWord_cons (lo hi : Byte) (bs : List Byte) : readWord (lo :: hi :: bs) = .ok (joinBytes lo hi, bs) := rfl

/-- A reading after another answers a value exactly when both do. -/
theorem readThen_eq_ok {α β : Type} {r : Reading α} {f : α → List Byte → Reading β} {x : β × List Byte} :
    readThen r f = .ok x ↔ ∃ a bs, r = .ok (a, bs) ∧ f a bs = .ok x := by
  rcases r with e | ⟨a, bs⟩
  · simp
  · simp

theorem readThen_eq_error {α β : Type} {r : Reading α} {f : α → List Byte → Reading β} {e : DecodeError} :
    readThen r f = .error e ↔ r = .error e ∨ ∃ a bs, r = .ok (a, bs) ∧ f a bs = .error e := by
  rcases r with e' | ⟨a, bs⟩
  · simp
  · simp

theorem readByte_eq_ok {bs rest : List Byte} {b : Byte} : readByte bs = .ok (b, rest) ↔ bs = b :: rest := by
  cases bs <;> simp [readByte]

theorem readByte_eq_error {bs : List Byte} {e : DecodeError} : readByte bs = .error e ↔ bs = [] ∧ e = .endOfStream := by
  cases bs <;> simp [readByte, eq_comm]

theorem readWord_eq_ok {bs rest : List Byte} {v : Word} :
    readWord bs = .ok (v, rest) ↔ bs = lowByte v :: highByte v :: rest := by
  constructor
  · intro h
    simp only [readWord, readThen_eq_ok, readByte_eq_ok] at h
    obtain ⟨lo, _, rfl, hi, _, rfl, h⟩ := h
    cases h
    simp
  · rintro rfl
    simp

/-- Reading a register-or-memory operand back from its bytes (30_encoding.md R80). -/
theorem readRegMem_encode (mid : BitVec 3) (rm : RegMem) (h : rm.wellFormed = true) (rest : List Byte) :
    ∃ b1 tail, encodeRegMem mid rm = b1 :: tail ∧ regBits b1 = mid ∧ readRegMem b1 (tail ++ rest) = .ok (rm, rest) := by
  cases rm with
  | reg r => exact ⟨_, _, rfl, regBits_modRm _ _ _, by simp [readRegMem]⟩
  | direct a => exact ⟨_, _, rfl, regBits_modRm _ _ _, by simp [readRegMem, EaBase.ofBits]⟩
  | mem base =>
    refine ⟨_, _, rfl, regBits_modRm _ _ _, ?_⟩
    cases base <;> first | exact absurd h (by decide) | simp [readRegMem, EaBase.toBits, EaBase.ofBits]
  | mem8 base d => exact ⟨_, _, rfl, regBits_modRm _ _ _, by simp [readRegMem]⟩
  | mem16 base d => exact ⟨_, _, rfl, regBits_modRm _ _ _, by simp [readRegMem]⟩

theorem encodeRegMem_length (mid : BitVec 3) (rm : RegMem) : (encodeRegMem mid rm).length = 1 + rm.dispLen := by
  cases rm <;> rfl

theorem encodeImm_length (imm : Imm) : (encodeImm imm).length = imm.len := by cases imm <;> rfl
theorem encodeArithImm_length (imm : ArithImm) : (encodeArithImm imm).length = imm.len := by cases imm <;> rfl
theorem encodeAccAddr_length (a : AccAddr) : (encodeAccAddr a).length = a.len := by cases a <;> rfl

theorem RegMem.dispLen_le (rm : RegMem) : rm.dispLen ≤ 2 := by cases rm <;> simp [RegMem.dispLen]
theorem Imm.len_bounds (imm : Imm) : 1 ≤ imm.len ∧ imm.len ≤ 2 := by cases imm <;> simp [Imm.len]
theorem ArithImm.len_bounds (imm : ArithImm) : 1 ≤ imm.len ∧ imm.len ≤ 2 := by cases imm <;> simp [ArithImm.len]
theorem AccAddr.len_bounds (a : AccAddr) : 1 ≤ a.len ∧ a.len ≤ 2 := by cases a <;> simp [AccAddr.len]

/-! ### Reading the other fields back -/

theorem readImm_encode (imm : Imm) (rest : List Byte) : readImm imm.wide (encodeImm imm ++ rest) = .ok (imm, rest) := by
  cases imm <;> simp [readImm, Imm.wide, encodeImm, encodeWord]

theorem readAccAddr_encode {narrow w : Bool} {a : AccAddr} (h : a.wellFormed narrow w = true) (rest : List Byte) :
    readAccAddr narrow w (encodeAccAddr a ++ rest) = .ok (a, rest) := by
  cases a <;> cases narrow <;> cases w <;> simp_all [readAccAddr, encodeAccAddr, encodeWord, AccAddr.wellFormed]

theorem readArithImm_encode (imm : ArithImm) (rest : List Byte) :
    readArithImm ((arithOpcode imm).getLsbD 1) ((arithOpcode imm).getLsbD 0) (encodeArithImm imm ++ rest) = .ok (imm, rest) := by
  cases imm <;> simp [readArithImm, arithOpcode, encodeArithImm, encodeWord]

/-- The classifier on the first byte of format RMI-A (30_encoding.md R74). -/
theorem classify_arithOpcode (imm : ArithImm) : classify (arithOpcode imm) = some .arithmeticImmediate := by
  have h : ∀ x ∈ [(0x80 : Byte), 0x81, 0x83], classify x = some .arithmeticImmediate := by decide
  cases imm <;> exact h _ (by simp [arithOpcode])

/-- The first bytes of format RM: the class, `d` and `w` (30_encoding.md R72, R74). -/
theorem opcodeByte_formatRM : ∀ d w : Bool,
    classify (opcodeByte 0x88 d w) = some .movNormal ∧ classify (opcodeByte 0x00 d w) = some .addNormal ∧
    classify (opcodeByte 0x28 d w) = some .subNormal ∧ classify (opcodeByte 0x38 d w) = some .cmpNormal ∧
    ∀ b ∈ [(0x88 : Byte), 0x00, 0x28, 0x38], (opcodeByte b d w).getLsbD 1 = d ∧ (opcodeByte b d w).getLsbD 0 = w := by
  decide

/-- The first bytes with a `w` in bit 0 alone (30_encoding.md R72, R74). -/
theorem opcodeByte_w : ∀ w : Bool,
    classify (opcodeByte 0xC6 false w) = some .movImmediateToRegisterOrMemory ∧
    classify (opcodeByte 0xA0 false w) = some .movMemoryToAccumulator ∧
    classify (opcodeByte 0xA2 false w) = some .movAccumulatorToMemory ∧
    classify (opcodeByte 0x04 false w) = some .addImmediateToAccumulator ∧
    classify (opcodeByte 0x2C false w) = some .subImmediateFromAccumulator ∧
    classify (opcodeByte 0x3C false w) = some .cmpImmediateWithAccumulator ∧
    ∀ b ∈ [(0xC6 : Byte), 0xA0, 0xA2, 0x04, 0x2C, 0x3C], (opcodeByte b false w).getLsbD 0 = w := by
  decide

theorem decode_cons {b : Byte} {cls : OpcodeClass} (h : classify b = some cls) (narrow : Bool) (bs : List Byte) :
    decode narrow (b :: bs) = readFields narrow cls b bs := by
  simp [decode, h]

/-! ### What a field reader consumes -/

theorem readRegMem_eq_ok {b1 : Byte} {bs rest : List Byte} {rm : RegMem} (h : readRegMem b1 bs = .ok (rm, rest)) :
    rm.wellFormed = true ∧ ∃ pre, bs = pre ++ rest ∧ pre.length = rm.dispLen := by
  unfold readRegMem at h
  split at h
  · cases h
    exact ⟨rfl, [], rfl, rfl⟩
  · simp only [readThen_eq_ok, readWord_eq_ok] at h
    obtain ⟨a, b, rfl, h⟩ := h
    cases h
    exact ⟨rfl, [_, _], rfl, rfl⟩
  · simp only [readThen_eq_ok, readByte_eq_ok] at h
    obtain ⟨a, b, rfl, h⟩ := h
    cases h
    exact ⟨rfl, [_], rfl, rfl⟩
  · split at h
    · simp only [readThen_eq_ok, readWord_eq_ok] at h
      obtain ⟨a, b, rfl, h⟩ := h
      cases h
      exact ⟨rfl, [_, _], rfl, rfl⟩
    · rename_i hne
      cases h
      exact ⟨by simpa [RegMem.wellFormed] using hne, [], rfl, rfl⟩

theorem readImm_eq_ok {w : Bool} {bs rest : List Byte} {imm : Imm} (h : readImm w bs = .ok (imm, rest)) :
    imm.wide = w ∧ ∃ pre, bs = pre ++ rest ∧ pre.length = imm.len := by
  unfold readImm at h
  split at h
  · simp only [readThen_eq_ok, readWord_eq_ok] at h
    obtain ⟨a, b, rfl, h⟩ := h
    cases h
    exact ⟨by simp_all [Imm.wide], [_, _], rfl, rfl⟩
  · simp only [readThen_eq_ok, readByte_eq_ok] at h
    obtain ⟨a, b, rfl, h⟩ := h
    cases h
    exact ⟨by simp_all [Imm.wide], [_], rfl, rfl⟩

theorem readArithImm_eq_ok {s w : Bool} {bs rest : List Byte} {imm : ArithImm} (h : readArithImm s w bs = .ok (imm, rest)) :
    ∃ pre, bs = pre ++ rest ∧ pre.length = imm.len := by
  unfold readArithImm at h
  split at h
  · split at h
    · simp only [readThen_eq_ok, readByte_eq_ok] at h
      obtain ⟨a, b, rfl, h⟩ := h
      cases h
      exact ⟨[_], rfl, rfl⟩
    · simp only [readThen_eq_ok, readWord_eq_ok] at h
      obtain ⟨a, b, rfl, h⟩ := h
      cases h
      exact ⟨[_, _], rfl, rfl⟩
  · simp only [readThen_eq_ok, readByte_eq_ok] at h
    obtain ⟨a, b, rfl, h⟩ := h
    cases h
    exact ⟨[_], rfl, rfl⟩

theorem readAccAddr_eq_ok {narrow w : Bool} {bs rest : List Byte} {a : AccAddr} (h : readAccAddr narrow w bs = .ok (a, rest)) :
    a.wellFormed narrow w = true ∧ ∃ pre, bs = pre ++ rest ∧ pre.length = a.len := by
  unfold readAccAddr at h
  split at h
  · simp only [readThen_eq_ok, readWord_eq_ok] at h
    obtain ⟨a, b, rfl, h⟩ := h
    cases h
    exact ⟨by simp_all [AccAddr.wellFormed], [_, _], rfl, rfl⟩
  · simp only [readThen_eq_ok, readByte_eq_ok] at h
    obtain ⟨a, b, rfl, h⟩ := h
    cases h
    exact ⟨by simp_all [AccAddr.wellFormed], [_], rfl, rfl⟩

end Sys2Proof
end

