-- ==== Sys2Proof/Laws/Flags.lean ====
section
/-! SUPPORT. The flag computation unit's word, bit by bit. -/

namespace Sys2Proof.Machine

theorem flagWord_getLsbD (c : Bool) (bit : Word) (k : Nat) : (flagWord c bit).getLsbD k = (c && bit.getLsbD k) := by
  cases c <;> simp [flagWord]

/-- The unit writes recognised bits only (10_state.md R18; 44_flag_unit.md R252). -/
theorem flagUnit_masked (fn : AluFn) (a b : Int) (w : OpWidth) (f : Word) :
    flagUnit fn a b w f &&& flagsMask = flagUnit fn a b w f := by
  simp only [flagUnit]
  generalize carryOut fn a b w = c
  generalize parityOut fn a b = p
  generalize auxOut fn a b = x
  generalize zeroOut fn a b = z
  generalize signOut fn a b = n
  generalize overflowOut fn a b w = o
  have hf : f &&& preservedFlags &&& flagsMask = f &&& preservedFlags := by
    rw [BitVec.and_assoc]
    rfl
  simp only [BitVec.and_or_distrib_right, hf]
  congr 1 <;> [skip; (cases o <;> rfl)]
  congr 1 <;> [skip; (cases n <;> rfl)]
  congr 1 <;> [skip; (cases z <;> rfl)]
  congr 1 <;> [skip; (cases x <;> rfl)]
  congr 1 <;> [skip; (cases p <;> rfl)]
  congr 1
  cases c <;> rfl

end Sys2Proof.Machine
end

