-- ==== Sys2Proof/Laws/State.lean ====
section
/-! SUPPORT. One lemma per field per update of State: no later proof unfolds a record update. -/

namespace Sys2Proof.Machine

/-! ### A register write, read through every observer -/

theorem Regs.get_set (r : Regs) (a b : Slot) (v : Word) :
    (r.set a v).get b = if b = a then (if a = .flags then v &&& flagsMask else v) else r.get b := by
  cases a <;> cases b <;> rfl

@[simp] theorem Regs.get_set_same {a : Slot} (h : a ≠ .flags) (r : Regs) (v : Word) : (r.set a v).get a = v := by
  simp [Regs.get_set, h]

@[simp] theorem Regs.get_set_ne {a b : Slot} (h : b ≠ a) (r : Regs) (v : Word) : (r.set a v).get b = r.get b := by
  simp [Regs.get_set, h]

theorem State.getReg_setReg (s : State) (a b : Slot) (v : Word) :
    (s.setReg a v).getReg b = if b = a then (if a = .flags then v &&& flagsMask else v) else s.getReg b :=
  Regs.get_set s.regs a b v

@[simp] theorem State.getReg_setReg_same {a : Slot} (h : a ≠ .flags) (s : State) (v : Word) :
    (s.setReg a v).getReg a = v := by
  simp [State.getReg_setReg, h]

@[simp] theorem State.getReg_setReg_ne {a b : Slot} (h : b ≠ a) (s : State) (v : Word) :
    (s.setReg a v).getReg b = s.getReg b := by
  simp [State.getReg_setReg, h]

@[simp] theorem State.getReg_setReg_flags (s : State) (v : Word) : (s.setReg .flags v).getReg .flags = v &&& flagsMask := rfl

@[simp] theorem State.setReg_mem (s : State) (a : Slot) (v : Word) : (s.setReg a v).mem = s.mem := rfl
@[simp] theorem State.setReg_cursor (s : State) (a : Slot) (v : Word) : (s.setReg a v).cursor = s.cursor := rfl
@[simp] theorem State.setReg_code (s : State) (a : Slot) (v : Word) : (s.setReg a v).code = s.code := rfl
@[simp] theorem State.setReg_params (s : State) (a : Slot) (v : Word) : (s.setReg a v).params = s.params := rfl
@[simp] theorem State.memByte_setReg (s : State) (a : Slot) (v : Word) (x : Int) :
    (s.setReg a v).memByte x = s.memByte x := rfl

/-! ### A byte store -/

@[simp] theorem State.setMemByte_regs (s : State) (x : Int) (v : Byte) : (s.setMemByte x v).regs = s.regs := rfl
@[simp] theorem State.setMemByte_mem (s : State) (x : Int) (v : Byte) :
    (s.setMemByte x v).mem = Memory.set s.mem (phys x) v := rfl
@[simp] theorem State.setMemByte_cursor (s : State) (x : Int) (v : Byte) : (s.setMemByte x v).cursor = s.cursor := rfl
@[simp] theorem State.setMemByte_code (s : State) (x : Int) (v : Byte) : (s.setMemByte x v).code = s.code := rfl
@[simp] theorem State.setMemByte_params (s : State) (x : Int) (v : Byte) : (s.setMemByte x v).params = s.params := rfl
@[simp] theorem State.getReg_setMemByte (s : State) (x : Int) (v : Byte) (a : Slot) :
    (s.setMemByte x v).getReg a = s.getReg a := rfl

/-! ### Updates of the cursor and the code slice -/

@[simp] theorem State.getReg_withCursor (s : State) (c : Int) (a : Slot) :
    State.getReg { s with cursor := c } a = s.getReg a := rfl
@[simp] theorem State.memByte_withCursor (s : State) (c : Int) (x : Int) :
    State.memByte { s with cursor := c } x = s.memByte x := rfl
@[simp] theorem State.getReg_withCode (s : State) (c : CodeSlice) (a : Slot) :
    State.getReg { s with code := c } a = s.getReg a := rfl
@[simp] theorem State.memByte_withCode (s : State) (c : CodeSlice) (x : Int) :
    State.memByte { s with code := c } x = s.memByte x := rfl

/-! ### A state is its registers, its memory, its cursor and its parameters -/

theorem Regs.ext_get {r t : Regs} (h : ∀ a, r.get a = t.get a) : r = t := by
  cases r
  cases t
  have h1 := h .ax; have h2 := h .bx; have h3 := h .cx; have h4 := h .dx
  have h5 := h .sp; have h6 := h .bp; have h7 := h .si; have h8 := h .di
  have h9 := h .cs; have h10 := h .ds; have h11 := h .ss; have h12 := h .es
  have h13 := h .ip; have h14 := h .flags
  simp only [Regs.get] at h1 h2 h3 h4 h5 h6 h7 h8 h9 h10 h11 h12 h13 h14
  subst h1 h2 h3 h4 h5 h6 h7 h8 h9 h10 h11 h12 h13 h14
  rfl

end Sys2Proof.Machine
end

