-- ==== Sys2Proof/Laws/Memory.lean ====
section
/-! SUPPORT. The memory's laws: read after write, and that every operation keeps the canonical form. -/

namespace Sys2Proof.Machine

/-! ### Reading after writing -/

theorem Memory.get_set_ne (m : Memory) {a c : Nat} (v : Byte) (h : c ≠ a) :
    Memory.get (Memory.set m a v) c = Memory.get m c := by
  induction m with
  | nil =>
    simp only [Memory.set]
    split <;> simp [Memory.get, Ne.symm h]
  | cons e m ih =>
    obtain ⟨k, b⟩ := e
    simp only [Memory.set]
    split
    · split
      · rfl
      · simp [Memory.get, Ne.symm h]
    · split
      · rename_i hk
        subst hk
        split <;> simp [Memory.get, Ne.symm h]
      · simp only [Memory.get, ih]

theorem Memory.get_of_wfAbove {m : Memory} {low : Int} (hw : Memory.wfAbove m low = true) {a : Nat} (h : (a : Int) ≤ low) :
    Memory.get m a = 0 := by
  induction m generalizing low with
  | nil => rfl
  | cons e m ih =>
    obtain ⟨k, b⟩ := e
    simp only [Memory.wfAbove, Bool.and_eq_true, decide_eq_true_eq] at hw
    obtain ⟨⟨⟨hlow, -⟩, -⟩, hrest⟩ := hw
    have hne : k ≠ a := by omega
    simp only [Memory.get, if_neg hne]
    exact ih hrest (by omega)

theorem Memory.get_set_same_above {m : Memory} {low : Int} (hw : Memory.wfAbove m low = true) (a : Nat) (v : Byte) :
    Memory.get (Memory.set m a v) a = v := by
  induction m generalizing low with
  | nil =>
    simp only [Memory.set]
    split
    · rename_i hv
      simp [Memory.get, hv]
    · simp [Memory.get]
  | cons e m ih =>
    obtain ⟨k, b⟩ := e
    simp only [Memory.wfAbove, Bool.and_eq_true, decide_eq_true_eq] at hw
    obtain ⟨⟨⟨-, -⟩, -⟩, hrest⟩ := hw
    simp only [Memory.set]
    split
    · rename_i hlt
      split
      · rename_i hv
        have hne : k ≠ a := by omega
        simp [Memory.get, hne, Memory.get_of_wfAbove hrest (a := a) (by omega), hv]
      · simp [Memory.get]
    · split
      · rename_i hk
        subst hk
        split
        · rename_i hv
          simp [Memory.get_of_wfAbove hrest (Int.le_refl _), hv]
        · simp [Memory.get]
      · rename_i hne
        simp only [Memory.get, if_neg (Ne.symm hne), ih hrest]

theorem Memory.get_set_same {m : Memory} (hw : m.wf = true) (a : Nat) (v : Byte) : Memory.get (Memory.set m a v) a = v :=
  Memory.get_set_same_above hw a v

/-! ### The canonical form is kept -/

theorem Memory.wfAbove_mono {m : Memory} {low high : Int} (hw : Memory.wfAbove m high = true) (h : low < high) :
    Memory.wfAbove m low = true := by
  cases m with
  | nil => rfl
  | cons e m =>
    obtain ⟨k, b⟩ := e
    simp only [Memory.wfAbove, Bool.and_eq_true, decide_eq_true_eq] at hw ⊢
    exact ⟨⟨⟨by omega, hw.1.1.2⟩, hw.1.2⟩, hw.2⟩

theorem Memory.wfAbove_set {m : Memory} {low : Int} (hw : Memory.wfAbove m low = true) {a : Nat} (v : Byte)
    (hlow : low < a) (ha : a < Config.memSize) : Memory.wfAbove (Memory.set m a v) low = true := by
  induction m generalizing low with
  | nil =>
    simp only [Memory.set]
    split
    · rfl
    · rename_i hv
      simp only [Memory.wfAbove, Bool.and_eq_true, decide_eq_true_eq, bne_iff_ne]
      exact ⟨⟨⟨hlow, ha⟩, hv⟩, trivial⟩
  | cons e m ih =>
    obtain ⟨k, b⟩ := e
    have hw' := hw
    simp only [Memory.wfAbove, Bool.and_eq_true, decide_eq_true_eq] at hw
    obtain ⟨⟨⟨hk, hks⟩, hb⟩, hrest⟩ := hw
    simp only [Memory.set]
    split
    · rename_i hlt
      split
      · exact hw'
      · rename_i hv
        simp only [Memory.wfAbove, Bool.and_eq_true, decide_eq_true_eq, bne_iff_ne]
        exact ⟨⟨⟨hlow, ha⟩, hv⟩, ⟨⟨by omega, hks⟩, by simpa using hb⟩, hrest⟩
    · split
      · rename_i heq
        subst heq
        split
        · exact Memory.wfAbove_mono hrest hk
        · rename_i hv
          simp only [Memory.wfAbove, Bool.and_eq_true, decide_eq_true_eq, bne_iff_ne]
          exact ⟨⟨⟨hlow, ha⟩, hv⟩, hrest⟩
      · rename_i hlt hne
        simp only [Memory.wfAbove, Bool.and_eq_true, decide_eq_true_eq]
        exact ⟨⟨⟨hk, hks⟩, hb⟩, ih hrest (by omega)⟩

theorem Memory.wf_set {m : Memory} (hw : m.wf = true) {a : Nat} (v : Byte) (ha : a < Config.memSize) :
    (Memory.set m a v).wf = true :=
  Memory.wfAbove_set hw v (by omega) ha

/-! ### Physical addresses -/

theorem phys_lt (x : Int) : phys x < Config.memSize := by
  unfold phys Config.memSize
  omega

theorem phys_natCast {a : Nat} (h : a < Config.memSize) : phys a = a := by
  unfold phys
  unfold Config.memSize at *
  omega

theorem phys_succ_ne (x : Int) : phys (x + 1) ≠ phys x := by
  unfold phys Config.memSize
  omega

/-! ### The stores of the machine -/

theorem State.setMemByte_wf {s : State} (hw : s.mem.wf = true) (x : Int) (v : Byte) : (s.setMemByte x v).mem.wf = true :=
  Memory.wf_set hw v (phys_lt x)

theorem memWrite_wf {s : State} (hw : s.mem.wf = true) (x : Int) (wide : Bool) (v : Word) :
    (memWrite x wide v s).mem.wf = true := by
  cases wide
  · exact State.setMemByte_wf hw x _
  · exact State.setMemByte_wf (State.setMemByte_wf hw x _) (x + 1) _

@[simp] theorem memWrite_regs (x : Int) (wide : Bool) (v : Word) (s : State) : (memWrite x wide v s).regs = s.regs := by
  cases wide <;> rfl

@[simp] theorem memWrite_cursor (x : Int) (wide : Bool) (v : Word) (s : State) :
    (memWrite x wide v s).cursor = s.cursor := by
  cases wide <;> rfl

@[simp] theorem memWrite_code (x : Int) (wide : Bool) (v : Word) (s : State) : (memWrite x wide v s).code = s.code := by
  cases wide <;> rfl

@[simp] theorem memWrite_params (x : Int) (wide : Bool) (v : Word) (s : State) :
    (memWrite x wide v s).params = s.params := by
  cases wide <;> rfl

@[simp] theorem getReg_memWrite (x : Int) (wide : Bool) (v : Word) (s : State) (r : Slot) :
    (memWrite x wide v s).getReg r = s.getReg r := by
  cases wide <;> rfl

/-- A store leaves every byte outside the stored ones (20_memory.md R43). -/
theorem memWrite_get_ne (x : Int) (wide : Bool) (v : Word) (s : State) {a : Nat} (h0 : a ≠ phys x)
    (h1 : wide = true → a ≠ phys (x + 1)) : Memory.get (memWrite x wide v s).mem a = Memory.get s.mem a := by
  cases wide
  · exact Memory.get_set_ne s.mem _ h0
  · simp only [memWrite, if_true, State.setMemByte_mem]
    rw [Memory.get_set_ne _ _ (h1 rfl), Memory.get_set_ne _ _ h0]

/-- The low byte lands at the address (20_memory.md R43). -/
theorem memWrite_get_low {s : State} (hw : s.mem.wf = true) (x : Int) (wide : Bool) (v : Word) :
    Memory.get (memWrite x wide v s).mem (phys x) = lowByte v := by
  cases wide
  · exact Memory.get_set_same hw _ _
  · simp only [memWrite, if_true, State.setMemByte_mem]
    rw [Memory.get_set_ne _ _ (Ne.symm (phys_succ_ne x)), Memory.get_set_same hw]

/-- The high byte of a word lands at the next address (20_memory.md R43). -/
theorem memWrite_get_high {s : State} (hw : s.mem.wf = true) (x : Int) (v : Word) :
    Memory.get (memWrite x true v s).mem (phys (x + 1)) = highByte v := by
  simp only [memWrite, if_true, State.setMemByte_mem]
  exact Memory.get_set_same (Memory.wf_set hw _ (phys_lt x)) _ _

end Sys2Proof.Machine
end

