-- ==== Sys2Proof/Laws/Operands.lean ====
section
/-! SUPPORT. What the shared operand operations can do, said once: provers cite these instead of unfolding the
operations. -/

namespace Sys2Proof.Machine

/-! ### Register access -/

@[simp] theorem regWrite_mem (acc : RegAccess) (v : Word) (s : State) : (regWrite acc v s).mem = s.mem := by
  cases acc <;> rfl
@[simp] theorem regWrite_cursor (acc : RegAccess) (v : Word) (s : State) : (regWrite acc v s).cursor = s.cursor := by
  cases acc <;> rfl
@[simp] theorem regWrite_code (acc : RegAccess) (v : Word) (s : State) : (regWrite acc v s).code = s.code := by
  cases acc <;> rfl
@[simp] theorem regWrite_params (acc : RegAccess) (v : Word) (s : State) : (regWrite acc v s).params = s.params := by
  cases acc <;> rfl

theorem getReg_regWrite_ne {acc : RegAccess} {r : Slot} (h : r ≠ accessSlot acc) (v : Word) (s : State) :
    (regWrite acc v s).getReg r = s.getReg r := by
  cases acc <;> exact State.getReg_setReg_ne h s _

theorem halfSlot_ne_flags (r : HalfReg) : halfSlot r ≠ .flags := by cases r <;> decide
theorem halfSlot_ne_ip (r : HalfReg) : halfSlot r ≠ .ip := by cases r <;> decide

@[simp] theorem getReg_regWrite_low (r : HalfReg) (v : Word) (s : State) :
    (regWrite (.low r) v s).getReg (halfSlot r) = joinBytes (lowByte v) (highByte (s.getReg (halfSlot r))) :=
  State.getReg_setReg_same (halfSlot_ne_flags r) s _

@[simp] theorem getReg_regWrite_high (r : HalfReg) (v : Word) (s : State) :
    (regWrite (.high r) v s).getReg (halfSlot r) = joinBytes (lowByte (s.getReg (halfSlot r))) (lowByte v) :=
  State.getReg_setReg_same (halfSlot_ne_flags r) s _

/-! ### Memory operands: everything goes through the effective address -/

theorem srcValue_memory {op : Operand} {s : State} {addr : Int} (h : effectiveAddress op s = some addr) (wide : Bool) :
    srcValue op wide s = some (memRead addr wide s) := by
  cases op <;> simp_all [srcValue, effectiveAddress]

theorem dstWrite_memory {op : Operand} {s : State} {addr : Int} (h : effectiveAddress op s = some addr) (wide : Bool)
    (v : Word) : dstWrite op wide v s = some (memWrite addr wide v s) := by
  cases op <;> simp_all [dstWrite, effectiveAddress]

theorem alignDst_memory {op : Operand} {s : State} {addr : Int} (h : effectiveAddress op s = some addr) (src : Word)
    (wide : Bool) : alignDst op src wide s = some (alignMemory addr src wide s) := by
  cases op <;> simp_all [alignDst, effectiveAddress]

theorem writeBack_memory {op : Operand} {s : State} {addr : Int} (h : effectiveAddress op s = some addr) (wide : Bool)
    (r : Int) : writeBack op wide r s = memWrite addr wide (uint16 r) s := by
  cases op <;> simp_all [writeBack, dstWrite, effectiveAddress]

@[simp] theorem srcValue_register (acc : RegAccess) (wide : Bool) (s : State) :
    srcValue (.register acc) wide s = some (regRead acc s) := rfl
@[simp] theorem dstWrite_register (acc : RegAccess) (wide : Bool) (v : Word) (s : State) :
    dstWrite (.register acc) wide v s = some (regWrite acc v s) := rfl
@[simp] theorem effectiveAddress_register (acc : RegAccess) (s : State) : effectiveAddress (.register acc) s = none := rfl
@[simp] theorem effectiveAddress_immediate (v : BitVec 32) (rel : Bool) (s : State) :
    effectiveAddress (.immediate v rel) s = none := rfl
@[simp] theorem effectiveAddress_absent (s : State) : effectiveAddress .absent s = none := rfl

/-- A term reads registers only. -/
theorem regRead_congr {s t : State} {acc : RegAccess} (h : s.getReg (accessSlot acc) = t.getReg (accessSlot acc)) :
    regRead acc s = regRead acc t := by
  cases acc <;> simp_all [regRead, accessSlot]

/-! ### The operands the decoder builds -/

/-- An operand the decoder builds as a destination or a source is a register or in memory (40_decoder.md R136 to R141). -/
theorem RegMem.operand_register_or_memory (rm : RegMem) (w : Bool) (s : State) :
    (∃ r, rm.operand w = .register (regAccess r w)) ∨ ∃ addr, effectiveAddress (rm.operand w) s = some addr := by
  cases rm with
  | reg r => exact .inl ⟨r, rfl⟩
  | direct a => exact .inr ⟨_, rfl⟩
  | mem b => cases b <;> exact .inr ⟨_, rfl⟩
  | mem8 b d => cases b <;> exact .inr ⟨_, rfl⟩
  | mem16 b d => cases b <;> exact .inr ⟨_, rfl⟩

/-- An effective address reads the base and index registers only (30_encoding.md R85; 20_memory.md R46). -/
theorem RegMem.effectiveAddress_congr {s t : State} (h : ∀ r ∈ [Slot.bx, .bp, .si, .di], s.getReg r = t.getReg r)
    (rm : RegMem) (w : Bool) : effectiveAddress (rm.operand w) s = effectiveAddress (rm.operand w) t := by
  have hbx := h .bx (by simp)
  have hbp := h .bp (by simp)
  have hsi := h .si (by simp)
  have hdi := h .di (by simp)
  cases rm with
  | reg r => rfl
  | direct a => rfl
  | mem b =>
    cases b <;> simp [RegMem.operand, effectiveOperand, EaBase.term1, EaBase.term2, effectiveAddress, termValue, eaTerm,
      regRead, hbx, hbp, hsi, hdi]
  | mem8 b d =>
    cases b <;> simp [RegMem.operand, effectiveOperand, EaBase.term1, EaBase.term2, effectiveAddress, termValue, eaTerm,
      regRead, hbx, hbp, hsi, hdi]
  | mem16 b d =>
    cases b <;> simp [RegMem.operand, effectiveOperand, EaBase.term1, EaBase.term2, effectiveAddress, termValue, eaTerm,
      regRead, hbx, hbp, hsi, hdi]

theorem AccAddr.effectiveAddress_congr (s t : State) (a : AccAddr) :
    effectiveAddress a.operand s = effectiveAddress a.operand t := by
  cases a <;> rfl

theorem AccAddr.operand_memory (a : AccAddr) (s : State) : ∃ addr, effectiveAddress a.operand s = some addr := by
  cases a <;> exact ⟨_, rfl⟩

/-- A general register field names no FLAGS, IP or segment register (30_encoding.md R83). -/
theorem accessSlot_regAccess (r : RegField) (w : Bool) :
    accessSlot (regAccess r w) ∈ [Slot.ax, .bx, .cx, .dx, .sp, .bp, .si, .di] := by
  cases r <;> cases w <;> decide

/-! ### The end of an instruction -/

theorem finish_eq (old : State) (size : Nat) (disp : Int) (s : State) :
    finish old size disp s = .next (s.setReg .ip (uint16 ((old.getReg .ip).toNat + size + disp))) := rfl

theorem getReg_finish_ne {s : State} {r : Slot} (h : r ≠ .ip) (v : Word) : (s.setReg .ip v).getReg r = s.getReg r :=
  State.getReg_setReg_ne h s v

end Sys2Proof.Machine
end

