-- ==== Sys2Proof/Laws/Machine.lean ====
section
/-! SUPPORT. What the shared operations of MOV, ADD, SUB, CMP and the jumps answer, and what every instruction leaves alone:
said once here, so that no later proof unfolds an instruction. -/

namespace Sys2Proof.Machine

/-- The four operations with a destination and a source (10_state.md R23). -/
def twoOperandOps : List Op := [.mov, .add, .sub, .cmp]

/-! ### The operands of a decoded instruction (40_decoder.md R136 to R142) -/

theorem accessSlot_general {r : RegField} {w : Bool} :
    accessSlot (regAccess r w) ≠ .flags ∧ accessSlot (regAccess r w) ≠ .ip := by
  cases r <;> cases w <;> decide

/-- The destination of a two-operand instruction is a register other than FLAGS and IP, or in memory. -/
theorem Instr.operand0_cases {i : Instr} (h : i.op ∈ twoOperandOps) (s : State) :
    (∃ acc, i.operand0 = .register acc ∧ accessSlot acc ≠ .flags ∧ accessSlot acc ≠ .ip) ∨
      ∃ addr, effectiveAddress i.operand0 s = some addr := by
  have hr : ∀ r w, ∃ acc, Operand.register (regAccess r w) = .register acc ∧ accessSlot acc ≠ .flags ∧ accessSlot acc ≠ .ip :=
    fun r w => ⟨_, rfl, accessSlot_general⟩
  have hrm : ∀ (rm : RegMem) w, (∃ acc, rm.operand w = .register acc ∧ accessSlot acc ≠ .flags ∧ accessSlot acc ≠ .ip) ∨
      ∃ addr, effectiveAddress (rm.operand w) s = some addr := by
    intro rm w
    rcases RegMem.operand_register_or_memory rm w s with ⟨r, h⟩ | h
    · exact .inl (h ▸ hr r w)
    · exact .inr h
  have hrms : ∀ (d w : Bool) (reg : RegField) (rm : RegMem),
      (∃ acc, rmDst d w reg rm = .register acc ∧ accessSlot acc ≠ .flags ∧ accessSlot acc ≠ .ip) ∨
        ∃ addr, effectiveAddress (rmDst d w reg rm) s = some addr := by
    intro d w reg rm
    cases d
    · exact hrm rm w
    · exact .inl (hr reg w)
  cases i
  case movNormal => exact hrms ..
  case addNormal => exact hrms ..
  case subNormal => exact hrms ..
  case cmpNormal => exact hrms ..
  case movImmediateToRegisterOrMemory => exact hrm ..
  case addImmediateToRegisterOrMemory => exact hrm ..
  case subImmediateFromRegisterOrMemory => exact hrm ..
  case cmpImmediateWithRegisterOrMemory => exact hrm ..
  case movSegmentRegisterToRegisterOrMemory => exact hrm ..
  case movImmediateToRegister => exact .inl (hr ..)
  case addImmediateToAccumulator => exact .inl (hr ..)
  case subImmediateFromAccumulator => exact .inl (hr ..)
  case cmpImmediateWithAccumulator => exact .inl (hr ..)
  case movMemoryToAccumulator => exact .inl (hr ..)
  case movAccumulatorToMemory w a => exact .inr (AccAddr.operand_memory a s)
  case movRegisterOrMemoryToSegmentRegister sr rm => exact .inl ⟨_, rfl, by cases sr <;> decide⟩
  all_goals exact absurd h (by simp [twoOperandOps, Instr.op])

/-- A two-operand instruction has a source value (20_memory.md R48). -/
theorem Instr.srcValue_some {i : Instr} (h : i.op ∈ twoOperandOps) (s : State) :
    ∃ v, srcValue i.operand1 i.wide s = some v := by
  have hrm : ∀ (rm : RegMem) w w', ∃ v, srcValue (rm.operand w) w' s = some v := by
    intro rm w w'
    rcases RegMem.operand_register_or_memory rm w s with ⟨r, h⟩ | ⟨addr, h⟩
    · exact ⟨_, h ▸ srcValue_register _ _ _⟩
    · exact ⟨_, srcValue_memory h w'⟩
  have hrms : ∀ (d w : Bool) (reg : RegField) (rm : RegMem), ∃ v, srcValue (rmSrc d w reg rm) w s = some v := by
    intro d w reg rm
    cases d
    · exact ⟨_, rfl⟩
    · exact hrm rm w w
  cases i
  case movNormal => exact hrms ..
  case addNormal => exact hrms ..
  case subNormal => exact hrms ..
  case cmpNormal => exact hrms ..
  case movRegisterOrMemoryToSegmentRegister => exact hrm ..
  case movMemoryToAccumulator w a => exact (AccAddr.operand_memory a s).elim fun addr h => ⟨_, srcValue_memory h w⟩
  all_goals first
    | exact ⟨_, rfl⟩
    | exact absurd h (by simp [twoOperandOps, Instr.op])

/-- The destination's address reads the base and index registers only. -/
theorem Instr.effectiveAddress_congr {s t : State} (h : ∀ r ∈ [Slot.bx, .bp, .si, .di], s.getReg r = t.getReg r) (i : Instr) :
    effectiveAddress i.operand0 s = effectiveAddress i.operand0 t := by
  have hrms : ∀ (d w : Bool) (reg : RegField) (rm : RegMem),
      effectiveAddress (rmDst d w reg rm) s = effectiveAddress (rmDst d w reg rm) t := by
    intro d w reg rm
    cases d
    · exact RegMem.effectiveAddress_congr h rm w
    · rfl
  cases i
  case movNormal => exact hrms ..
  case addNormal => exact hrms ..
  case subNormal => exact hrms ..
  case cmpNormal => exact hrms ..
  case movImmediateToRegisterOrMemory rm imm => exact RegMem.effectiveAddress_congr h rm _
  case addImmediateToRegisterOrMemory rm imm => exact RegMem.effectiveAddress_congr h rm _
  case subImmediateFromRegisterOrMemory rm imm => exact RegMem.effectiveAddress_congr h rm _
  case cmpImmediateWithRegisterOrMemory rm imm => exact RegMem.effectiveAddress_congr h rm _
  case movSegmentRegisterToRegisterOrMemory sr rm => exact RegMem.effectiveAddress_congr h rm _
  case movAccumulatorToMemory w a => exact AccAddr.effectiveAddress_congr s t a
  all_goals rfl

/-! ### MOV (41_mov.md R160) -/

theorem exec_mov {i : Instr} (h : i.op = .mov) (s : State) :
    exec i s = movOp i.wide i.size i.operand0 i.operand1 s := by
  cases i <;> first | rfl | exact absurd h (by simp [Instr.op])

theorem movOp_register {src : Operand} {wide : Bool} {s : State} {v : Word} (hv : srcValue src wide s = some v) (size : Nat)
    (acc : RegAccess) : movOp wide size (.register acc) src s = finish s size 0 (regWrite acc v s) := by
  simp [movOp, hv]

theorem movOp_memory {src dst : Operand} {wide : Bool} {s : State} {v : Word} {addr : Int}
    (hv : srcValue src wide s = some v) (ha : effectiveAddress dst s = some addr) (size : Nat) :
    movOp wide size dst src s = finish s size 0 (memWrite addr wide v s) := by
  simp [movOp, hv, dstWrite_memory ha]

/-! ### ADD, SUB, CMP (42_arith.md R180) -/

/-- The operation an arithmetic instruction performs. -/
def arithOpOf : Op → Option ArithOp
  | .add => some .add
  | .sub => some .sub
  | .cmp => some .cmp
  | _ => none

theorem exec_arith {i : Instr} {op : ArithOp} (h : arithOpOf i.op = some op) (s : State) :
    exec i s = arithOp op i.wide i.size i.operand0 i.operand1 s := by
  cases i <;> first | (cases h; rfl) | exact absurd h (by simp [Instr.op, arithOpOf])

theorem arithOp_eq {op : ArithOp} {dst src : Operand} {wide : Bool} {s : State} {v : Word} {x : Aligned}
    (hv : srcValue src wide s = some v) (hx : alignDst dst v wide s = some x) (size : Nat) :
    arithOp op wide size dst src s =
      finish s size 0 (op.store dst wide (op.fn.apply x.a x.b)
        (s.setReg .flags (flagUnit op.fn x.a x.b x.width (s.getReg .flags)))) := by
  simp [arithOp, hv, hx]

/-! ### Jumps (43_jumps.md R200, R219) -/

theorem branchOp_relOperand (size : Nat) (disp : Byte) (taken : Bool) (s : State) :
    branchOp size (relOperand disp) taken s = finish s size (if taken then (disp.signExtend 32).toInt else 0) s := rfl

theorem loopOp_relOperand (size : Nat) (disp : Byte) (cond : Bool → Bool) (s : State) :
    loopOp size (relOperand disp) cond s =
      finish s size
        (if decrementedCx s != 0 && cond (flagZF (s.getReg .flags)) then (disp.signExtend 32).toInt else 0)
        (s.setReg .cx (decrementedCx s)) := rfl

theorem signExtend32_toInt (disp : Byte) : (disp.signExtend 32).toInt = disp.toInt := by
  have h1 := disp.toInt_lt
  have h2 := disp.le_toInt
  rw [BitVec.toInt_signExtend]
  simp at *
  rw [Int.bmod_eq_of_le] <;> omega

/-! ### What a write to a destination can touch -/

/-- A destination write keeps the canonical form, the cursor, the code slice and the parameters (20_memory.md R49). -/
theorem dstWrite_keeps {op : Operand} {wide : Bool} {v : Word} {s t : State} (h : dstWrite op wide v s = some t) :
    (s.mem.wf = true → t.mem.wf = true) ∧ t.cursor = s.cursor ∧ t.code = s.code ∧ t.params = s.params ∧
      ∀ r, (∀ acc, op = .register acc → r ≠ accessSlot acc) → t.getReg r = s.getReg r := by
  have hmem : ∀ a, (s.mem.wf = true → (memWrite a wide v s).mem.wf = true) ∧ (memWrite a wide v s).cursor = s.cursor ∧
      (memWrite a wide v s).code = s.code ∧ (memWrite a wide v s).params = s.params ∧
      ∀ r, (∀ acc, op = .register acc → r ≠ accessSlot acc) → (memWrite a wide v s).getReg r = s.getReg r :=
    fun a => ⟨fun hw => memWrite_wf hw a wide v, by simp, by simp, by simp, fun r _ => by simp⟩
  cases op with
  | absent => cases h
  | immediate v r => cases h
  | register acc =>
    cases h
    exact ⟨by simp, by simp, by simp, by simp, fun r hr => getReg_regWrite_ne (hr acc rfl) v s⟩
  | direct a =>
    cases h
    exact hmem _
  | effective t1 t2 d o =>
    cases t2 <;> (cases h; exact hmem _)

/-- The write-back of ADD and SUB likewise (42_arith.md R183). -/
theorem writeBack_keeps (op : Operand) (wide : Bool) (r : Int) (s : State) :
    (s.mem.wf = true → (writeBack op wide r s).mem.wf = true) ∧ (writeBack op wide r s).cursor = s.cursor ∧
      (writeBack op wide r s).code = s.code ∧ (writeBack op wide r s).params = s.params ∧
      ∀ q, (∀ acc, op = .register acc → q ≠ accessSlot acc) → (writeBack op wide r s).getReg q = s.getReg q := by
  unfold writeBack
  split
  · exact ⟨by simp, by simp, by simp, by simp, fun q hq => getReg_regWrite_ne (hq _ rfl) _ s⟩
  · cases h : dstWrite op wide (uint16 r) s with
    | none => exact ⟨id, rfl, rfl, rfl, fun _ _ => rfl⟩
    | some t => exact dstWrite_keeps h

theorem store_keeps (f : ArithOp) (op : Operand) (wide : Bool) (r : Int) (s : State) :
    (s.mem.wf = true → (f.store op wide r s).mem.wf = true) ∧ (f.store op wide r s).cursor = s.cursor ∧
      (f.store op wide r s).code = s.code ∧ (f.store op wide r s).params = s.params ∧
      ∀ q, (∀ acc, op = .register acc → q ≠ accessSlot acc) → (f.store op wide r s).getReg q = s.getReg q := by
  cases f with
  | add => exact writeBack_keeps op wide r s
  | sub => exact writeBack_keeps op wide r s
  | cmp => exact ⟨id, rfl, rfl, rfl, fun _ _ => rfl⟩

/-- Everything a MOV that answers a next state did (41_mov.md R160). -/
theorem movOp_next {wide : Bool} {size : Nat} {dst src : Operand} {s t : State} (h : movOp wide size dst src s = .next t) :
    ∃ v u, srcValue src wide s = some v ∧ dstWrite dst wide v s = some u ∧
      t = u.setReg .ip (uint16 ((s.getReg .ip).toNat + size + 0)) := by
  unfold movOp at h
  split at h
  · cases h
  · split at h
    · cases h
    · cases h
      exact ⟨_, _, ‹_›, ‹_›, rfl⟩

/-- Everything an ADD, SUB or CMP that answers a next state did (42_arith.md R180). -/
theorem arithOp_next {op : ArithOp} {wide : Bool} {size : Nat} {dst src : Operand} {s t : State}
    (h : arithOp op wide size dst src s = .next t) :
    ∃ v x, srcValue src wide s = some v ∧ alignDst dst v wide s = some x ∧
      t = (op.store dst wide (op.fn.apply x.a x.b)
        (s.setReg .flags (flagUnit op.fn x.a x.b x.width (s.getReg .flags)))).setReg .ip
          (uint16 ((s.getReg .ip).toNat + size + 0)) := by
  unfold arithOp at h
  split at h
  · cases h
  · split at h
    · cases h
    · cases h
      exact ⟨_, _, ‹_›, ‹_›, rfl⟩

/-- A two-operand operation is MOV or one of the three arithmetic ones. -/
theorem twoOperandOps_cases {op : Op} (h : op ∈ twoOperandOps) : op = .mov ∨ ∃ f, arithOpOf op = some f := by
  revert h
  cases op <;> simp [twoOperandOps, arithOpOf]

end Sys2Proof.Machine
end

