-- ==== Sys2Proof/Laws/PerInstr.lean ====
section
/-! SUPPORT. Facts of every instruction as syntax, one lemma per constructor. -/

namespace Sys2Proof.Laws.Sized

open Sys2Proof

/-- The encoding of an instruction has its size in bytes, and the size is 1 to 6 (30_encoding.md R70, R100). -/
def Statement (i : Instr) : Prop := (encode i).length = i.size ∧ 1 ≤ i.size ∧ i.size ≤ 6

theorem of_two {i : Instr} (he : (encode i).length = 2) (hs : i.size = 2) : Statement i :=
  ⟨he.trans hs.symm, by omega, by omega⟩

theorem movNormal (d w : Bool) (reg : RegField) (rm : RegMem) : Statement (.movNormal d w reg rm) := by
  have h1 := rm.dispLen_le
  simp only [Statement, encode, Instr.size, encodeRegMem_length, List.length_cons]
  omega

theorem movImmediateToRegisterOrMemory (rm : RegMem) (imm : Imm) : Statement (.movImmediateToRegisterOrMemory rm imm) := by
  have h1 := rm.dispLen_le
  have h2 := imm.len_bounds
  simp only [Statement, encode, Instr.size, encodeRegMem_length, encodeImm_length, List.length_cons, List.length_append]
  omega

theorem movImmediateToRegister (reg : RegField) (imm : Imm) : Statement (.movImmediateToRegister reg imm) := by
  have h2 := imm.len_bounds
  simp only [Statement, encode, Instr.size, encodeImm_length, List.length_cons]
  omega

theorem movMemoryToAccumulator (w : Bool) (addr : AccAddr) : Statement (.movMemoryToAccumulator w addr) := by
  have h3 := addr.len_bounds
  simp only [Statement, encode, Instr.size, encodeAccAddr_length, List.length_cons]
  omega

theorem movAccumulatorToMemory (w : Bool) (addr : AccAddr) : Statement (.movAccumulatorToMemory w addr) := by
  have h3 := addr.len_bounds
  simp only [Statement, encode, Instr.size, encodeAccAddr_length, List.length_cons]
  omega

theorem movRegisterOrMemoryToSegmentRegister (sr : SegField) (rm : RegMem) : Statement (.movRegisterOrMemoryToSegmentRegister sr rm) := by
  have h1 := rm.dispLen_le
  simp only [Statement, encode, Instr.size, encodeRegMem_length, List.length_cons]
  omega

theorem movSegmentRegisterToRegisterOrMemory (sr : SegField) (rm : RegMem) : Statement (.movSegmentRegisterToRegisterOrMemory sr rm) := by
  have h1 := rm.dispLen_le
  simp only [Statement, encode, Instr.size, encodeRegMem_length, List.length_cons]
  omega

theorem addNormal (d w : Bool) (reg : RegField) (rm : RegMem) : Statement (.addNormal d w reg rm) := by
  have h1 := rm.dispLen_le
  simp only [Statement, encode, Instr.size, encodeRegMem_length, List.length_cons]
  omega

theorem addImmediateToRegisterOrMemory (rm : RegMem) (imm : ArithImm) : Statement (.addImmediateToRegisterOrMemory rm imm) := by
  have h1 := rm.dispLen_le
  have h2 := imm.len_bounds
  simp only [Statement, encode, Instr.size, encodeRegMem_length, encodeArithImm_length, List.length_cons, List.length_append]
  omega

theorem addImmediateToAccumulator (imm : Imm) : Statement (.addImmediateToAccumulator imm) := by
  have h2 := imm.len_bounds
  simp only [Statement, encode, Instr.size, encodeImm_length, List.length_cons]
  omega

theorem subNormal (d w : Bool) (reg : RegField) (rm : RegMem) : Statement (.subNormal d w reg rm) := by
  have h1 := rm.dispLen_le
  simp only [Statement, encode, Instr.size, encodeRegMem_length, List.length_cons]
  omega

theorem subImmediateFromRegisterOrMemory (rm : RegMem) (imm : ArithImm) : Statement (.subImmediateFromRegisterOrMemory rm imm) := by
  have h1 := rm.dispLen_le
  have h2 := imm.len_bounds
  simp only [Statement, encode, Instr.size, encodeRegMem_length, encodeArithImm_length, List.length_cons, List.length_append]
  omega

theorem subImmediateFromAccumulator (imm : Imm) : Statement (.subImmediateFromAccumulator imm) := by
  have h2 := imm.len_bounds
  simp only [Statement, encode, Instr.size, encodeImm_length, List.length_cons]
  omega

theorem cmpNormal (d w : Bool) (reg : RegField) (rm : RegMem) : Statement (.cmpNormal d w reg rm) := by
  have h1 := rm.dispLen_le
  simp only [Statement, encode, Instr.size, encodeRegMem_length, List.length_cons]
  omega

theorem cmpImmediateWithRegisterOrMemory (rm : RegMem) (imm : ArithImm) : Statement (.cmpImmediateWithRegisterOrMemory rm imm) := by
  have h1 := rm.dispLen_le
  have h2 := imm.len_bounds
  simp only [Statement, encode, Instr.size, encodeRegMem_length, encodeArithImm_length, List.length_cons, List.length_append]
  omega

theorem cmpImmediateWithAccumulator (imm : Imm) : Statement (.cmpImmediateWithAccumulator imm) := by
  have h2 := imm.len_bounds
  simp only [Statement, encode, Instr.size, encodeImm_length, List.length_cons]
  omega

theorem jo (disp : Byte) : Statement (.jo disp) := of_two rfl rfl

theorem jno (disp : Byte) : Statement (.jno disp) := of_two rfl rfl

theorem jb (disp : Byte) : Statement (.jb disp) := of_two rfl rfl

theorem jnb (disp : Byte) : Statement (.jnb disp) := of_two rfl rfl

theorem je (disp : Byte) : Statement (.je disp) := of_two rfl rfl

theorem jne (disp : Byte) : Statement (.jne disp) := of_two rfl rfl

theorem jbe (disp : Byte) : Statement (.jbe disp) := of_two rfl rfl

theorem ja (disp : Byte) : Statement (.ja disp) := of_two rfl rfl

theorem js (disp : Byte) : Statement (.js disp) := of_two rfl rfl

theorem jns (disp : Byte) : Statement (.jns disp) := of_two rfl rfl

theorem jp (disp : Byte) : Statement (.jp disp) := of_two rfl rfl

theorem jnp (disp : Byte) : Statement (.jnp disp) := of_two rfl rfl

theorem jl (disp : Byte) : Statement (.jl disp) := of_two rfl rfl

theorem jnl (disp : Byte) : Statement (.jnl disp) := of_two rfl rfl

theorem jle (disp : Byte) : Statement (.jle disp) := of_two rfl rfl

theorem jg (disp : Byte) : Statement (.jg disp) := of_two rfl rfl

theorem loopnz (disp : Byte) : Statement (.loopnz disp) := of_two rfl rfl

theorem loopz (disp : Byte) : Statement (.loopz disp) := of_two rfl rfl

theorem loop (disp : Byte) : Statement (.loop disp) := of_two rfl rfl

theorem jcxz (disp : Byte) : Statement (.jcxz disp) := of_two rfl rfl

theorem jmpDirectShort (disp : Byte) : Statement (.jmpDirectShort disp) := of_two rfl rfl

theorem nop : Statement (.nop) := ⟨rfl, by decide, by decide⟩

end Sys2Proof.Laws.Sized
end

