-- ==== Sys2Proof/Laws/Reader.lean ====
section
/-! SUPPORT. Laws of the readers as readers: what they do on a prefix, on more bytes, and which error they raise. Each law is
closed under readThen, so that it is proved of a field reader by composing it from readByte. -/

namespace Sys2Proof

/-- The reader consumes a prefix; on fewer bytes it raises *EndOfStream*, and what follows the prefix does not matter
(40_decoder.md R121). -/
structure Reader.Exact {α : Type} (r : List Byte → Reading α) : Prop where
  short : ∀ bs a rest, r bs = .ok (a, rest) →
    ∃ pre, bs = pre ++ rest ∧ ∀ k, k < pre.length → r (pre.take k) = .error .endOfStream
  after : ∀ pre rest rest' a, r (pre ++ rest) = .ok (a, rest) → r (pre ++ rest') = .ok (a, rest')

/-- On `n` bytes or more, the reader looks at no more than the first `n`. -/
def Reader.Within {α : Type} (n : Nat) (r : List Byte → Reading α) : Prop := ∀ p s, n ≤ p.length →
  r (p ++ s) = (r p).map (fun x => (x.1, x.2 ++ s)) ∧ ∀ a rest, r p = .ok (a, rest) → p.length ≤ rest.length + n

/-- The reader never raises *UnrecognizedOpcode*. -/
def Reader.NeverUnrecognized {α : Type} (r : List Byte → Reading α) : Prop := ∀ bs, r bs ≠ .error .unrecognizedOpcode

namespace Reader

/-! ### Exact -/

theorem exact_readByte : Exact readByte := by
  constructor
  · intro bs a rest h
    rw [readByte_eq_ok] at h
    subst h
    refine ⟨[a], rfl, fun k hk => ?_⟩
    have : k = 0 := by simpa using hk
    subst this
    rfl
  · intro pre rest rest' a h
    rw [readByte_eq_ok] at h ⊢
    have h' : pre ++ rest = [a] ++ rest := h
    rw [List.append_cancel_right h']
    rfl

theorem exact_ok {α : Type} (a : α) : Exact (fun bs => .ok (a, bs)) := by
  constructor
  · intro bs a rest h
    cases h
    exact ⟨[], rfl, fun k hk => by simp at hk⟩
  · intro pre rest rest' a h
    cases pre with
    | nil => simpa using h
    | cons x xs =>
      simp at h
      have := congrArg List.length h.2
      simp at this
      omega

theorem exact_error {α : Type} (e : DecodeError) : Exact (fun _ => (.error e : Reading α)) := by
  constructor
  · intro bs a rest h
    cases h
  · intro _ _ _ _ h
    cases h

theorem exact_then {α β : Type} {r : List Byte → Reading α} {f : α → List Byte → Reading β} (hr : Exact r)
    (hf : ∀ a, Exact (f a)) : Exact (fun bs => readThen (r bs) f) := by
  constructor
  · intro bs b rest h
    simp only [readThen_eq_ok] at h
    obtain ⟨a, bs', h1, h2⟩ := h
    obtain ⟨p1, rfl, e1⟩ := hr.short _ _ _ h1
    obtain ⟨p2, rfl, e2⟩ := (hf _).short _ _ _ h2
    refine ⟨p1 ++ p2, by simp, fun k hk => ?_⟩
    by_cases hlt : k < p1.length
    · rw [List.take_append_of_le_length (by omega)]
      simp only [e1 k hlt, readThen_error]
    · obtain ⟨j, rfl⟩ := Nat.exists_eq_add_of_le (Nat.le_of_not_lt hlt)
      rw [List.take_length_add_append]
      simp only [hr.after _ _ (p2.take j) _ h1, readThen_ok]
      exact e2 j (by simp at hk; omega)
  · intro pre rest rest' b h
    simp only [readThen_eq_ok] at h
    obtain ⟨a, bs', h1, h2⟩ := h
    obtain ⟨p1, e, -⟩ := hr.short _ _ _ h1
    obtain ⟨p2, rfl, -⟩ := (hf _).short _ _ _ h2
    rw [← List.append_assoc] at e
    rw [List.append_cancel_right e, List.append_assoc] at h1
    rw [List.append_cancel_right e]
    simp only [List.append_assoc, hr.after _ _ (p2 ++ rest') _ h1, readThen_ok, (hf a).after _ _ rest' _ h2]

theorem exact_readWord : Exact readWord := exact_then exact_readByte fun _ => exact_then exact_readByte fun _ => exact_ok _

theorem exact_readRegMem (b1 : Byte) : Exact (readRegMem b1) := by
  unfold readRegMem
  split
  · exact exact_ok _
  · exact exact_then exact_readWord fun _ => exact_ok _
  · exact exact_then exact_readByte fun _ => exact_ok _
  · split
    · exact exact_then exact_readWord fun _ => exact_ok _
    · exact exact_ok _

theorem exact_readImm (w : Bool) : Exact (readImm w) := by
  cases w
  · exact exact_then exact_readByte fun _ => exact_ok _
  · exact exact_then exact_readWord fun _ => exact_ok _

theorem exact_readArithImm (s w : Bool) : Exact (readArithImm s w) := by
  cases w
  · cases s <;> exact exact_then exact_readByte fun _ => exact_ok _
  · cases s
    · exact exact_then exact_readWord fun _ => exact_ok _
    · exact exact_then exact_readByte fun _ => exact_ok _

theorem exact_readAccAddr (narrow w : Bool) : Exact (readAccAddr narrow w) := by
  cases w
  · cases narrow
    · exact exact_then exact_readWord fun _ => exact_ok _
    · exact exact_then exact_readByte fun _ => exact_ok _
  · cases narrow <;> exact exact_then exact_readWord fun _ => exact_ok _

/-! ### Within -/

theorem within_mono {α : Type} {r : List Byte → Reading α} {n m : Nat} (h : Within n r) (hm : n ≤ m) : Within m r := by
  intro p s hp
  obtain ⟨h1, h2⟩ := h p s (by omega)
  exact ⟨h1, fun a r h => by have := h2 _ _ h; omega⟩

theorem within_readByte : Within 1 readByte := by
  intro p s h
  cases p with
  | nil => simp at h
  | cons b p => exact ⟨rfl, by intro a r h; cases h; simp⟩

theorem within_ok {α : Type} (a : α) (n : Nat) : Within n (fun bs => .ok (a, bs)) := by
  intro p s h
  exact ⟨rfl, by intro a r h; cases h; omega⟩

theorem within_error {α : Type} (e : DecodeError) (n : Nat) : Within n (fun _ => (.error e : Reading α)) := by
  intro p s h
  exact ⟨rfl, by intro a r h; cases h⟩

theorem within_then {α β : Type} {r : List Byte → Reading α} {f : α → List Byte → Reading β} {n m : Nat} (hr : Within n r)
    (hf : ∀ a, Within m (f a)) : Within (n + m) (fun bs => readThen (r bs) f) := by
  intro p s hp
  obtain ⟨h1, h2⟩ := hr p s (by omega)
  simp only [h1]
  rcases hq : r p with e | ⟨a, rest⟩
  · exact ⟨rfl, by intro _ _ h; cases h⟩
  · have h3 := h2 _ _ hq
    obtain ⟨h4, h5⟩ := hf a rest s (by omega)
    refine ⟨h4, fun b rest' h => ?_⟩
    have := h5 _ _ h
    omega

/-! ### NeverUnrecognized -/

theorem neverUnrecognized_readByte : NeverUnrecognized readByte := by
  intro bs
  cases bs <;> simp

theorem neverUnrecognized_ok {α : Type} (a : α) : NeverUnrecognized (fun bs => .ok (a, bs)) := by
  intro bs
  simp

theorem neverUnrecognized_then {α β : Type} {r : List Byte → Reading α} {f : α → List Byte → Reading β}
    (hr : NeverUnrecognized r) (hf : ∀ a, NeverUnrecognized (f a)) : NeverUnrecognized (fun bs => readThen (r bs) f) := by
  intro bs h
  simp only [readThen_eq_error] at h
  rcases h with h | ⟨a, b, _, h⟩
  · exact hr _ h
  · exact hf _ _ h

theorem neverUnrecognized_readWord : NeverUnrecognized readWord :=
  neverUnrecognized_then neverUnrecognized_readByte fun _ =>
    neverUnrecognized_then neverUnrecognized_readByte fun _ => neverUnrecognized_ok _

theorem neverUnrecognized_readRegMem (b1 : Byte) : NeverUnrecognized (readRegMem b1) := by
  unfold readRegMem
  split
  · exact neverUnrecognized_ok _
  · exact neverUnrecognized_then neverUnrecognized_readWord fun _ => neverUnrecognized_ok _
  · exact neverUnrecognized_then neverUnrecognized_readByte fun _ => neverUnrecognized_ok _
  · split
    · exact neverUnrecognized_then neverUnrecognized_readWord fun _ => neverUnrecognized_ok _
    · exact neverUnrecognized_ok _

end Reader

end Sys2Proof
end

