-- ==== Sys2Proof/Laws/Step.lean ====
section
/-! SUPPORT. The step read backwards, the fetch, and placing bytes: what a step that answers a next state did, and that
placing a program keeps the memory's canonical form. -/

namespace Sys2Proof.Machine

/-! ### The step -/

theorem runEnded_iff (s : State) : s.runEnded = true ↔ s.cursor = s.code.length := by simp [State.runEnded]

/-- Away from `N`, a decoded instruction is run (70_reset_and_hazards.md R289, R290). -/
theorem step_of_decodeNext {s : State} {i : Instr} {rest : List Byte} (hn : s.cursor ≠ s.code.length)
    (h : s.decodeNext = .ok (i, rest)) : step s = s.runInstr i := by
  have : s.runEnded = false := by simpa [State.runEnded] using hn
  simp [step, State.runStep, this, State.attemptStep, h]

/-- Everything a step that answers a next state did (70_reset_and_hazards.md R289). -/
theorem step_next {s t : State} (h : step s = .next t) :
    ∃ i rest u, s.decodeNext = .ok (i, rest) ∧ s.cursor ≠ s.code.length ∧ exec i (s.afterDecode i) = .next u ∧
      t = { u with cursor := u.cursor + cursorDelta (s.getReg .ip) (u.getReg .ip) i.size } := by
  simp only [step, State.runStep] at h
  split at h
  · cases h
  · rename_i hn
    simp only [State.attemptStep] at h
    split at h
    · rename_i i rest hd
      simp only [State.runInstr] at h
      cases he : exec i (s.afterDecode i) with
      | next u =>
        simp only [he, reposition] at h
        cases h
        exact ⟨i, rest, u, hd, by simpa [State.runEnded] using hn, he, rfl⟩
      | fault f => simp [he, reposition] at h
      | refused r => simp [he, reposition] at h
    · cases h

/-- The cursor moves by the branch displacement (70_reset_and_hazards.md R296). -/
theorem cursorDelta_eq (ip : Word) (size : Nat) (d : Int) (hd : -32768 ≤ d ∧ d < 32768) :
    cursorDelta ip (uint16 (ip.toNat + size + d)) size = d := by
  unfold cursorDelta sint16 uint16
  rw [BitVec.toInt_ofInt, BitVec.toNat_ofInt]
  have hk : ∃ k : Int, (((((ip.toNat : Int) + size + d) % ↑(2 ^ 16 : Nat)).toNat : Int)) = ip.toNat + size + d + 65536 * k := by
    refine ⟨-(((ip.toNat : Int) + size + d) / 65536), ?_⟩
    simp
    omega
  obtain ⟨k, hk⟩ := hk
  rw [hk]
  have : (ip.toNat : Int) + size + d + 65536 * k - ip.toNat - size = d + k * (2 ^ 16 : Nat) := by
    push_cast
    omega
  rw [this]
  unfold Int.bmod
  push_cast
  split <;> omega

/-! ### The fetch -/

theorem codeByte_outside {s : State} {i : Int} (h : i < 0 ∨ (s.code.length : Int) ≤ i) : s.codeByte i = none := by
  simp [State.codeByte, h]

theorem bytesFrom_outside {s : State} {i : Int} (h : i < 0 ∨ (s.code.length : Int) ≤ i) (fuel : Nat) :
    s.bytesFrom fuel i = [] := by
  cases fuel with
  | zero => rfl
  | succ n => simp [State.bytesFrom, codeByte_outside h]

/-- The bytes the fetch reads start with the bytes that stand in the slice. -/
theorem bytesFrom_prefix {s : State} (fuel : Nat) (i : Int) (bs : List Byte) (hl : bs.length ≤ fuel)
    (h : ∀ k : Nat, k < bs.length → s.codeByte (i + k) = bs[k]?) : ∃ rest, s.bytesFrom fuel i = bs ++ rest := by
  induction fuel generalizing i bs with
  | zero =>
    cases bs with
    | nil => exact ⟨_, rfl⟩
    | cons b bs => simp at hl
  | succ n ih =>
    cases bs with
    | nil => exact ⟨_, rfl⟩
    | cons b bs =>
      have h0 := h 0 (by simp)
      simp at h0
      obtain ⟨rest, hr⟩ := ih (i + 1) bs (by simp at hl; omega) (fun k hk => by
        have := h (k + 1) (by simp; omega)
        simp at this
        rw [← this]
        congr 1
        omega)
      exact ⟨rest, by simp [State.bytesFrom, h0, hr]⟩

/-! ### Placing bytes -/

/-- Storing bytes at consecutive addresses changes memory only, and no byte outside them (70_reset_and_hazards.md R286). -/
theorem writeBytes_keeps (file : List Byte) (s : State) (a : Int) :
    (s.writeBytes a file).regs = s.regs ∧ (s.writeBytes a file).cursor = s.cursor ∧
      (s.writeBytes a file).code = s.code ∧ (s.writeBytes a file).params = s.params ∧
      (s.mem.wf = true → (s.writeBytes a file).mem.wf = true) ∧
      ∀ c : Nat, (∀ k : Nat, k < file.length → c ≠ phys (a + k)) →
        Memory.get (s.writeBytes a file).mem c = Memory.get s.mem c := by
  induction file generalizing s a with
  | nil => exact ⟨rfl, rfl, rfl, rfl, id, fun _ _ => rfl⟩
  | cons b bs ih =>
    obtain ⟨h1, h2, h3, h4, h5, h6⟩ := ih (s.setMemByte a b) (a + 1)
    refine ⟨h1, h2, h3, h4, fun h => h5 (State.setMemByte_wf h _ _), fun c hc => ?_⟩
    simp only [State.writeBytes]
    rw [h6, State.setMemByte_mem, Memory.get_set_ne]
    · have := hc 0 (by simp)
      simpa using this
    · intro k hk
      have := hc (k + 1) (by simp; omega)
      push_cast at this
      rw [show a + 1 + (k : Int) = a + (k + 1) by omega]
      exact this

/-- Each stored byte reads back, when the bytes fit in memory. -/
theorem writeBytes_get (file : List Byte) (s : State) (a : Int) (hw : s.mem.wf = true) (hl : file.length ≤ Config.memSize)
    (k : Nat) (hk : k < file.length) : Memory.get (s.writeBytes a file).mem (phys (a + k)) = file.getD k 0 := by
  induction file generalizing s a k with
  | nil => simp at hk
  | cons b bs ih =>
    simp only [State.writeBytes]
    simp at hl hk
    cases k with
    | zero =>
      rw [(writeBytes_keeps bs _ _).2.2.2.2.2]
      · simp [Memory.get_set_same hw]
      · intro j hj
        unfold Config.memSize at hl
        unfold phys Config.memSize
        push_cast
        omega
    | succ k =>
      have := ih (s.setMemByte a b) (a + 1) (State.setMemByte_wf hw _ _) (by omega) k (by omega)
      rw [show a + ((k + 1 : Nat) : Int) = a + 1 + k by push_cast; omega, this]
      simp

theorem placeCode_wf {s : State} (hw : s.mem.wf = true) (bytes : List Byte) : (s.placeCode bytes).mem.wf = true := by
  unfold State.placeCode
  dsimp only
  split
  · exact (writeBytes_keeps bytes s _).2.2.2.2.1 hw
  · exact hw

theorem load_wf {s : State} (hw : s.mem.wf = true) (p : Params) (source : CodeSource) (csInit : Word) (file : List Byte) :
    (load p source csInit file s).mem.wf = true :=
  (writeBytes_keeps file s _).2.2.2.2.1 hw

theorem reset_wf : State.reset.mem.wf = true := rfl

end Sys2Proof.Machine
end

