-- ==== Sys2Proof/Machine/Text.lean ====
section
/-! DEFINITION. The text syntax of instructions and flags (30_encoding.md R110 to R113), which the spec writes its listings
in. It is surrounding software: no rule of the machine reads it. -/

namespace Sys2Proof.Machine

/-- The mnemonic is the lower-case name of the operation (30_encoding.md R110). -/
def opText : Op → String
  | .mov => "mov" | .add => "add" | .sub => "sub" | .cmp => "cmp"
  | .je => "je" | .jne => "jne" | .jl => "jl" | .jnl => "jnl" | .jle => "jle" | .jg => "jg"
  | .jb => "jb" | .jnb => "jnb" | .jbe => "jbe" | .ja => "ja" | .jp => "jp" | .jnp => "jnp"
  | .jo => "jo" | .jno => "jno" | .js => "js" | .jns => "jns"
  | .loop => "loop" | .loopz => "loopz" | .loopnz => "loopnz" | .jcxz => "jcxz" | .jmp => "jmp" | .nop => "nop"

def slotText : Slot → String
  | .ax => "ax" | .bx => "bx" | .cx => "cx" | .dx => "dx" | .sp => "sp" | .bp => "bp" | .si => "si" | .di => "di"
  | .cs => "cs" | .ds => "ds" | .ss => "ss" | .es => "es" | .ip => "ip" | .flags => "flags"

/-- The register names (10_state.md R14). -/
def accessText : RegAccess → String
  | .word slot => slotText slot
  | .low .ax => "al" | .low .bx => "bl" | .low .cx => "cl" | .low .dx => "dl"
  | .high .ax => "ah" | .high .bx => "bh" | .high .cx => "ch" | .high .dx => "dh"

/-- A decimal number with its sign collapsed into ` + ` or ` - ` (30_encoding.md R111); 0 is omitted. -/
def displacementText (d : Int) : String :=
  if d = 0 then "" else if d < 0 then " - " ++ toString d.natAbs else " + " ++ toString d.natAbs

/-- A signed decimal number. -/
def signedText (v : Int) : String := if v < 0 then "-" ++ toString v.natAbs else toString v.natAbs

/-- "`$+n` / `$-n`", `n = value + size` (30_encoding.md R112). -/
def jumpText (n : Int) : String := if n < 0 then "$-" ++ toString n.natAbs else "$+" ++ toString n.natAbs

/-- Operand text (30_encoding.md R111, R112); `size` is the instruction's. -/
def operandText (size : Nat) : Operand → String
  | .absent => ""
  | .register acc => accessText acc
  | .direct addr => "[" ++ toString addr.toNat ++ "]"
  | .effective t1 none disp _ => "[" ++ accessText t1.access ++ displacementText disp.toInt ++ "]"
  | .effective t1 (some t2) disp _ =>
      "[" ++ accessText t1.access ++ " + " ++ accessText t2.access ++ displacementText disp.toInt ++ "]"
  | .immediate value relative =>
      if relative then jumpText (value.toInt + size) else signedText value.toInt

def isMemory : Operand → Bool
  | .direct _ => true
  | .effective _ _ _ _ => true
  | .absent => false
  | .register _ => false
  | .immediate _ _ => false

def isImmediate : Operand → Bool
  | .immediate _ _ => true
  | .direct _ => false
  | .effective _ _ _ _ => false
  | .absent => false
  | .register _ => false

/-- The width written before a memory operand "opposite an immediate operand" (30_encoding.md R111; log 19). -/
def widthText (operand other : Operand) (wide : Bool) : String :=
  if isMemory operand && isImmediate other then (if wide then "word " else "byte ") else ""

/-- "`mnemonic operand1[, operand2]`" (30_encoding.md R110). -/
def instrText (si : SemInstr) : String :=
  match si.operand0, si.operand1 with
  | .absent, _ => opText si.op
  | dst, .absent => opText si.op ++ " " ++ operandText si.size dst
  | dst, src =>
      opText si.op ++ " " ++ widthText dst src si.flags.wide ++ operandText si.size dst ++ ", " ++
        widthText src dst si.flags.wide ++ operandText si.size src

/-- The flag letters with their bits: "{ C,P,A,Z,S,T,I,D,O }" (30_encoding.md R113; 10_state.md R17). -/
def flagLetters : List (Nat × String) :=
  [(0, "C"), (2, "P"), (4, "A"), (6, "Z"), (7, "S"), (8, "T"), (9, "I"), (10, "D"), (11, "O")]

/-- The flag string of a FLAGS value (30_encoding.md R113). -/
def flagText (flags : Word) : String :=
  flagLetters.foldl (fun acc entry => if flags.getLsbD entry.1 then acc ++ entry.2 else acc) ""

end Sys2Proof.Machine
end

