-- ==== Sys2Proof/Tests/Slice0.lean ====
section
/-! SUPPORT. The model's own tests. Expected results come from spec/: the byte patterns of 30_encoding.md R76 written out bit by
bit, the vectors of 95_test_vectors.md (named by their ids), the table of 44_flag_unit.md R254. Then a witness for the
hypotheses of every statement that has some. -/

namespace Sys2Proof.Tests

open Sys2Proof Sys2Proof.Machine Sys2Proof.Claim

/-! ### Helpers -/

/-- Reset, some registers and memory bytes set, then `bytes` loaded at `ORIGIN` = 0 with the cursor at 0. -/
def start (rs : List (Slot × Word)) (ms : List (Int × Byte)) (bytes : List Byte) : State :=
  load Params.default .privateCopy 0 bytes
    (ms.foldl (fun s x => s.setMemByte x.1 x.2) (rs.foldl (fun s x => s.setReg x.1 x.2) State.reset))

/-- The named slots after a step that answers a next state. -/
def slots (rs : List Slot) : Result → Option (List Word)
  | .next t => some (rs.map t.getReg)
  | .fault _ => none
  | .refused _ => none

/-- The bytes at the named addresses after a step that answers a next state. -/
def bytesAt (xs : List Int) : Result → Option (List Byte)
  | .next t => some (xs.map t.memByte)
  | .fault _ => none
  | .refused _ => none

/-- The cursor after a step that answers a next state. -/
def cursorOf : Result → Option Int
  | .next t => some t.cursor
  | .fault _ => none
  | .refused _ => none

def faultOf : Result → Option Fault
  | .next _ => none
  | .fault f => some f
  | .refused _ => none

def refusalOf : Result → Option Refusal
  | .next _ => none
  | .fault _ => none
  | .refused r => some r

/-! ### WellFormed refuses an ill-formed term for each check -/

theorem test_wellFormed_mod00_bp : (Instr.movNormal true true .r000 (.mem .bp)).wellFormed true = false := by decide
theorem test_wellFormed_short_wide : (Instr.movMemoryToAccumulator true (.short 0x10)).wellFormed true = false := by decide
theorem test_wellFormed_short_not_narrow : (Instr.movAccumulatorToMemory false (.short 0x10)).wellFormed false = false := by
  decide
theorem test_wellFormed_full_narrow : (Instr.movMemoryToAccumulator false (.full 0x1234)).wellFormed true = false := by decide
theorem test_wellFormed_accepts : (Instr.movMemoryToAccumulator false (.short 0x10)).wellFormed true = true := by decide

/-! ### Every constructor's decoding, from the bit patterns of 30_encoding.md R76 and R71 -/

/-- S1: 100010 d=0 w=1; mod=11 reg=011 rm=001; mov cx, bx -/
theorem test_decode_movNormal :
    decode true [0b10001001, 0b11011001] = .ok (.movNormal false true .r011 (.reg .r001), []) := by decide
/-- V10: 1100011 w=1; mod=10 xxx=000 rm=110; disp 0x0100; data 0xFFFF; mov word [bp + 256], -1 -/
theorem test_decode_movImmediateToRegisterOrMemory :
    decode true [0b11000111, 0b10000110, 0b00000000, 0b00000001, 0b11111111, 0b11111111] = .ok (.movImmediateToRegisterOrMemory (.mem16 .bp 0x0100) (.word 0xFFFF), []) := by decide
/-- S2: 1011 w=0 reg=001; mov cl, 12 -/
theorem test_decode_movImmediateToRegister :
    decode true [0b10110001, 0b00001100] = .ok (.movImmediateToRegister .r001 (.byte 0x0C), []) := by decide
/-- V19: 1010000 w=0; one address byte; mov al, [16] -/
theorem test_decode_movMemoryToAccumulator :
    decode true [0b10100000, 0b00010000] = .ok (.movMemoryToAccumulator false (.short 0x10), []) := by decide
/-- V18: 1010001 w=1; address 0x09FA; mov [2554], ax -/
theorem test_decode_movAccumulatorToMemory :
    decode true [0b10100011, 0b11111010, 0b00001001] = .ok (.movAccumulatorToMemory true (.full 0x09FA), []) := by decide
/-- V25: 10001110; mod=00 x=0 sr=11 rm=110; mov ds, [16] -/
theorem test_decode_movRegisterOrMemoryToSegmentRegister :
    decode true [0b10001110, 0b00011110, 0b00010000, 0b00000000] = .ok (.movRegisterOrMemoryToSegmentRegister .ds (.direct 0x0010), []) := by decide
/-- V27: 10001100; mod=11 x=1 sr=01 rm=000; mov ax, cs -/
theorem test_decode_movSegmentRegisterToRegisterOrMemory :
    decode true [0b10001100, 0b11101000] = .ok (.movSegmentRegisterToRegisterOrMemory .cs (.reg .r000), []) := by decide
/-- V29: 000000 d=1 w=0; mod=11 reg=100 rm=011; add ah, bl -/
theorem test_decode_addNormal :
    decode true [0b00000010, 0b11100011] = .ok (.addNormal true false .r100 (.reg .r011), []) := by decide
/-- V34: 100000 s=1 w=1; mod=11 000 rm=011; add bx, 5 -/
theorem test_decode_addImmediateToRegisterOrMemory :
    decode true [0b10000011, 0b11000011, 0b00000101] = .ok (.addImmediateToRegisterOrMemory (.reg .r011) (.wordSigned 0x05), []) := by decide
/-- V40: 0000010 w=1; add ax, 1000 -/
theorem test_decode_addImmediateToAccumulator :
    decode true [0b00000101, 0b11101000, 0b00000011] = .ok (.addImmediateToAccumulator (.word 0x03E8), []) := by decide
/-- V9: 001010 d=1 w=1; mod=01 reg=000 rm=000; sub ax, [bx + si - 128] -/
theorem test_decode_subNormal :
    decode true [0b00101011, 0b01000000, 0b10000000] = .ok (.subNormal true true .r000 (.mem8 .bxSi 0x80), []) := by decide
/-- V37: 100000 s=1 w=1; mod=00 101 rm=110; sub word [512], 1 -/
theorem test_decode_subImmediateFromRegisterOrMemory :
    decode true [0b10000011, 0b00101110, 0b00000000, 0b00000010, 0b00000001] = .ok (.subImmediateFromRegisterOrMemory (.direct 0x0200) (.wordSigned 0x01), []) := by decide
/-- V43: 0010110 w=0; sub al, 5 -/
theorem test_decode_subImmediateFromAccumulator :
    decode true [0b00101100, 0b00000101] = .ok (.subImmediateFromAccumulator (.byte 0x05), []) := by decide
/-- V32: 001110 d=1 w=1; mod=00 reg=111 rm=100; cmp di, [si] -/
theorem test_decode_cmpNormal :
    decode true [0b00111011, 0b00111100] = .ok (.cmpNormal true true .r111 (.mem .si), []) := by decide
/-- V39: 100000 s=0 w=1; mod=11 111 rm=011; cmp bx, -32768 -/
theorem test_decode_cmpImmediateWithRegisterOrMemory :
    decode true [0b10000001, 0b11111011, 0b00000000, 0b10000000] = .ok (.cmpImmediateWithRegisterOrMemory (.reg .r011) (.word 0x8000), []) := by decide
/-- V44: 0011110 w=0; cmp al, 0 -/
theorem test_decode_cmpImmediateWithAccumulator :
    decode true [0b00111100, 0b00000000] = .ok (.cmpImmediateWithAccumulator (.byte 0x00), []) := by decide
theorem test_decode_jo :
    decode true [0b01110000, 0b00000101] = .ok (.jo 0x05, []) := by decide
theorem test_decode_jno :
    decode true [0b01110001, 0b00000101] = .ok (.jno 0x05, []) := by decide
theorem test_decode_jb :
    decode true [0b01110010, 0b00000101] = .ok (.jb 0x05, []) := by decide
theorem test_decode_jnb :
    decode true [0b01110011, 0b00000101] = .ok (.jnb 0x05, []) := by decide
theorem test_decode_je :
    decode true [0b01110100, 0b00000101] = .ok (.je 0x05, []) := by decide
theorem test_decode_jne :
    decode true [0b01110101, 0b00000101] = .ok (.jne 0x05, []) := by decide
theorem test_decode_jbe :
    decode true [0b01110110, 0b00000101] = .ok (.jbe 0x05, []) := by decide
theorem test_decode_ja :
    decode true [0b01110111, 0b00000101] = .ok (.ja 0x05, []) := by decide
theorem test_decode_js :
    decode true [0b01111000, 0b00000101] = .ok (.js 0x05, []) := by decide
theorem test_decode_jns :
    decode true [0b01111001, 0b00000101] = .ok (.jns 0x05, []) := by decide
theorem test_decode_jp :
    decode true [0b01111010, 0b00000101] = .ok (.jp 0x05, []) := by decide
theorem test_decode_jnp :
    decode true [0b01111011, 0b00000101] = .ok (.jnp 0x05, []) := by decide
theorem test_decode_jl :
    decode true [0b01111100, 0b00000101] = .ok (.jl 0x05, []) := by decide
theorem test_decode_jnl :
    decode true [0b01111101, 0b00000101] = .ok (.jnl 0x05, []) := by decide
theorem test_decode_jle :
    decode true [0b01111110, 0b00000101] = .ok (.jle 0x05, []) := by decide
theorem test_decode_jg :
    decode true [0b01111111, 0b00000101] = .ok (.jg 0x05, []) := by decide
/-- V47 -/
theorem test_decode_loopnz :
    decode true [0b11100000, 0b11111100] = .ok (.loopnz 0xFC, []) := by decide
/-- V48 -/
theorem test_decode_loopz :
    decode true [0b11100001, 0b11111100] = .ok (.loopz 0xFC, []) := by decide
/-- S7 -/
theorem test_decode_loop :
    decode true [0b11100010, 0b11111110] = .ok (.loop 0xFE, []) := by decide
/-- V46 -/
theorem test_decode_jcxz :
    decode true [0b11100011, 0b00000010] = .ok (.jcxz 0x02, []) := by decide
/-- V45 -/
theorem test_decode_jmpDirectShort :
    decode true [0b11101011, 0b00000101] = .ok (.jmpDirectShort 0x05, []) := by decide
/-- V51 -/
theorem test_decode_nop :
    decode true [0b10010000] = .ok (.nop, []) := by decide

/-! ### More of the decoder: byte order, fields, the parameter, `decodeTableWord` -/

/-- V14: displacement bytes come before data bytes, low byte first. -/
theorem test_decode_direct_then_data :
    decode true [0xC7, 0x06, 0x00, 0x01, 0x34, 0x12] = .ok (.movImmediateToRegisterOrMemory (.direct 0x0100) (.word 0x1234), []) := by
  decide
/-- V11: disp16 0x8000 is -32768; the address of `[bp - 32768]` with BP = 0x8001 is 1. -/
theorem test_displacement_signed :
    effectiveAddress ((RegMem.mem16 .bp 0x8000).operand true) (start [(.bp, 0x8001)] [] []) = some 1 := by decide
/-- V21: the same bytes under either setting of `ACC_ADDR_NARROW`. -/
theorem test_decode_accAddr :
    decode false [0xA0, 0x34, 0x12] = .ok (.movMemoryToAccumulator false (.full 0x1234), []) ∧
    decode true [0xA0, 0x34, 0x12] = .ok (.movMemoryToAccumulator false (.short 0x34), [0x12]) := by decide
/-- V15, V36 and R107: bits that are not examined. -/
theorem test_decode_unexamined :
    decode true [0xC6, 0xC8, 0x05] = .ok (.movImmediateToRegisterOrMemory (.reg .r000) (.byte 0x05), []) ∧
    decode true [0x82, 0xC3, 0xFF] = .ok (.addImmediateToRegisterOrMemory (.reg .r011) (.byte 0xFF), []) := by decide
/-- V17 as a table word: bit 0 is the least significant bit of the first byte. -/
theorem test_decodeTableWord :
    decodeTableWord 24 0x09FBA1 = some (.movMemoryToAccumulator true (.full 0x09FB)) ∧ decodeTableWord 8 0x90 = some .nop ∧
    decodeTableWord 8 0x0F = none := by decide
/-- 30_encoding.md R83, R84: register numbers. -/
theorem test_register_numbers :
    regAccess .r100 false = .high .ax ∧ regAccess .r100 true = .word .sp ∧ regAccess .r111 false = .high .bx ∧
    segAccess (SegField.ofBits 0b10) = .word .ss := by decide
/-- 95_test_vectors.md section 2.1, last paragraph: decoding at cursor 2; `address` is the cursor. -/
theorem test_decode_at_cursor_two :
    let s : State := { start [] [] [0x90, 0x90, 0xB9, 0x0C, 0x00] with cursor := 2 }
    s.decodeNext = .ok (.movImmediateToRegister .r001 (.word 0x000C), []) ∧
      ((Instr.movImmediateToRegister .r001 (.word 0x000C)).build (BitVec.ofInt 32 s.cursor)).address = 2 ∧
      cursorOf (decodeOnly s) = some 5 := by decide

/-! ### Decoder errors (95_test_vectors.md E1 to E14) -/

theorem test_errors_unrecognized :
    ∀ bs ∈ [[0x0F], [0xF4], [0x26, 0x8B, 0x07], [0x8D, 0x00], [0x80, 0xC8, 0x01], [(0x80 : Byte), 0xC8]],
      decode true bs = .error .unrecognizedOpcode := by decide
theorem test_errors_endOfStream :
    ∀ bs ∈ [[0x80], [0x83], [0x81, 0xC3, 0x00], [0x8B, 0x1E, 0xE8], [(0x75 : Byte)]],
      decode true bs = .error .endOfStream := by decide
theorem test_step_unrecognized : faultOf (step (start [] [] [0xF4])) = some .unrecognizedOpcode := by decide
/-- E12: at cursor = N the run has ended; a decode attempted there raises *EndOfStream*. -/
theorem test_step_at_end :
    let s : State := { start [] [] [0x90] with cursor := 1 }
    refusalOf (step s) = some .runEnded ∧ faultOf s.attemptStep = some .endOfStream := by decide
/-- E13, and a negative cursor. -/
theorem test_step_outside :
    faultOf (step { start [] [] [0x90, 0x90] with cursor := 5 }) = some .endOfStream ∧
    faultOf (step { start [] [] [0x90, 0x90] with cursor := -1 }) = some .endOfStream := by decide

/-! ### One step of every instruction (95_test_vectors.md 2.3, 2.4, 2.6) -/

/-- M8: the address from the old BX. -/
theorem test_step_movNormal :
    slots [.bx, .ip] (step (start [(.bx, 0x0200)] [(512, 0x34), (513, 0x12)] [0x8B, 0x1F])) =
      some [0x1234, 2] := by decide
/-- M5: high halves. -/
theorem test_step_movNormal_half :
    slots [.cx, .ax, .ip] (step (start [(.ax, 0x7700), (.cx, 0x0011)] [] [0x88, 0xE5])) =
      some [0x7711, 0x7700, 2] := by decide
/-- M9: a byte store leaves the next byte. -/
theorem test_step_movImmediateToRegisterOrMemory :
    slots [.ip, .flags] (step (start [(.bp, 0x0100)] [(255, 0x99)] [0xC6, 0x46, 0xFE, 0x07])) =
      some [4, 0] ∧
    bytesAt [254, 255] (step (start [(.bp, 0x0100)] [(255, 0x99)] [0xC6, 0x46, 0xFE, 0x07])) =
      some [0x07, 0x99] := by decide
/-- M4, M20: the low byte kept, no flag touched. -/
theorem test_step_movImmediateToRegister :
    slots [.cx, .flags, .ip] (step (start [(.cx, 0x0012), (.flags, 0x0FD5)] [] [0xB5, 0xFF])) =
      some [0xFF12, 0x0FD5, 2] := by decide
/-- M14: AH kept. -/
theorem test_step_movMemoryToAccumulator :
    slots [.ax, .ip] (step (start [(.ax, 0x1100)] [(16, 0x5A)] [0xA0, 0x10])) =
      some [0x115A, 2] := by decide
/-- M23: a word store at 65535 continues at 65536. -/
theorem test_step_movAccumulatorToMemory :
    slots [.ip] (step (start [(.ax, 0xBBAA)] [] [0xA3, 0xFF, 0xFF])) =
      some [3] ∧
    bytesAt [65535, 65536, 1] (step (start [(.ax, 0xBBAA)] [] [0xA3, 0xFF, 0xFF])) =
      some [0xAA, 0xBB, 0xFF] := by decide
/-- M18: a 16-bit move from memory. -/
theorem test_step_movRegisterOrMemoryToSegmentRegister :
    slots [.ds, .ip] (step (start [] [(16, 0x02), (17, 0x01)] [0x8E, 0x1E, 0x10, 0x00])) =
      some [0x0102, 4] := by decide
/-- M17: a 16-bit move to memory. -/
theorem test_step_movSegmentRegisterToRegisterOrMemory :
    slots [.ip] (step (start [(.es, 0xABCD)] [] [0x8C, 0x06, 0x00, 0x10])) =
      some [4] ∧
    bytesAt [4096, 4097] (step (start [(.es, 0xABCD)] [] [0x8C, 0x06, 0x00, 0x10])) =
      some [0xCD, 0xAB] := by decide
/-- M21: the address sum 131070 is not reduced modulo 65536. -/
theorem test_step_mov_exact_sum :
    slots [.ax, .ip] (step (start [(.bx, 0xFFFF), (.si, 0xFFFF)] [(131070, 0x5A)] [0x8A, 0x00])) =
      some [0x005A, 2] := by decide
/-- M22: address -1 is 1048575. -/
theorem test_step_mov_negative_address :
    slots [.ax, .ip] (step (start [] [(1048575, 0xA5)] [0x8A, 0x47, 0xFF])) =
      some [0x00A5, 3] := by decide
/-- A15: a high-byte destination. -/
theorem test_step_addNormal :
    slots [.ax, .flags, .ip] (step (start [(.ax, 0xFF07), (.bx, 0x0001)] [] [0x02, 0xE3])) =
      some [0x0007, 0x0001, 2] := by decide
/-- A36: TF, IF, DF preserved. -/
theorem test_step_addNormal_flags :
    slots [.ax, .flags, .ip] (step (start [(.ax, 0xFFFF), (.cx, 1), (.flags, 0x0700)] [] [0x01, 0xC8])) =
      some [0, 0x0755, 2] := by decide
/-- A19: a word destination across 0xFFFF and 0x10000. -/
theorem test_step_addImmediateToRegisterOrMemory :
    slots [.flags, .ip] (step (start [(.bx, 0xFFFF)] [(65535, 0xFF)] [0x81, 0x07, 0x01, 0x00])) =
      some [0x0014, 4] ∧
    bytesAt [65535, 65536] (step (start [(.bx, 0xFFFF)] [(65535, 0xFF)] [0x81, 0x07, 0x01, 0x00])) =
      some [0x00, 0x01] := by decide
/-- A9: a low-byte destination. -/
theorem test_step_addImmediateToAccumulator :
    slots [.ax, .flags, .ip] (step (start [(.ax, 0x00FF)] [] [0x04, 0x01])) =
      some [0, 0x0815, 2] := by decide
/-- A24: a memory source. -/
theorem test_step_subNormal :
    slots [.cx, .flags, .ip] (step (start [(.cx, 5), (.bx, 0x0100)] [(258, 0x06)] [0x2B, 0x4F, 0x02])) =
      some [0xFFFF, 0x0095, 3] := by decide
/-- A28: the source is the high byte. -/
theorem test_step_subNormal_halves :
    slots [.ax, .flags, .ip] (step (start [(.ax, 0x0305)] [] [0x28, 0xE0])) =
      some [0x0302, 0, 2] := by decide
/-- A25: a memory destination. -/
theorem test_step_subImmediateFromRegisterOrMemory :
    slots [.flags, .ip] (step (start [] [(512, 0x00), (513, 0x01)] [0x83, 0x2E, 0x00, 0x02, 0x01])) =
      some [0x0014, 5] ∧
    bytesAt [512, 513] (step (start [] [(512, 0x00), (513, 0x01)] [0x83, 0x2E, 0x00, 0x02, 0x01])) =
      some [0xFF, 0x00] := by decide
/-- A27: a one-byte immediate of -1. -/
theorem test_step_subImmediateFromAccumulator :
    slots [.ax, .flags, .ip] (step (start [(.ax, 0x00FF)] [] [0x2C, 0xFF])) =
      some [0, 0x0805, 2] := by decide
/-- A35: equal words; DI unchanged. -/
theorem test_step_cmpNormal :
    slots [.di, .flags, .ip] (step (start [(.di, 0x0010), (.si, 0x0400)] [(1024, 0x10)] [0x3B, 0x3C])) =
      some [0x0010, 0x0044, 2] := by decide
/-- A34: a byte in memory, unchanged. -/
theorem test_step_cmpImmediateWithRegisterOrMemory :
    slots [.flags, .ip] (step (start [(.bx, 0x0300)] [(768, 0xFF)] [0x80, 0x3F, 0xFF])) =
      some [0x0805, 3] ∧
    bytesAt [768] (step (start [(.bx, 0x0300)] [(768, 0xFF)] [0x80, 0x3F, 0xFF])) =
      some [0xFF] := by decide
/-- A33: OF of byte bounds on 0..255. -/
theorem test_step_cmpImmediateWithAccumulator :
    slots [.ax, .flags, .ip] (step (start [(.ax, 0x1280)] [] [0x3C, 0x00])) =
      some [0x1280, 0x0800, 2] := by decide
/-- IP after `7k 05` at IP 0x0010 under each FLAGS value of the truth table of 95_test_vectors.md 2.6. -/
def jumpRow (b0 : Byte) : List (Option (List Word)) :=
  [0x0000, 0x0001, 0x0004, 0x0040, 0x0041, 0x0080, 0x0800, 0x0880, 0x08C0].map fun f =>
    slots [.ip] (step (start [(.ip, 0x0010), (.flags, f)] [] [b0, 0x05]))

/-- The row as the table writes it: `true` where taken. -/
def jumpRowIs (taken : List Bool) : List (Option (List Word)) :=
  taken.map fun t => some [if t then 0x0017 else 0x0012]

theorem test_step_jo : jumpRow 0x70 = jumpRowIs [false, false, false, false, false, false, true, true, true] := by decide
theorem test_step_jno : jumpRow 0x71 = jumpRowIs [true, true, true, true, true, true, false, false, false] := by decide
theorem test_step_jb : jumpRow 0x72 = jumpRowIs [false, true, false, false, true, false, false, false, false] := by decide
theorem test_step_jnb : jumpRow 0x73 = jumpRowIs [true, false, true, true, false, true, true, true, true] := by decide
theorem test_step_je : jumpRow 0x74 = jumpRowIs [false, false, false, true, true, false, false, false, true] := by decide
theorem test_step_jne : jumpRow 0x75 = jumpRowIs [true, true, true, false, false, true, true, true, false] := by decide
theorem test_step_jbe : jumpRow 0x76 = jumpRowIs [false, true, false, true, true, false, false, false, true] := by decide
theorem test_step_ja : jumpRow 0x77 = jumpRowIs [true, false, true, false, false, true, true, true, false] := by decide
theorem test_step_js : jumpRow 0x78 = jumpRowIs [false, false, false, false, false, true, false, true, true] := by decide
theorem test_step_jns : jumpRow 0x79 = jumpRowIs [true, true, true, true, true, false, true, false, false] := by decide
theorem test_step_jp : jumpRow 0x7A = jumpRowIs [false, false, true, false, false, false, false, false, false] := by decide
theorem test_step_jnp : jumpRow 0x7B = jumpRowIs [true, true, false, true, true, true, true, true, true] := by decide
theorem test_step_jl : jumpRow 0x7C = jumpRowIs [false, false, false, false, false, true, true, false, false] := by decide
theorem test_step_jnl : jumpRow 0x7D = jumpRowIs [true, true, true, true, true, false, false, true, true] := by decide
theorem test_step_jle : jumpRow 0x7E = jumpRowIs [false, false, false, true, true, true, true, false, true] := by decide
theorem test_step_jg : jumpRow 0x7F = jumpRowIs [true, true, true, false, false, false, false, true, false] := by decide
/-- J5: taken. -/
theorem test_step_loopnz :
    slots [.cx, .ip, .flags] (step (start [(.ip, 0x0010), (.cx, 2)] [] [0xE0, 0xFC])) =
      some [1, 0x000E, 0] := by decide
/-- J6: ZF=1, not taken, CX decremented all the same. -/
theorem test_step_loopnz_not :
    slots [.cx, .ip, .flags] (step (start [(.ip, 0x0010), (.cx, 2), (.flags, 0x0040)] [] [0xE0, 0xFC])) =
      some [1, 0x0012, 0x0040] := by decide
/-- J8: taken. -/
theorem test_step_loopz :
    slots [.cx, .ip] (step (start [(.ip, 0x0010), (.cx, 2), (.flags, 0x0040)] [] [0xE1, 0xFC])) =
      some [1, 0x000E] := by decide
/-- J10: CX becomes 0. -/
theorem test_step_loopz_not :
    slots [.cx, .ip] (step (start [(.ip, 0x0010), (.cx, 1), (.flags, 0x0040)] [] [0xE1, 0xFC])) =
      some [0, 0x0012] := by decide
/-- J13: 0 becomes 0xFFFF, taken. -/
theorem test_step_loop :
    slots [.cx, .ip, .flags] (step (start [(.ip, 0x0010)] [] [0xE2, 0xFC])) =
      some [0xFFFF, 0x000E, 0] := by decide
/-- J11. -/
theorem test_step_loop_not :
    slots [.cx, .ip] (step (start [(.cx, 1)] [] [0xE2, 0xFE])) =
      some [0, 2] := by decide
/-- J14. -/
theorem test_step_jcxz :
    slots [.ip, .cx] (step (start [(.ip, 0x0010)] [] [0xE3, 0x02])) =
      some [0x0014, 0] := by decide
/-- J15. -/
theorem test_step_jcxz_not :
    slots [.ip, .cx] (step (start [(.ip, 0x0010), (.cx, 5)] [] [0xE3, 0x02])) =
      some [0x0012, 5] := by decide
/-- J19: IP wraps. -/
theorem test_step_jmpDirectShort :
    slots [.ip] (step (start [(.ip, 0xFFFC)] [] [0xEB, 0x05])) =
      some [0x0003] := by decide
/-- J21. -/
theorem test_step_nop :
    slots [.ip] (step (start [(.ip, 0xFFFF)] [] [0x90])) =
      some [0x0000] := by decide
/-- J4: the cursor delta of a taken jump by -128, and J19: the signed delta across the wrap of IP. -/
theorem test_cursor_delta :
    cursorOf (step (start [(.ip, 0x0010)] [] [0x7F, 0x80])) = some (-126) ∧
    cursorOf (step (start [(.ip, 0xFFFC)] [] [0xEB, 0x05])) = some 7 := by decide
/-- A store into the code window is fetched under `memory_window` and not under `private_copy` (20_memory.md R58): after
`mov [2], al` with AL = 0x90 the next byte is 0x90 or the byte loaded. -/
theorem test_code_source :
    let run := fun source => (load Params.default source 0 [0xA2, 0x02, 0xF4] ((State.reset.setReg .ax 0x0090)))
    (match step (run .memoryWindow) with | .next t => t.codeByte t.cursor | .fault _ => none | .refused _ => none) = some 0x90 ∧
    (match step (run .privateCopy) with | .next t => t.codeByte t.cursor | .fault _ => none | .refused _ => none) = some 0xF4 := by
  decide
/-- The host's question: a table word placed where step fetches runs as the first instruction after reset. -/
theorem test_withFetchWord :
    slots [.cx, .ip] (step (State.reset.withFetchWord 24 0x000CB9)) = some [0x000C, 3] ∧
    cursorOf (step (State.reset.withFetchWord 24 0x000CB9)) = some 3 := by decide

/-! ### The flag unit (44_flag_unit.md R254; 95_test_vectors.md F8, F9) -/

theorem test_flagUnit_word :
    flagUnit .add 10 5 .word 0 = 0x0004 ∧ flagUnit .sub 0 0 .word 0 = 0x0044 ∧ flagUnit .add (-1) 1 .word 0 = 0x0055 ∧
    flagUnit .sub 0 1 .word 0 = 0x0095 ∧ flagUnit .add 32767 1 .word 0 = 0x0894 ∧
    flagUnit .sub (-32768) 1 .word 0 = 0x0814 ∧ flagUnit .add (-32768) (-32768) .word 0 = 0x0805 ∧
    flagUnit .sub 32767 (-32768) .word 0 = 0x0885 ∧ flagUnit .add 28672 28672 .word 0 = 0x0884 := by decide
theorem test_flagUnit_byte :
    flagUnit .add 0 (-1) .byte 0 = 0x0085 ∧ flagUnit .add 1 (-1) .byte 0 = 0x0055 ∧ flagUnit .add 255 1 .byte 0 = 0x0815 ∧
    flagUnit .add 127 1 .byte 0 = 0x0810 ∧ flagUnit .sub 128 0 .byte 0 = 0x0800 ∧ flagUnit .sub 3 5 .byte 0 = 0x0091 := by
  decide
theorem test_flagUnit_preserves :
    flagUnit .add (-1) 1 .word 0x0200 = 0x0255 ∧ flagUnit .sub 5 3 .word 0xFFFF = 0x0700 := by decide

/-! ### Memory, report, text, cycles -/

/-- 20_memory.md R44: a word at 1048575 uses cells 1048575 and 0; writing 0 removes the entry. -/
theorem test_memory_wrap :
    (memWrite 1048575 true 0x1234 State.reset).mem = [(0, 0x12), (1048575, 0x34)] ∧
    (memWrite 1048575 true 0 (memWrite 1048575 true 0x1234 State.reset)).mem = [] := by decide
/-- 42_arith.md R194: the report of `add bx, 5` with BX = 10. -/
theorem test_report :
    (start [(.bx, 10)] [] [0x83, 0xC3, 0x05]).reportNext =
      some { destination := .register (.word .bx), oldValue := 10, newValue := 15, oldFlags := 0, newFlags := 0x0004,
             oldIp := 0, newIp := 3 } := by decide
/-- The texts of V9, V10, V36, V47 and V50, and the flag string of 0x0755 (30_encoding.md R110 to R113). -/
theorem test_text :
    instrText ((Instr.subNormal true true .r000 (.mem8 .bxSi 0x80)).build 0) = "sub ax, [bx + si - 128]" ∧
    instrText ((Instr.movImmediateToRegisterOrMemory (.mem16 .bp 0x0100) (.word 0xFFFF)).build 0) =
      "mov word [bp + 256], -1" ∧
    instrText ((Instr.loopnz 0xFC).build 0) = "loopnz $-2" ∧ instrText ((Instr.je 0x7F).build 0) = "je $+129" ∧
    flagText 0x0755 = "CPAZTID" := by decide
/-- 70_reset_and_hazards.md R301, R302: `add cx, [bx + si]` is 9 + 7; `mov [si], 7` is 10 + 5; no row for `cmp cx, bx`. -/
theorem test_cycles :
    cycleEstimate ((Instr.addNormal true true .r001 (.mem .bxSi)).build 0) = .ok { base := 9, ea := 7 } ∧
    cycleEstimate ((Instr.movImmediateToRegisterOrMemory (.mem .si) (.byte 7)).build 0) = .ok { base := 10, ea := 5 } ∧
    cycleEstimate ((Instr.cmpNormal true true .r001 (.reg .r011)).build 0) = .error .unsupportedForCycleEstimation := by
  refine ⟨rfl, rfl, rfl⟩
/-- 81 07 05 00 and 83 47 00 05 are one semantic instruction, `add word [bx], 5`: 17 + 5. -/
theorem test_cycles_of_the_record :
    (Instr.addImmediateToRegisterOrMemory (.mem8 .bx 0) (.wordSigned 5)).build 0 =
      (Instr.addImmediateToRegisterOrMemory (.mem .bx) (.word 5)).build 0 ∧
    cycleEstimate ((Instr.addImmediateToRegisterOrMemory (.mem .bx) (.word 5)).build 0) = .ok { base := 17, ea := 5 } := by
  refine ⟨by decide, rfl⟩
/-- 60_exceptions.md R263: hand-built instructions with operands their operation does not accept. -/
theorem test_unsupported_operands :
    let si := (Instr.movNormal true true .r000 (.reg .r001)).build 0
    faultOf (execute { si with operand0 := .immediate 5 false } State.reset) = some .unsupportedOperandForOperation ∧
    faultOf (execute { si with operand1 := .absent } State.reset) = some .unsupportedOperandForOperation ∧
    faultOf (execute { si with op := .loop } State.reset) = some .unsupportedOperandForOperation := by decide

/-! ### A witness for the hypotheses of every statement that has some -/

/-- A state with memory, registers and a code slice that are not the reset ones. -/
def sample : State :=
  start [(.ax, 0x1280), (.bx, 0xFFFF), (.cx, 1), (.bp, 0x0010), (.flags, 0x0755)] [(0xFFFF, 0xFF), (1048575, 0xA5)]
    [0x90, 0xEB, 0xFE, 0x83, 0xC3, 0x05]

theorem sample_wf : sample.mem.wf = true := by decide

/-- Well-formed instructions of the longest and the shortest form, and both settings of `ACC_ADDR_NARROW`. -/
theorem witness_DecodeInvertsEncode :
    (Instr.movImmediateToRegisterOrMemory (.mem16 .bp 0x8000) (.word 0xFFFF)).wellFormed true = true ∧
    Instr.nop.wellFormed false = true ∧ (Instr.movMemoryToAccumulator false (.short 0xFF)).wellFormed true = true ∧
    (Instr.movMemoryToAccumulator false (.full 0xFFFF)).wellFormed false = true := by decide
theorem witness_DecodedInstructionsAreWellFormed :
    decode true [0xA0, 0x10, 0x90] = .ok (.movMemoryToAccumulator false (.short 0x10), [0x90]) := by decide
theorem witness_DecodeConsumesItsSizeInBytes :
    decode true [0xC7, 0x86, 0x00, 0x01, 0xFF, 0xFF, 0x90] =
      .ok (.movImmediateToRegisterOrMemory (.mem16 .bp 0x0100) (.word 0xFFFF), [0x90]) ∧
    decode true [0x90] = .ok (.nop, []) := by decide
/-- Both causes of *UnrecognizedOpcode*, each where it meets the recognised bytes: 0x06, and sub-opcode 001 of 0x83. -/
theorem witness_UnrecognizedOpcodeInExactlyTwoCases :
    decode true [0x06] = .error .unrecognizedOpcode ∧ decode true [0x83, 0xCB] = .error .unrecognizedOpcode ∧
    decode true [0x84, 0xC3] = .error .unrecognizedOpcode ∧ decode true [0x83, 0xFB, 0x00] ≠ .error .unrecognizedOpcode := by
  decide
theorem witness_TruncatedInstructionsRaiseEndOfStream :
    decode true [0x83, 0xC3, 0x05] = .ok (.addImmediateToRegisterOrMemory (.reg .r011) (.wordSigned 0x05), []) ∧
    0 < (Instr.addImmediateToRegisterOrMemory (.reg .r011) (.wordSigned 0x05)).size ∧
    2 < (Instr.addImmediateToRegisterOrMemory (.reg .r011) (.wordSigned 0x05)).size := by decide
theorem witness_UnexaminedBitsDoNotChangeTheInstruction :
    ((0xC7 : Byte) = 0xC6 ∨ (0xC7 : Byte) = 0xC7) ∧ ((0x8E : Byte) = 0x8C ∨ (0x8E : Byte) = 0x8E) := by decide
theorem witness_ArithmeticImmediateResolvesByRegField :
    (∀ b0 ∈ [(0x80 : Byte), 0x83], b0.toNat / 4 = 0x20) ∧ (0xC8 : Byte).toNat / 8 % 8 ∉ [0, 5, 7] ∧
    (0xF0 : Byte).toNat / 8 % 8 ∉ [0, 5, 7] ∧ (∀ b1 ∈ [(0xC0 : Byte), 0xE8, 0xF8], b1.toNat / 8 % 8 ∈ [0, 5, 7]) ∧
    decode true [0x80, 0xE8, 0x01] = .ok (.subImmediateFromRegisterOrMemory (.reg .r000) (.byte 0x01), []) := by decide
/-- A ModR/M byte for each clause, the two of mod=00 next to each other. -/
theorem witness_DisplacementLengthFollowsModAndRm :
    ((0x06 : Byte).toNat / 64 = 0 ∧ (0x06 : Byte).toNat % 8 = 6) ∧ ((0x07 : Byte).toNat / 64 = 0 ∧ (0x07 : Byte).toNat % 8 ≠ 6) ∧
    (0x46 : Byte).toNat / 64 = 1 ∧ (0xBF : Byte).toNat / 64 = 2 ∧ (0xC0 : Byte).toNat / 64 = 3 := by decide
/-- 30_encoding.md R85, the rows of the rm table that no byte string above has: 001, 010, 011, 101. -/
theorem test_rm_table :
    decode true [0x8B, 0x01] = .ok (.movNormal true true .r000 (.mem .bxDi), []) ∧
    decode true [0x8B, 0x02] = .ok (.movNormal true true .r000 (.mem .bpSi), []) ∧
    decode true [0x8B, 0x03] = .ok (.movNormal true true .r000 (.mem .bpDi), []) ∧
    decode true [0x8B, 0x05] = .ok (.movNormal true true .r000 (.mem .di), []) := by decide
theorem witness_RegisterAccessReadsAndWritesItsPart : Slot.ip ≠ Slot.flags ∧ Slot.es ∉ [accessSlot (.high .ax)] := by decide
/-- The stored cells of a word at 1048575 are 1048575 and 0. -/
theorem witness_MemWriteTouchesItsCellsOnly :
    sample.mem.wf = true ∧ phys 1048575 = 1048575 ∧ phys (1048575 + 1) = 0 ∧ phys (-1) = 1048575 := by decide
theorem witness_MemReadReturnsWhatWasWritten : sample.mem.wf = true := sample_wf
theorem witness_EqualReadsMeanEqualMemories :
    Memory.wf [(0, 1), (1048575, 2)] = true ∧
    Memory.wf (Memory.set (Memory.set (Memory.set [] 1048575 2) 5 7) 0 1) = true ∧
    Memory.wf [(0, 1), (1048576, 2)] = false := by decide
theorem witness_SourceValueByOperandForm :
    effectiveAddress ((RegMem.mem8 .bp 0xFE).operand true) sample = some 14 ∧
    effectiveAddress (AccAddr.full 0xFFFF).operand sample = some 65535 := by decide
/-- One hand-built instruction for each of the three cases, and one for none of them. -/
theorem witness_ExecuteFaultsExactlyOnUnsupportedOperands :
    let si := (Instr.movNormal true true .r000 (.reg .r001)).build 0
    (si.op ∈ [Op.mov, .add, .sub, .cmp] ∧ ({ si with operand0 := Operand.absent } : SemInstr).operand0 = .absent) ∧
    (si.op ∈ [Op.mov, .add, .sub, .cmp] ∧ ({ si with operand1 := Operand.absent } : SemInstr).operand1 = .absent) ∧
    (Op.jmp ∉ [Op.mov, .add, .sub, .cmp] ∧ Op.jmp ≠ .nop ∧ si.operand0 = .register (.word .ax)) ∧
    (si.operand0 ≠ .absent ∧ si.operand1 ≠ .absent) := by decide
theorem witness_MovToRegisterWritesTheSource :
    ((Instr.movImmediateToRegister .r101 (.byte 0xFF)).op = .mov ∧
      (Instr.movImmediateToRegister .r101 (.byte 0xFF)).operand0 = .register (.high .cx)) ∧
    ((Instr.movRegisterOrMemoryToSegmentRegister .ds (.reg .r000)).op = .mov ∧
      (Instr.movRegisterOrMemoryToSegmentRegister .ds (.reg .r000)).operand0 = .register (.word .ds)) ∧
    (Instr.movMemoryToAccumulator false (.short 0x10)).operand0 = .register (.low .ax) := by decide
/-- Stores at the top of memory: BX + 0 = 65535 for a word, and address -1 with BX = 0. -/
theorem witness_MovToMemoryStoresTheSource :
    (Instr.movNormal false true .r000 (.mem .bx)).op = .mov ∧
    effectiveAddress (Instr.movNormal false true .r000 (.mem .bx)).operand0 sample = some 65535 ∧ sample.mem.wf = true ∧
    effectiveAddress (Instr.movNormal false true .r000 (.mem8 .bx 0xFF)).operand0 State.reset = some (-1) := by decide
theorem witness_AddSubWordRegister :
    IsAddOrSub true (.addNormal true true .r100 (.mem .bx)) ∧
    (Instr.addNormal true true .r100 (.mem .bx)).operand0 = .register (.word .sp) ∧
    IsAddOrSub false (.subImmediateFromAccumulator (.word 0x8000)) ∧
    (Instr.subImmediateFromAccumulator (.word 0x8000)).operand0 = .register (.word .ax) := by
  refine ⟨rfl, rfl, rfl, rfl⟩
theorem witness_AddSubByteRegister :
    IsAddOrSub true (.addImmediateToAccumulator (.byte 0xFF)) ∧
    (Instr.addImmediateToAccumulator (.byte 0xFF)).operand0 = .register (.low .ax) ∧
    IsAddOrSub false (.subNormal true false .r111 (.reg .r000)) ∧
    (Instr.subNormal true false .r111 (.reg .r000)).operand0 = .register (.high .bx) := by
  refine ⟨rfl, rfl, rfl, rfl⟩
theorem witness_AddSubMemory :
    IsAddOrSub true (.addImmediateToRegisterOrMemory (.mem .bx) (.word 1)) ∧
    effectiveAddress (Instr.addImmediateToRegisterOrMemory (.mem .bx) (.word 1)).operand0 sample = some 65535 ∧
    IsAddOrSub false (.subNormal false false .r000 (.mem .bx)) ∧
    effectiveAddress (Instr.subNormal false false .r000 (.mem .bx)).operand0 sample = some 65535 ∧ sample.mem.wf = true := by
  refine ⟨rfl, by decide, rfl, by decide, by decide⟩
/-- One CMP for each destination clause. -/
theorem witness_CmpWritesFlagsAndIpOnly :
    (Instr.cmpNormal true true .r111 (.mem .si)).op = .cmp ∧
    (Instr.cmpNormal true true .r111 (.mem .si)).operand0 = .register (.word .di) ∧
    (Instr.cmpImmediateWithAccumulator (.byte 0)).operand0 = .register (.low .ax) ∧
    (Instr.cmpImmediateWithRegisterOrMemory (.reg .r100) (.byte 0)).operand0 = .register (.high .ax) ∧
    effectiveAddress (Instr.cmpImmediateWithRegisterOrMemory (.mem .bx) (.byte 0xFF)).operand0 sample = some 65535 := by decide
theorem witness_LoopFamilyDecrementsCxThenTests :
    slots [.cx] (exec (.loop 0xFE) sample) = some [0] ∧ slots [.cx] (exec (.loopz 0xFE) State.reset) = some [0xFFFF] ∧
    slots [.cx] (exec (.loopnz 0xFE) sample) = some [0] := by decide
theorem witness_JcxzTestsAndJmpAlwaysJumps : slots [.cx] (exec (.jcxz 0x02) sample) = some [1] := by decide
theorem witness_JumpToItselfStaysForEver : BytesAtCursor { sample with cursor := 1 } [0xEB, 0xFE] := by
  unfold BytesAtCursor
  decide
theorem witness_OnlyArithmeticWritesFlags :
    (Instr.movImmediateToRegister .r000 (.word 0x1234)).op ∉ [Op.add, .sub, .cmp] ∧
    slots [.ax, .flags] (exec (.movImmediateToRegister .r000 (.word 0x1234)) sample) = some [0x1234, 0x0755] := by decide
theorem witness_NoStepWritesTrapInterruptDirection :
    slots [.flags] (step { sample with cursor := 3 }) = some [0x0711] ∧ (8 : Nat) ∈ [8, 9, 10] := by decide
theorem witness_SegmentRegistersWrittenByTheirMovOnly :
    slots [.ds, .es] (exec (.movRegisterOrMemoryToSegmentRegister .ds (.reg .r000)) sample) = some [0x1280, 0] ∧
    SegField.es ≠ SegField.ds := by decide
theorem witness_SegmentRegistersInfluenceNothingElse :
    SameButSegments sample (sample.setReg .ds 0x2000) ∧ sample.setReg .ds 0x2000 ≠ sample ∧
    slots [.ax] (exec (.movMemoryToAccumulator true (.full 0xFFFF)) (sample.setReg .ds 0x2000)) = some [0x00FF] := by
  refine ⟨⟨fun r hr => State.getReg_setReg_ne (by rintro rfl; simp at hr) _ _, rfl, rfl, rfl, rfl⟩, by decide, by decide⟩
theorem witness_MemoryChangesOnlyThroughMemoryDestinations :
    Op.cmp ∉ [Op.mov, .add, .sub] ∧
    effectiveAddress (Instr.movMemoryToAccumulator true (.full 0xFFFF)).operand0 sample = none ∧
    slots [.ax] (exec (.movMemoryToAccumulator true (.full 0xFFFF)) sample) = some [0x00FF] := by decide
theorem witness_NoStepChangesTheParameters : slots [.ip] (step sample) = some [0x0001] := by decide
theorem witness_StepRunsTheDecodedInstruction :
    sample.cursor ≠ sample.code.length ∧
    decode sample.params.accAddrNarrow sample.fetchBytes = .ok (.nop, [0xEB, 0xFE, 0x83, 0xC3, 0x05]) := by decide
theorem witness_StepRunsTheInstructionInTheSlice :
    (Instr.addImmediateToRegisterOrMemory (.reg .r011) (.wordSigned 0x05)).wellFormed sample.params.accAddrNarrow = true ∧
    BytesAtCursor { sample with cursor := 3 } (encode (.addImmediateToRegisterOrMemory (.reg .r011) (.wordSigned 0x05))) := by
  unfold BytesAtCursor
  decide
theorem witness_CursorFollowsTakenBranches :
    State.decodeNext { sample with cursor := 1 } = .ok (.jmpDirectShort 0xFE, [0x83, 0xC3, 0x05]) ∧
    cursorOf (step { sample with cursor := 1 }) = some 1 := by decide
/-- The clauses at their boundaries: cursor -1, cursor N + 1, an unrecognised byte and a truncated
instruction inside. -/
theorem witness_StepFaultsExactlyOnDecodeErrors :
    faultOf (step { sample with cursor := -1 }) = some .endOfStream ∧
    faultOf (step { sample with cursor := 7 }) = some .endOfStream ∧
    faultOf (step { sample with cursor := 2 }) = some .unrecognizedOpcode ∧
    faultOf (step { sample with cursor := 5 }) = some .endOfStream ∧ faultOf (step sample) = none ∧ sample.code.length = 6 := by decide
theorem witness_RunEndsExactlyWhenCursorIsN :
    refusalOf (step { sample with cursor := 6 }) = some .runEnded ∧ sample.code.length = 6 := by decide
theorem witness_StepKeepsSound : sample.Sound ∧ slots [.flags] (step { sample with cursor := 3 }) = some [0x0711] :=
  ⟨⟨sample_wf, by decide⟩, by decide⟩
/-- A cursor that tracks IP across its wrap. -/
theorem witness_StepKeepsCursorTrackingIp :
    sample.CursorTracksIp ∧ slots [.ip] (step sample) = some [1] ∧
    State.CursorTracksIp { State.reset with cursor := 65536 } := by
  refine ⟨rfl, by decide, rfl⟩
theorem witness_CursorEqualsIpUntilItWraps :
    sample.cursor = sample.regs.ip.toNat ∧ cursorOf (step sample) = some 1 ∧ slots [.ip] (step sample) = some [1] := by decide
/-- The same program under both settings, where the step stores nothing into its own code. -/
theorem witness_CodeSourceSettingsAgree :
    let s := load Params.default .memoryWindow 0 [0x90, 0xB1, 0x0C] State.reset
    SameButCodeSource s { s with code := .privateCopy [0x90, 0xB1, 0x0C] } ∧ slots [.ip] (step s) = some [1] := by
  refine ⟨⟨[0x90, 0xB1, 0x0C], rfl, rfl, by decide⟩, by decide⟩
theorem witness_LoadPlacesTheProgram :
    State.reset.mem.wf = true ∧ [(0x90 : Byte), 0x0C].length ≤ 1048576 ∧
    (load { Params.default with origin := 0xFFFFF } .memoryWindow 0x0010 [0x90, 0x0C] State.reset).mem =
      [(0, 0x0C), (1048575, 0x90)] := by decide
theorem witness_DecodeOnlyMovesTheCursorOnly :
    cursorOf (decodeOnly { sample with cursor := 3 }) = some 6 ∧
    slots [.bx] (decodeOnly { sample with cursor := 3 }) = some [0xFFFF] ∧
    faultOf (decodeOnly { sample with cursor := -1 }) = some .endOfStream ∧
    faultOf (decodeOnly { sample with code := .privateCopy [0x0F] }) = some .unrecognizedOpcode ∧
    decodeOnly State.reset = .refused .runEnded := by
  refine ⟨by decide, by decide, by decide, by decide, rfl⟩
theorem witness_ReportOfTwoOperandInstructions :
    (∀ i ∈ [Instr.movNormal false true .r000 (.mem .bx), .cmpImmediateWithAccumulator (.byte 0),
        .addImmediateToAccumulator (.byte 0xFF)],
      i.op ∈ [Op.mov, .add, .sub, .cmp] ∧ slots [.cx] (exec i sample) = some [1]) := by decide
/-- A row without "+ EA", one with a displacement, one without; a tuple with no row; both kinds of register. -/
theorem witness_CycleEstimateExistsForTheListedTuples :
    (Instr.movNormal true true .r001 (.reg .r011)).wellFormed true = true ∧
    (kindsOf (.movNormal true true .r001 (.reg .r011)), 2, false) ∈ baseTable ∧
    (kindsOf (.addImmediateToRegisterOrMemory (.mem8 .bxDi 0x01) (.word 1)), 17, true) ∈ baseTable ∧
    (Instr.addImmediateToRegisterOrMemory (.mem8 .bxDi 0x01) (.word 1)).wellFormed true = true ∧
    cycleEstimate ((Instr.addImmediateToRegisterOrMemory (.mem8 .bxDi 0x01) (.word 1)).build 0) = .ok { base := 17, ea := 12 } ∧
    (Instr.movMemoryToAccumulator true (.full 0)).wellFormed true = true ∧
    (∀ row ∈ baseTable, row.1 ≠ kindsOf (.movMemoryToAccumulator true (.full 0))) := by
  refine ⟨by decide, by decide, by decide, by decide, rfl, by decide, by decide⟩
theorem witness_ReportOfJumpsAndNop :
    (∀ i ∈ [Instr.jo 5, .jg 0xFE, .jmpDirectShort 5, .nop],
      i.op ∉ [Op.mov, .add, .sub, .cmp, .loop, .loopz, .loopnz, .jcxz] ∧ slots [.cx] (exec i sample) = some [1]) := by decide
theorem witness_StructuralDecoderBuildsTheOperands :
    ((7 : BitVec 3), RegAccess.high .bx, RegAccess.word .di) ∈ registerTable ∧
    ((3 : BitVec 2), SegField.ds, Slot.ds) ∈ segmentTable ∧ (2, EaBase.bpSi, Slot.bp, some Slot.si) ∈ rmTable ∧
    registerMemoryForms.length = 4 ∧
    arithImmediateForms.length = 3 ∧ accumulatorForms.length = 3 ∧ jumpForms.length = 21 := by decide
/-- First bytes at both ends of each range, with `d` and `w` clear and set. -/
theorem witness_RegisterMemoryOperandsFollowTheBytes :
    (∀ b0 ∈ [(0x88 : Byte), 0x8B, 0x00, 0x03, 0x28, 0x2B, 0x38, 0x3B], b0.toNat / 4 ∈ [0x22, 0x00, 0x0A, 0x0E]) ∧
    decode true [0x88, 0xD9] = .ok (.movNormal false false .r011 (.reg .r001), []) ∧
    decode true [0x3B, 0x07] = .ok (.cmpNormal true true .r000 (.mem .bx), []) := by decide
theorem witness_SegmentMovOperandsFollowTheBytes :
    decode true [0x8E, 0xD8] = .ok (.movRegisterOrMemoryToSegmentRegister .ds (.reg .r000), []) ∧
    decode true [0x8C, 0xC0] = .ok (.movSegmentRegisterToRegisterOrMemory .es (.reg .r000), []) := by decide
theorem witness_AccumulatorAndRegisterImmediateFollowTheBytes :
    (0xB0 : Byte).toNat / 16 = 0xB ∧ (0xB0 : Byte).toNat / 8 % 2 = 0 ∧ (0xBF : Byte).toNat / 16 = 0xB ∧
    (0xBF : Byte).toNat / 8 % 2 = 1 := by decide

end Sys2Proof.Tests
end

section

namespace Sys2Proof.Proofs

open Sys2Proof.Machine Sys2Proof.Claim

/-- A store leaves the cursor, the code slice and the parameters (20_memory.md R43). -/
theorem memWrite_restKept (x : Int) (wide : Bool) (v : Word) (s : State) : RestKept s (memWrite x wide v s) :=
  ⟨memWrite_cursor x wide v s, memWrite_code x wide v s, memWrite_params x wide v s⟩

/-- Settles O12: each stored cell holds its byte of `v`, and the frame is that of `memWrite`. The low cell of a word is
not overwritten by the second store because `phys (addr + 1) ≠ phys addr`, at the wrap included (20_memory.md R43). -/
theorem memWriteTouchesItsCellsOnly : Obligations.MemWriteTouchesItsCellsOnly := by
  intro s addr wide v hw
  refine ⟨?low, ?high, ?outside, memWrite_regs addr wide v s, memWrite_restKept addr wide v s⟩
  case low => rw [memWrite_get_low hw, lowByte_toNat]
  case high =>
    rintro rfl
    rw [memWrite_get_high hw, highByte_toNat]
  case outside => exact fun _ h0 h1 => memWrite_get_ne addr wide v s h0 h1

end Sys2Proof.Proofs
end

section

namespace Sys2Proof.Proofs

open Sys2Proof.Machine Sys2Proof.Claim

/-! ### The flag unit's word read at PF, ZF and SF (44_flag_unit.md R252; bit positions 10_state.md R17) -/

/-- A bit of the unit's word is the preserved bit or the one flag that sits there. -/
theorem flagUnit_getLsbD (fn : AluFn) (a b : Int) (w : OpWidth) (f : Word) (k : Nat) :
    (flagUnit fn a b w f).getLsbD k =
      ((f.getLsbD k && preservedFlags.getLsbD k)
        || (carryOut fn a b w && (0x0001 : Word).getLsbD k) || (parityOut fn a b && (0x0004 : Word).getLsbD k)
        || (auxOut fn a b && (0x0010 : Word).getLsbD k) || (zeroOut fn a b && (0x0040 : Word).getLsbD k)
        || (signOut fn a b && (0x0080 : Word).getLsbD k) || (overflowOut fn a b w && (0x0800 : Word).getLsbD k)) := by
  simp only [flagUnit, BitVec.getLsbD_or, BitVec.getLsbD_and, flagWord_getLsbD]

theorem flagUnit_getLsbD_pf (fn : AluFn) (a b : Int) (w : OpWidth) (f : Word) :
    (flagUnit fn a b w f).getLsbD 2 = parityOut fn a b := by
  rw [flagUnit_getLsbD]
  simp [preservedFlags]

theorem flagUnit_getLsbD_zf (fn : AluFn) (a b : Int) (w : OpWidth) (f : Word) :
    (flagUnit fn a b w f).getLsbD 6 = zeroOut fn a b := by
  rw [flagUnit_getLsbD]
  simp [preservedFlags]

theorem flagUnit_getLsbD_sf (fn : AluFn) (a b : Int) (w : OpWidth) (f : Word) :
    (flagUnit fn a b w f).getLsbD 7 = signOut fn a b := by
  rw [flagUnit_getLsbD]
  simp [preservedFlags]

/-! ### The unit's formulas on the integer result -/

/-- The unit's `r` is the sum or the difference (44_flag_unit.md R245). -/
theorem unitFn_apply (isAdd : Bool) (a b : Int) : (unitFn isAdd).apply a b = sumOrDifference isAdd a b := by
  cases isAdd <;> rfl

/-- Even parity counts the 1 bits of `r mod 256` (44_flag_unit.md R247). -/
theorem parity8_eq_countP (r : Int) :
    parity8 r = decide (((List.range 8).countP fun k => (r % 256).toNat.testBit k) % 2 = 0) := by
  have hbit (k : Nat) : (BitVec.ofInt 8 r).getLsbD k = (r % 256).toNat.testBit k := by
    rw [← BitVec.testBit_toNat, BitVec.toNat_ofInt]
    rfl
  simp only [parity8, onesCount, hbit, List.countP_eq_length_filter]
  rfl

/-- Bit 15 of `r` is set when the upper half of the word range holds `r mod 65536` (44_flag_unit.md R249). -/
theorem ofInt_getLsbD_15 (r : Int) : (BitVec.ofInt 16 r).getLsbD 15 = decide (32768 ≤ r % 65536) := by
  have hmsb : (BitVec.ofInt 16 r).getLsbD 15 = (BitVec.ofInt 16 r).msb := BitVec.msb_eq_getLsbD_last _ |>.symm
  rw [hmsb, BitVec.msb_eq_decide, BitVec.toNat_ofInt, decide_eq_decide]
  omega

/-- Settles O17: each of the three bits of the word is its formula, and each formula depends on `r` alone, so the width
and the incoming flags drop out. -/
theorem flagUnitParityZeroSign : Obligations.FlagUnitParityZeroSign := by
  intro isAdd a b w flagsIn
  refine ⟨?pf, ?zf, ?sf⟩
  case pf => rw [flagUnit_getLsbD_pf, parityOut, unitFn_apply, parity8_eq_countP]
  case zf => rw [flagUnit_getLsbD_zf, zeroOut, unitFn_apply]
  case sf => rw [flagUnit_getLsbD_sf, signOut, unitFn_apply, ofInt_getLsbD_15]

end Sys2Proof.Proofs
end

section

namespace Sys2Proof.Proofs

open Sys2Proof.Machine Sys2Proof.Claim

/-! ### Reading an encoding back, format by format (30_encoding.md R71, R72) -/

/-- The `sr` field is the low part of the middle field (30_encoding.md R71). -/
theorem srBits_eq_setWidth_regBits : ∀ b : Byte, srBits b = (regBits b).setWidth 2 := by decide

theorem readRM_encode {make : Bool → Bool → RegField → RegMem → Instr} {b0 : Byte} {d w : Bool}
    (hd : b0.getLsbD 1 = d) (hw : b0.getLsbD 0 = w) (reg : RegField) {rm : RegMem} (h : rm.wellFormed = true)
    (rest : List Byte) :
    readRM make b0 (encodeRegMem reg.toBits rm ++ rest) = .ok (make d w reg rm, rest) := by
  obtain ⟨b1, tail, he, hreg, hrm⟩ := readRegMem_encode reg.toBits rm h rest
  simp only [readRM, he, List.cons_append, readByte_cons, readThen_ok, hrm, hreg, hd, hw, RegField.ofBits_toBits]

theorem classify_8E : classify 0x8E = some .movRegisterOrMemoryToSegmentRegister := by decide

theorem classify_8C : classify 0x8C = some .movSegmentRegisterToRegisterOrMemory := by decide

theorem readSR_encode {make : SegField → RegMem → Instr} (sr : SegField) {rm : RegMem} (h : rm.wellFormed = true)
    (rest : List Byte) :
    readSR make (encodeRegMem (sr.toBits.setWidth 3) rm ++ rest) = .ok (make sr rm, rest) := by
  obtain ⟨b1, tail, he, hreg, hrm⟩ := readRegMem_encode (sr.toBits.setWidth 3) rm h rest
  have hsr : SegField.ofBits (srBits b1) = sr := by
    rw [srBits_eq_setWidth_regBits, hreg]
    cases sr <;> rfl
  simp only [readSR, he, List.cons_append, readByte_cons, readThen_ok, hrm, hsr]

theorem readMovImmediate_encode {rm : RegMem} (h : rm.wellFormed = true) {imm : Imm} {b0 : Byte}
    (hw : b0.getLsbD 0 = imm.wide) (rest : List Byte) :
    readMovImmediate b0 (encodeRegMem 0 rm ++ encodeImm imm ++ rest) =
      .ok (.movImmediateToRegisterOrMemory rm imm, rest) := by
  obtain ⟨b1, tail, he, -, hrm⟩ := readRegMem_encode 0 rm h (encodeImm imm ++ rest)
  simp only [readMovImmediate, he, List.cons_append, List.append_assoc, readByte_cons, readThen_ok, hrm, hw,
    readImm_encode]

theorem readRmImm_encode {make : RegMem → ArithImm → Instr} {b1 : Byte} {bs : List Byte} {rm : RegMem} {imm : ArithImm}
    {rest : List Byte} (hrm : readRegMem b1 bs = .ok (rm, encodeArithImm imm ++ rest)) :
    readRmImm make (arithOpcode imm) b1 bs = .ok (make rm imm, rest) := by
  simp only [readRmImm, hrm, readThen_ok, readArithImm_encode]

theorem readAI_encode {make : Imm → Instr} {imm : Imm} {b0 : Byte} (hw : b0.getLsbD 0 = imm.wide) (rest : List Byte) :
    readAI make b0 (encodeImm imm ++ rest) = .ok (make imm, rest) := by
  simp only [readAI, hw, readImm_encode, readThen_ok]

theorem readAM_encode {narrow w : Bool} {make : Bool → AccAddr → Instr} {addr : AccAddr} {b0 : Byte}
    (hw : b0.getLsbD 0 = w) (h : addr.wellFormed narrow w = true) (rest : List Byte) :
    readAM narrow make b0 (encodeAccAddr addr ++ rest) = .ok (make w addr, rest) := by
  simp only [readAM, hw, readAccAddr_encode h, readThen_ok]

/-- The first byte of format RI: its class, `w` and `reg` (30_encoding.md R71, R74). -/
theorem opcodeByte_formatRI (reg : RegField) (w : Bool) :
    classify (0xB0 ||| (if w then 8 else 0) ||| reg.toBits.setWidth 8) = some .movImmediateToRegister ∧
    ((0xB0 : Byte) ||| (if w then 8 else 0) ||| reg.toBits.setWidth 8).getLsbD 3 = w ∧
    RegField.ofBits (rmBits (0xB0 ||| (if w then 8 else 0) ||| reg.toBits.setWidth 8)) = reg := by
  cases reg <;> cases w <;> decide

theorem readMovRegImmediate_encode {reg : RegField} {imm : Imm} {b0 : Byte} (hw : b0.getLsbD 3 = imm.wide)
    (hreg : RegField.ofBits (rmBits b0) = reg) (rest : List Byte) :
    readMovRegImmediate b0 (encodeImm imm ++ rest) = .ok (.movImmediateToRegister reg imm, rest) := by
  simp only [readMovRegImmediate, hw, hreg, readImm_encode, readThen_ok]

/-- The three sub-opcodes of `100000sw` with the instruction each resolves to (30_encoding.md R78). -/
def subOpcodes : List (BitVec 3 × (RegMem → ArithImm → Instr)) :=
  [(0, .addImmediateToRegisterOrMemory), (5, .subImmediateFromRegisterOrMemory),
    (7, .cmpImmediateWithRegisterOrMemory)]

/-- Format RMI-A: the middle field of the ModR/M byte resolves the sub-opcode (30_encoding.md R78). -/
theorem decode_arithmeticImmediate_encode (narrow : Bool) {rm : RegMem} (h : rm.wellFormed = true) (imm : ArithImm)
    (rest : List Byte) {mid : BitVec 3} {form : RegMem → ArithImm → Instr}
    (hform : (mid, form) ∈ subOpcodes) :
    decode narrow (arithOpcode imm :: (encodeRegMem mid rm ++ encodeArithImm imm) ++ rest) = .ok (form rm imm, rest) := by
  obtain ⟨b1, tail, he, hreg, hrm⟩ := readRegMem_encode mid rm h (encodeArithImm imm ++ rest)
  rw [List.cons_append, decode_cons (classify_arithOpcode imm), he]
  simp only [subOpcodes, List.mem_cons, Prod.mk.injEq, List.not_mem_nil, or_false] at hform
  obtain ⟨rfl, rfl⟩ | ⟨rfl, rfl⟩ | ⟨rfl, rfl⟩ := hform <;>
    simp [readFields, readArithmeticImmediate, hreg, resolveArith, readRmImm_encode hrm]

/-- Settles O1: the first byte is classified back to its class, and the class's field reader reads the fields back. -/
theorem decodeInvertsEncode : Obligations.DecodeInvertsEncode := by
  intro narrow i rest h
  cases i
  case movNormal d w reg rm =>
    obtain ⟨hcls, -, -, -, hbits⟩ := opcodeByte_formatRM d w
    obtain ⟨hd, hw⟩ := hbits 0x88 (by simp)
    exact (decode_cons hcls narrow _).trans (readRM_encode hd hw reg h rest)
  case addNormal d w reg rm =>
    obtain ⟨-, hcls, -, -, hbits⟩ := opcodeByte_formatRM d w
    obtain ⟨hd, hw⟩ := hbits 0x00 (by simp)
    exact (decode_cons hcls narrow _).trans (readRM_encode hd hw reg h rest)
  case subNormal d w reg rm =>
    obtain ⟨-, -, hcls, -, hbits⟩ := opcodeByte_formatRM d w
    obtain ⟨hd, hw⟩ := hbits 0x28 (by simp)
    exact (decode_cons hcls narrow _).trans (readRM_encode hd hw reg h rest)
  case cmpNormal d w reg rm =>
    obtain ⟨-, -, -, hcls, hbits⟩ := opcodeByte_formatRM d w
    obtain ⟨hd, hw⟩ := hbits 0x38 (by simp)
    exact (decode_cons hcls narrow _).trans (readRM_encode hd hw reg h rest)
  case movImmediateToRegisterOrMemory rm imm =>
    obtain ⟨hcls, -, -, -, -, -, hw⟩ := opcodeByte_w imm.wide
    exact (decode_cons hcls narrow _).trans (readMovImmediate_encode h (hw _ (by simp)) rest)
  case movMemoryToAccumulator w addr =>
    obtain ⟨-, hcls, -, -, -, -, hw⟩ := opcodeByte_w w
    exact (decode_cons hcls narrow _).trans (readAM_encode (hw _ (by simp)) h rest)
  case movAccumulatorToMemory w addr =>
    obtain ⟨-, -, hcls, -, -, -, hw⟩ := opcodeByte_w w
    exact (decode_cons hcls narrow _).trans (readAM_encode (hw _ (by simp)) h rest)
  case addImmediateToAccumulator imm =>
    obtain ⟨-, -, -, hcls, -, -, hw⟩ := opcodeByte_w imm.wide
    exact (decode_cons hcls narrow _).trans (readAI_encode (hw _ (by simp)) rest)
  case subImmediateFromAccumulator imm =>
    obtain ⟨-, -, -, -, hcls, -, hw⟩ := opcodeByte_w imm.wide
    exact (decode_cons hcls narrow _).trans (readAI_encode (hw _ (by simp)) rest)
  case cmpImmediateWithAccumulator imm =>
    obtain ⟨-, -, -, -, -, hcls, hw⟩ := opcodeByte_w imm.wide
    exact (decode_cons hcls narrow _).trans (readAI_encode (hw _ (by simp)) rest)
  case movImmediateToRegister reg imm =>
    obtain ⟨hcls, hw, hreg⟩ := opcodeByte_formatRI reg imm.wide
    exact (decode_cons hcls narrow _).trans (readMovRegImmediate_encode hw hreg rest)
  case movRegisterOrMemoryToSegmentRegister sr rm =>
    exact (decode_cons classify_8E narrow _).trans (readSR_encode sr h rest)
  case movSegmentRegisterToRegisterOrMemory sr rm =>
    exact (decode_cons classify_8C narrow _).trans (readSR_encode sr h rest)
  case addImmediateToRegisterOrMemory rm imm =>
    exact decode_arithmeticImmediate_encode narrow h imm rest (by simp [subOpcodes])
  case subImmediateFromRegisterOrMemory rm imm =>
    exact decode_arithmeticImmediate_encode narrow h imm rest (by simp [subOpcodes])
  case cmpImmediateWithRegisterOrMemory rm imm =>
    exact decode_arithmeticImmediate_encode narrow h imm rest (by simp [subOpcodes])
  all_goals rfl

/-- Settles O10: each string is the encoding of its instruction. -/
theorem sourceExamplesDecode : Obligations.SourceExamplesDecode := by
  intro narrow
  have h {i : Instr} {bs : List Byte} (hbs : encode i ++ [] = bs) (hi : i.wellFormed narrow = true) :
      decode narrow bs = .ok (i, []) := hbs ▸ decodeInvertsEncode narrow i [] hi
  exact ⟨h rfl rfl, h rfl rfl, h rfl rfl, h rfl rfl, h rfl rfl, h rfl rfl, h rfl rfl, h rfl rfl⟩

end Sys2Proof.Proofs
end

section

namespace Sys2Proof.Proofs

open Sys2Proof.Machine Sys2Proof.Claim

/-! ### What a successful reading of each format read (40_decoder.md R126 to R133) -/

theorem readRM_eq_ok {make : Bool → Bool → RegField → RegMem → Instr} {b0 : Byte} {bs rest : List Byte} {i : Instr}
    (h : readRM make b0 bs = .ok (i, rest)) :
    ∃ b1 tail rm, bs = b1 :: tail ∧ readRegMem b1 tail = .ok (rm, rest) ∧
      i = make (b0.getLsbD 1) (b0.getLsbD 0) (RegField.ofBits (regBits b1)) rm := by
  simp only [readRM, readThen_eq_ok, readByte_eq_ok, Except.ok.injEq, Prod.mk.injEq] at h
  obtain ⟨b1, tail, rfl, rm, _, hrm, rfl, rfl⟩ := h
  exact ⟨b1, tail, rm, rfl, hrm, rfl⟩

theorem readSR_eq_ok {make : SegField → RegMem → Instr} {bs rest : List Byte} {i : Instr}
    (h : readSR make bs = .ok (i, rest)) :
    ∃ b1 tail rm, bs = b1 :: tail ∧ readRegMem b1 tail = .ok (rm, rest) ∧ i = make (SegField.ofBits (srBits b1)) rm := by
  simp only [readSR, readThen_eq_ok, readByte_eq_ok, Except.ok.injEq, Prod.mk.injEq] at h
  obtain ⟨b1, tail, rfl, rm, _, hrm, rfl, rfl⟩ := h
  exact ⟨b1, tail, rm, rfl, hrm, rfl⟩

theorem readMovImmediate_eq_ok {b0 : Byte} {bs rest : List Byte} {i : Instr}
    (h : readMovImmediate b0 bs = .ok (i, rest)) :
    ∃ b1 tail rm tail' imm, bs = b1 :: tail ∧ readRegMem b1 tail = .ok (rm, tail') ∧
      readImm (b0.getLsbD 0) tail' = .ok (imm, rest) ∧ i = .movImmediateToRegisterOrMemory rm imm := by
  simp only [readMovImmediate, readThen_eq_ok, readByte_eq_ok, Except.ok.injEq, Prod.mk.injEq] at h
  obtain ⟨b1, tail, rfl, rm, tail', hrm, imm, _, himm, rfl, rfl⟩ := h
  exact ⟨b1, tail, rm, tail', imm, rfl, hrm, himm, rfl⟩

theorem readRmImm_eq_ok {make : RegMem → ArithImm → Instr} {b0 b1 : Byte} {bs rest : List Byte} {i : Instr}
    (h : readRmImm make b0 b1 bs = .ok (i, rest)) :
    ∃ rm tail imm, readRegMem b1 bs = .ok (rm, tail) ∧
      readArithImm (b0.getLsbD 1) (b0.getLsbD 0) tail = .ok (imm, rest) ∧ i = make rm imm := by
  simp only [readRmImm, readThen_eq_ok, Except.ok.injEq, Prod.mk.injEq] at h
  obtain ⟨rm, tail, hrm, imm, _, himm, rfl, rfl⟩ := h
  exact ⟨rm, tail, imm, hrm, himm, rfl⟩

/-- Format RMI-A after `b1`: one of the three sub-opcodes, or the error (30_encoding.md R78). -/
theorem readArithmeticImmediate_cons (b0 b1 : Byte) (bs : List Byte) :
    (∃ form ∈ subOpcodes, regBits b1 = form.1 ∧ readArithmeticImmediate b0 (b1 :: bs) = readRmImm form.2 b0 b1 bs) ∨
    (regBits b1 ∉ subOpcodes.map Prod.fst ∧
      readArithmeticImmediate b0 (b1 :: bs) = .error .unrecognizedOpcode) := by
  have hsub : ∀ sub : BitVec 3, sub = 0 ∨ sub = 5 ∨ sub = 7 ∨
      (sub ∉ [(0 : BitVec 3), 5, 7] ∧ resolveArith sub = none) := by decide
  simp only [readArithmeticImmediate, readByte_cons, readThen_ok]
  rcases hsub (regBits b1) with h | h | h | ⟨hne, h⟩
  · exact .inl ⟨_, List.mem_cons_self, h, by rw [h]; rfl⟩
  · exact .inl ⟨_, List.mem_cons_of_mem _ List.mem_cons_self, h, by rw [h]; rfl⟩
  · exact .inl ⟨_, List.mem_cons_of_mem _ (List.mem_cons_of_mem _ List.mem_cons_self), h, by rw [h]; rfl⟩
  · exact .inr ⟨hne, by rw [h]⟩

theorem readArithmeticImmediate_eq_ok {b0 : Byte} {bs rest : List Byte} {i : Instr}
    (h : readArithmeticImmediate b0 bs = .ok (i, rest)) :
    ∃ b1 tail, bs = b1 :: tail ∧ ∃ form ∈ subOpcodes, regBits b1 = form.1 ∧
      readRmImm form.2 b0 b1 tail = .ok (i, rest) := by
  cases bs with
  | nil => cases h
  | cons b1 tail =>
    rcases readArithmeticImmediate_cons b0 b1 tail with ⟨form, hmem, hreg, hread⟩ | ⟨-, hread⟩
    · exact ⟨b1, tail, rfl, form, hmem, hreg, hread ▸ h⟩
    · rw [hread] at h
      cases h

theorem readMovRegImmediate_eq_ok {b0 : Byte} {bs rest : List Byte} {i : Instr}
    (h : readMovRegImmediate b0 bs = .ok (i, rest)) :
    ∃ imm, readImm (b0.getLsbD 3) bs = .ok (imm, rest) ∧
      i = .movImmediateToRegister (RegField.ofBits (rmBits b0)) imm := by
  simp only [readMovRegImmediate, readThen_eq_ok, Except.ok.injEq, Prod.mk.injEq] at h
  obtain ⟨imm, _, himm, rfl, rfl⟩ := h
  exact ⟨imm, himm, rfl⟩

theorem readAI_eq_ok {make : Imm → Instr} {b0 : Byte} {bs rest : List Byte} {i : Instr}
    (h : readAI make b0 bs = .ok (i, rest)) : ∃ imm, readImm (b0.getLsbD 0) bs = .ok (imm, rest) ∧ i = make imm := by
  simp only [readAI, readThen_eq_ok, Except.ok.injEq, Prod.mk.injEq] at h
  obtain ⟨imm, _, himm, rfl, rfl⟩ := h
  exact ⟨imm, himm, rfl⟩

theorem readAM_eq_ok {narrow : Bool} {make : Bool → AccAddr → Instr} {b0 : Byte} {bs rest : List Byte} {i : Instr}
    (h : readAM narrow make b0 bs = .ok (i, rest)) :
    ∃ addr, readAccAddr narrow (b0.getLsbD 0) bs = .ok (addr, rest) ∧ i = make (b0.getLsbD 0) addr := by
  simp only [readAM, readThen_eq_ok, Except.ok.injEq, Prod.mk.injEq] at h
  obtain ⟨addr, _, haddr, rfl, rfl⟩ := h
  exact ⟨addr, haddr, rfl⟩

theorem readJ8_eq_ok {make : Byte → Instr} {bs rest : List Byte} {i : Instr} (h : readJ8 make bs = .ok (i, rest)) :
    ∃ disp, bs = disp :: rest ∧ i = make disp := by
  simp only [readJ8, readThen_eq_ok, readByte_eq_ok, Except.ok.injEq, Prod.mk.injEq] at h
  obtain ⟨disp, _, rfl, rfl, rfl⟩ := h
  exact ⟨disp, rfl, rfl⟩

/-! ### What is read is well formed and as long as its size (40_decoder.md R145) -/

/-- `i` is well formed, and the bytes read after its first one are as many as its size says. -/
def ReadWhole (narrow : Bool) (bs rest : List Byte) (i : Instr) : Prop :=
  i.wellFormed narrow = true ∧ ∃ pre, bs = pre ++ rest ∧ 1 + pre.length = i.size

theorem readWhole_readRM {narrow : Bool} {make : Bool → Bool → RegField → RegMem → Instr}
    (hwf : ∀ d w reg rm, (make d w reg rm).wellFormed narrow = rm.wellFormed)
    (hsize : ∀ d w reg rm, (make d w reg rm).size = 2 + rm.dispLen)
    {b0 : Byte} {bs rest : List Byte} {i : Instr} (h : readRM make b0 bs = .ok (i, rest)) :
    ReadWhole narrow bs rest i := by
  obtain ⟨b1, tail, rm, rfl, hrm, rfl⟩ := readRM_eq_ok h
  obtain ⟨hrmwf, pre, rfl, hlen⟩ := readRegMem_eq_ok hrm
  refine ⟨(hwf ..).trans hrmwf, b1 :: pre, rfl, ?_⟩
  rw [hsize, List.length_cons, hlen]
  omega

theorem readWhole_readSR {narrow : Bool} {make : SegField → RegMem → Instr}
    (hwf : ∀ sr rm, (make sr rm).wellFormed narrow = rm.wellFormed)
    (hsize : ∀ sr rm, (make sr rm).size = 2 + rm.dispLen)
    {bs rest : List Byte} {i : Instr} (h : readSR make bs = .ok (i, rest)) : ReadWhole narrow bs rest i := by
  obtain ⟨b1, tail, rm, rfl, hrm, rfl⟩ := readSR_eq_ok h
  obtain ⟨hrmwf, pre, rfl, hlen⟩ := readRegMem_eq_ok hrm
  refine ⟨(hwf ..).trans hrmwf, b1 :: pre, rfl, ?_⟩
  rw [hsize, List.length_cons, hlen]
  omega

theorem readWhole_readMovImmediate {narrow : Bool} {b0 : Byte} {bs rest : List Byte} {i : Instr}
    (h : readMovImmediate b0 bs = .ok (i, rest)) : ReadWhole narrow bs rest i := by
  obtain ⟨b1, tail, rm, tail', imm, rfl, hrm, himm, rfl⟩ := readMovImmediate_eq_ok h
  obtain ⟨hrmwf, pre, rfl, hlen⟩ := readRegMem_eq_ok hrm
  obtain ⟨-, pre', rfl, hlen'⟩ := readImm_eq_ok himm
  refine ⟨hrmwf, b1 :: pre ++ pre', by simp, ?_⟩
  simp only [List.length_append, List.length_cons, hlen, hlen', Instr.size]
  omega

theorem readWhole_readArithmeticImmediate {narrow : Bool} {b0 : Byte} {bs rest : List Byte} {i : Instr}
    (h : readArithmeticImmediate b0 bs = .ok (i, rest)) : ReadWhole narrow bs rest i := by
  obtain ⟨b1, tail, rfl, form, hform, -, h⟩ := readArithmeticImmediate_eq_ok h
  obtain ⟨rm, tail', imm, hrm, himm, rfl⟩ := readRmImm_eq_ok h
  obtain ⟨hrmwf, pre, rfl, hlen⟩ := readRegMem_eq_ok hrm
  obtain ⟨pre', rfl, hlen'⟩ := readArithImm_eq_ok himm
  have hmake : (form.2 rm imm).wellFormed narrow = rm.wellFormed ∧ (form.2 rm imm).size = 2 + rm.dispLen + imm.len := by
    simp only [subOpcodes, List.mem_cons, List.not_mem_nil, or_false] at hform
    obtain rfl | rfl | rfl := hform <;> exact ⟨rfl, rfl⟩
  refine ⟨hmake.1.trans hrmwf, b1 :: pre ++ pre', by simp, ?_⟩
  rw [hmake.2, List.length_append, List.length_cons, hlen, hlen']
  omega

theorem readWhole_readMovRegImmediate {narrow : Bool} {b0 : Byte} {bs rest : List Byte} {i : Instr}
    (h : readMovRegImmediate b0 bs = .ok (i, rest)) : ReadWhole narrow bs rest i := by
  obtain ⟨imm, himm, rfl⟩ := readMovRegImmediate_eq_ok h
  obtain ⟨-, pre, rfl, hlen⟩ := readImm_eq_ok himm
  exact ⟨rfl, pre, rfl, by rw [hlen, Instr.size]⟩

theorem readWhole_readAI {narrow : Bool} {make : Imm → Instr} (hwf : ∀ imm, (make imm).wellFormed narrow = true)
    (hsize : ∀ imm, (make imm).size = 1 + imm.len) {b0 : Byte} {bs rest : List Byte} {i : Instr}
    (h : readAI make b0 bs = .ok (i, rest)) : ReadWhole narrow bs rest i := by
  obtain ⟨imm, himm, rfl⟩ := readAI_eq_ok h
  obtain ⟨-, pre, rfl, hlen⟩ := readImm_eq_ok himm
  exact ⟨hwf imm, pre, rfl, by rw [hlen, hsize]⟩

theorem readWhole_readAM {narrow : Bool} {make : Bool → AccAddr → Instr}
    (hwf : ∀ w addr, (make w addr).wellFormed narrow = addr.wellFormed narrow w)
    (hsize : ∀ w addr, (make w addr).size = 1 + addr.len) {b0 : Byte} {bs rest : List Byte} {i : Instr}
    (h : readAM narrow make b0 bs = .ok (i, rest)) : ReadWhole narrow bs rest i := by
  obtain ⟨addr, haddr, rfl⟩ := readAM_eq_ok h
  obtain ⟨hawf, pre, rfl, hlen⟩ := readAccAddr_eq_ok haddr
  exact ⟨(hwf ..).trans hawf, pre, rfl, by rw [hlen, hsize]⟩

theorem readWhole_readJ8 {narrow : Bool} {make : Byte → Instr} (hwf : ∀ disp, (make disp).wellFormed narrow = true)
    (hsize : ∀ disp, (make disp).size = 2) {bs rest : List Byte} {i : Instr} (h : readJ8 make bs = .ok (i, rest)) :
    ReadWhole narrow bs rest i := by
  obtain ⟨disp, rfl, rfl⟩ := readJ8_eq_ok h
  exact ⟨hwf disp, [disp], rfl, (hsize disp).symm⟩

theorem readWhole_readFields {narrow : Bool} {cls : OpcodeClass} {b0 : Byte} {bs rest : List Byte} {i : Instr}
    (h : readFields narrow cls b0 bs = .ok (i, rest)) : ReadWhole narrow bs rest i := by
  cases cls
  case movNormal => exact readWhole_readRM (fun _ _ _ _ => rfl) (fun _ _ _ _ => rfl) h
  case addNormal => exact readWhole_readRM (fun _ _ _ _ => rfl) (fun _ _ _ _ => rfl) h
  case subNormal => exact readWhole_readRM (fun _ _ _ _ => rfl) (fun _ _ _ _ => rfl) h
  case cmpNormal => exact readWhole_readRM (fun _ _ _ _ => rfl) (fun _ _ _ _ => rfl) h
  case movImmediateToRegisterOrMemory => exact readWhole_readMovImmediate h
  case movImmediateToRegister => exact readWhole_readMovRegImmediate h
  case arithmeticImmediate => exact readWhole_readArithmeticImmediate h
  case movMemoryToAccumulator => exact readWhole_readAM (fun _ _ => rfl) (fun _ _ => rfl) h
  case movAccumulatorToMemory => exact readWhole_readAM (fun _ _ => rfl) (fun _ _ => rfl) h
  case movRegisterOrMemoryToSegmentRegister => exact readWhole_readSR (fun _ _ => rfl) (fun _ _ => rfl) h
  case movSegmentRegisterToRegisterOrMemory => exact readWhole_readSR (fun _ _ => rfl) (fun _ _ => rfl) h
  case addImmediateToAccumulator => exact readWhole_readAI (fun _ => rfl) (fun _ => rfl) h
  case subImmediateFromAccumulator => exact readWhole_readAI (fun _ => rfl) (fun _ => rfl) h
  case cmpImmediateWithAccumulator => exact readWhole_readAI (fun _ => rfl) (fun _ => rfl) h
  case addImmediateToRegisterOrMemory => cases h
  case subImmediateFromRegisterOrMemory => cases h
  case cmpImmediateWithRegisterOrMemory => cases h
  case nop =>
    cases h
    exact ⟨rfl, [], rfl, rfl⟩
  all_goals exact readWhole_readJ8 (fun _ => rfl) (fun _ => rfl) h

/-- A decode that answers an instruction classified the first byte and read the fields of its class (40_decoder.md R122). -/
theorem decode_eq_ok {narrow : Bool} {bs rest : List Byte} {i : Instr} (h : decode narrow bs = .ok (i, rest)) :
    ∃ b0 tail cls, bs = b0 :: tail ∧ classify b0 = some cls ∧ readFields narrow cls b0 tail = .ok (i, rest) := by
  simp only [decode, readThen_eq_ok, readByte_eq_ok] at h
  obtain ⟨b0, tail, rfl, h⟩ := h
  cases hcls : classify b0 with
  | none => simp [hcls] at h
  | some cls => exact ⟨b0, tail, cls, rfl, hcls, by simpa [hcls] using h⟩

theorem decode_wellFormed {narrow : Bool} {bs rest : List Byte} {i : Instr} (h : decode narrow bs = .ok (i, rest)) :
    i.wellFormed narrow = true := by
  obtain ⟨b0, tail, cls, -, -, h⟩ := decode_eq_ok h
  exact (readWhole_readFields h).1

theorem decode_consumes_size {narrow : Bool} {bs rest : List Byte} {i : Instr} (h : decode narrow bs = .ok (i, rest)) :
    ∃ consumed, bs = consumed ++ rest ∧ consumed.length = i.size := by
  obtain ⟨b0, tail, cls, rfl, -, h⟩ := decode_eq_ok h
  obtain ⟨-, pre, rfl, hlen⟩ := readWhole_readFields h
  exact ⟨b0 :: pre, rfl, by rw [← hlen, List.length_cons]; omega⟩

/-- Settles O2: each format's reader answers well-formed operands only. -/
theorem decodedInstructionsAreWellFormed : Obligations.DecodedInstructionsAreWellFormed :=
  fun _ _ _ _ h => decode_wellFormed h

theorem sized (i : Instr) : Laws.Sized.Statement i := by
  cases i
  case movNormal => exact Laws.Sized.movNormal ..
  case movImmediateToRegisterOrMemory => exact Laws.Sized.movImmediateToRegisterOrMemory ..
  case movImmediateToRegister => exact Laws.Sized.movImmediateToRegister ..
  case movMemoryToAccumulator => exact Laws.Sized.movMemoryToAccumulator ..
  case movAccumulatorToMemory => exact Laws.Sized.movAccumulatorToMemory ..
  case movRegisterOrMemoryToSegmentRegister => exact Laws.Sized.movRegisterOrMemoryToSegmentRegister ..
  case movSegmentRegisterToRegisterOrMemory => exact Laws.Sized.movSegmentRegisterToRegisterOrMemory ..
  case addNormal => exact Laws.Sized.addNormal ..
  case addImmediateToRegisterOrMemory => exact Laws.Sized.addImmediateToRegisterOrMemory ..
  case addImmediateToAccumulator => exact Laws.Sized.addImmediateToAccumulator ..
  case subNormal => exact Laws.Sized.subNormal ..
  case subImmediateFromRegisterOrMemory => exact Laws.Sized.subImmediateFromRegisterOrMemory ..
  case subImmediateFromAccumulator => exact Laws.Sized.subImmediateFromAccumulator ..
  case cmpNormal => exact Laws.Sized.cmpNormal ..
  case cmpImmediateWithRegisterOrMemory => exact Laws.Sized.cmpImmediateWithRegisterOrMemory ..
  case cmpImmediateWithAccumulator => exact Laws.Sized.cmpImmediateWithAccumulator ..
  case nop => exact Laws.Sized.nop
  all_goals exact Laws.Sized.of_two rfl rfl

/-- Settles O3: the readers of a format consume the bytes its size counts, and `build` copies its address through. -/
theorem decodeConsumesItsSizeInBytes : Obligations.DecodeConsumesItsSizeInBytes := by
  intro narrow bs rest i h
  obtain ⟨-, hpos, hle⟩ := sized i
  exact ⟨decode_consumes_size h, hpos, hle, fun _ _ => ⟨rfl, rfl, rfl⟩⟩

/-! ### Decode as a reader: exact, and within six bytes (40_decoder.md R121) -/

open Reader

/-- A law of readers that every format's reader has, `readFields` has for every class. -/
theorem readFields_of_formats {narrow : Bool} {cls : OpcodeClass} {b0 : Byte} {P : (List Byte → Reading Instr) → Prop}
    (hRM : ∀ make, P (readRM make b0)) (hSR : ∀ make, P (readSR make)) (hRMIM : P (readMovImmediate b0))
    (hRI : P (readMovRegImmediate b0)) (hRMIA : P (readArithmeticImmediate b0)) (hAI : ∀ make, P (readAI make b0))
    (hAM : ∀ make, P (readAM narrow make b0)) (hJ8 : ∀ make, P (readJ8 make)) (hnop : P fun bs => .ok (.nop, bs))
    (hresolved : P fun _ => .error .unrecognizedOpcode) : P (readFields narrow cls b0) := by
  cases cls
  case movNormal => exact hRM _
  case addNormal => exact hRM _
  case subNormal => exact hRM _
  case cmpNormal => exact hRM _
  case movImmediateToRegisterOrMemory => exact hRMIM
  case movImmediateToRegister => exact hRI
  case arithmeticImmediate => exact hRMIA
  case movMemoryToAccumulator => exact hAM _
  case movAccumulatorToMemory => exact hAM _
  case movRegisterOrMemoryToSegmentRegister => exact hSR _
  case movSegmentRegisterToRegisterOrMemory => exact hSR _
  case addImmediateToAccumulator => exact hAI _
  case subImmediateFromAccumulator => exact hAI _
  case cmpImmediateWithAccumulator => exact hAI _
  case addImmediateToRegisterOrMemory => exact hresolved
  case subImmediateFromRegisterOrMemory => exact hresolved
  case cmpImmediateWithRegisterOrMemory => exact hresolved
  case nop => exact hnop
  all_goals exact hJ8 _

theorem exact_readRmImm (make : RegMem → ArithImm → Instr) (b0 b1 : Byte) : Exact (readRmImm make b0 b1) :=
  exact_then (exact_readRegMem b1) fun _ => exact_then (exact_readArithImm _ _) fun _ => exact_ok _

theorem exact_readArithmeticImmediate (b0 : Byte) : Exact (readArithmeticImmediate b0) := by
  refine exact_then exact_readByte fun b1 => ?_
  split
  · exact exact_readRmImm ..
  · exact exact_readRmImm ..
  · exact exact_readRmImm ..
  · exact exact_error _

theorem exact_readRM (make : Bool → Bool → RegField → RegMem → Instr) (b0 : Byte) : Exact (readRM make b0) :=
  exact_then exact_readByte fun b1 => exact_then (exact_readRegMem b1) fun _ => exact_ok _

theorem exact_readSR (make : SegField → RegMem → Instr) : Exact (readSR make) :=
  exact_then exact_readByte fun b1 => exact_then (exact_readRegMem b1) fun _ => exact_ok _

theorem exact_readMovImmediate (b0 : Byte) : Exact (readMovImmediate b0) :=
  exact_then exact_readByte fun b1 =>
    exact_then (exact_readRegMem b1) fun _ => exact_then (exact_readImm _) fun _ => exact_ok _

theorem exact_readMovRegImmediate (b0 : Byte) : Exact (readMovRegImmediate b0) :=
  exact_then (exact_readImm _) fun _ => exact_ok _

theorem exact_readAI (make : Imm → Instr) (b0 : Byte) : Exact (readAI make b0) :=
  exact_then (exact_readImm _) fun _ => exact_ok _

theorem exact_readAM (narrow : Bool) (make : Bool → AccAddr → Instr) (b0 : Byte) : Exact (readAM narrow make b0) :=
  exact_then (exact_readAccAddr _ _) fun _ => exact_ok _

theorem exact_readJ8 (make : Byte → Instr) : Exact (readJ8 make) :=
  exact_then exact_readByte fun _ => exact_ok _

theorem exact_readFields (narrow : Bool) (cls : OpcodeClass) (b0 : Byte) : Exact (readFields narrow cls b0) :=
  readFields_of_formats (fun _ => exact_readRM _ _) (fun _ => exact_readSR _) (exact_readMovImmediate _)
    (exact_readMovRegImmediate _) (exact_readArithmeticImmediate _) (fun _ => exact_readAI _ _)
    (fun _ => exact_readAM _ _ _) (fun _ => exact_readJ8 _) (exact_ok _) (exact_error _)

theorem exact_decode (narrow : Bool) : Exact (decode narrow) := by
  refine exact_then exact_readByte fun b0 => ?_
  split
  · exact exact_readFields ..
  · exact exact_error _

/-- Settles O5: decode is an exact reader, and the bytes it consumes are as many as the instruction's size says. -/
theorem truncatedInstructionsRaiseEndOfStream : Obligations.TruncatedInstructionsRaiseEndOfStream := by
  intro narrow bs rest i k h hk
  obtain ⟨consumed, hbs, hlen⟩ := decode_consumes_size h
  obtain ⟨pre, rfl, hshort⟩ := (exact_decode narrow).short _ _ _ h
  have hpre : pre = consumed := List.append_cancel_right hbs
  subst hpre
  rw [List.take_append_of_le_length (by omega)]
  exact hshort k (by omega)

/-! How many bytes each reader looks at. -/

theorem within_readWord : Within 2 readWord :=
  within_then within_readByte fun _ => within_then (m := 0) within_readByte fun _ => within_ok _ 0

theorem within_readRegMem (b1 : Byte) : Within 2 (readRegMem b1) := by
  unfold readRegMem
  split
  · exact within_ok _ 2
  · exact within_then (m := 0) within_readWord fun _ => within_ok _ 0
  · exact within_then within_readByte fun _ => within_ok _ 1
  · split
    · exact within_then (m := 0) within_readWord fun _ => within_ok _ 0
    · exact within_ok _ 2

theorem within_readImm (w : Bool) : Within 2 (readImm w) := by
  cases w
  · exact within_then within_readByte fun _ => within_ok _ 1
  · exact within_then (m := 0) within_readWord fun _ => within_ok _ 0

theorem within_readArithImm (s w : Bool) : Within 2 (readArithImm s w) := by
  cases w
  · cases s <;> exact within_then within_readByte fun _ => within_ok _ 1
  · cases s
    · exact within_then (m := 0) within_readWord fun _ => within_ok _ 0
    · exact within_then within_readByte fun _ => within_ok _ 1

theorem within_readAccAddr (narrow w : Bool) : Within 2 (readAccAddr narrow w) := by
  cases w
  · cases narrow
    · exact within_then (m := 0) within_readWord fun _ => within_ok _ 0
    · exact within_then within_readByte fun _ => within_ok _ 1
  · cases narrow <;> exact within_then (m := 0) within_readWord fun _ => within_ok _ 0

theorem within_readRmImm (make : RegMem → ArithImm → Instr) (b0 b1 : Byte) : Within 4 (readRmImm make b0 b1) :=
  within_then (within_readRegMem b1) fun _ =>
    within_then (m := 0) (within_readArithImm _ _) fun _ => within_ok _ 0

theorem within_readArithmeticImmediate (b0 : Byte) : Within 5 (readArithmeticImmediate b0) := by
  refine within_then (m := 4) within_readByte fun b1 => ?_
  split
  · exact within_readRmImm _ _ _
  · exact within_readRmImm _ _ _
  · exact within_readRmImm _ _ _
  · exact within_error _ 4

theorem within_readMovImmediate (b0 : Byte) : Within 5 (readMovImmediate b0) :=
  within_then (m := 4) within_readByte fun b1 =>
    within_then (within_readRegMem b1) fun _ => within_then (m := 0) (within_readImm _) fun _ => within_ok _ 0

theorem within_readRM (make : Bool → Bool → RegField → RegMem → Instr) (b0 : Byte) : Within 5 (readRM make b0) :=
  within_then (m := 4) within_readByte fun b1 => within_then (within_readRegMem b1) fun _ => within_ok _ 2

theorem within_readSR (make : SegField → RegMem → Instr) : Within 5 (readSR make) :=
  within_then (m := 4) within_readByte fun b1 => within_then (within_readRegMem b1) fun _ => within_ok _ 2

theorem within_readMovRegImmediate (b0 : Byte) : Within 5 (readMovRegImmediate b0) :=
  within_then (within_readImm _) fun _ => within_ok _ 3

theorem within_readAI (make : Imm → Instr) (b0 : Byte) : Within 5 (readAI make b0) :=
  within_then (within_readImm _) fun _ => within_ok _ 3

theorem within_readAM (narrow : Bool) (make : Bool → AccAddr → Instr) (b0 : Byte) : Within 5 (readAM narrow make b0) :=
  within_then (within_readAccAddr _ _) fun _ => within_ok _ 3

theorem within_readJ8 (make : Byte → Instr) : Within 5 (readJ8 make) :=
  within_then within_readByte fun _ => within_ok _ 4

theorem within_readFields (narrow : Bool) (cls : OpcodeClass) (b0 : Byte) : Within 5 (readFields narrow cls b0) :=
  readFields_of_formats (fun _ => within_readRM _ _) (fun _ => within_readSR _) (within_readMovImmediate _)
    (within_readMovRegImmediate _) (within_readArithmeticImmediate _) (fun _ => within_readAI _ _)
    (fun _ => within_readAM _ _ _) (fun _ => within_readJ8 _) (within_ok _ 5) (within_error _ 5)

theorem within_decode (narrow : Bool) : Within 6 (decode narrow) := by
  refine within_then (m := 5) within_readByte fun b0 => ?_
  split
  · exact within_readFields _ _ _
  · exact within_error _ 5

/-- Settles O6: decode looks at no more than the first six bytes, and what it leaves over is forgotten on both sides. -/
theorem decodeReadsAtMostSixBytes : Obligations.DecodeReadsAtMostSixBytes := by
  intro narrow bs
  rcases Nat.le_total bs.length 6 with hle | hle
  · rw [List.take_of_length_le hle]
  · have hsplit := (within_decode narrow (bs.take 6) (bs.drop 6) (by simp; omega)).1
    rw [List.take_append_drop] at hsplit
    rw [hsplit]
    cases decode narrow (bs.take 6) <;> rfl

end Sys2Proof.Proofs
end

section

namespace Sys2Proof.Proofs

open Sys2Proof.Machine Sys2Proof.Claim

/-! ### The first bytes (30_encoding.md R74, R76) -/

theorem classify_eq_none_iff : ∀ b0 : Byte, classify b0 = none ↔
    b0.toNat ∉ [0x00, 0x01, 0x02, 0x03, 0x04, 0x05, 0x28, 0x29, 0x2A, 0x2B, 0x2C, 0x2D, 0x38, 0x39, 0x3A, 0x3B, 0x3C, 0x3D,
      0x80, 0x81, 0x82, 0x83, 0x88, 0x89, 0x8A, 0x8B, 0x8C, 0x8E, 0x90, 0xA0, 0xA1, 0xA2, 0xA3, 0xC6, 0xC7,
      0xE0, 0xE1, 0xE2, 0xE3, 0xEB] ∧
    ¬ (0x70 ≤ b0.toNat ∧ b0.toNat ≤ 0x7F) ∧ ¬ (0xB0 ≤ b0.toNat ∧ b0.toNat ≤ 0xBF) := by
  decide

theorem classify_eq_arithmeticImmediate_iff : ∀ b0 : Byte,
    classify b0 = some .arithmeticImmediate ↔ b0.toNat / 4 = 0x20 := by
  decide

/-- The classifier never answers a class that only a sub-opcode resolves to (30_encoding.md R78). -/
theorem classify_ne_resolved : ∀ b0 : Byte,
    classify b0 ≠ some .addImmediateToRegisterOrMemory ∧ classify b0 ≠ some .subImmediateFromRegisterOrMemory ∧
    classify b0 ≠ some .cmpImmediateWithRegisterOrMemory := by
  decide

/-- The first bytes of format RM (30_encoding.md R72, R76). -/
theorem classify_formatRM : ∀ b0 : Byte,
    (b0.toNat / 4 = 0x22 → classify b0 = some .movNormal) ∧ (b0.toNat / 4 = 0x00 → classify b0 = some .addNormal) ∧
    (b0.toNat / 4 = 0x0A → classify b0 = some .subNormal) ∧ (b0.toNat / 4 = 0x0E → classify b0 = some .cmpNormal) := by
  decide

theorem classify_formatRI : ∀ b0 : Byte, b0.toNat / 16 = 0xB → classify b0 = some .movImmediateToRegister := by
  decide

/-! ### *UnrecognizedOpcode* (30_encoding.md R106) -/

open Reader

theorem neverUnrecognized_readImm (w : Bool) : NeverUnrecognized (readImm w) := by
  cases w
  · exact neverUnrecognized_then neverUnrecognized_readByte fun _ => neverUnrecognized_ok _
  · exact neverUnrecognized_then neverUnrecognized_readWord fun _ => neverUnrecognized_ok _

theorem neverUnrecognized_readArithImm (s w : Bool) : NeverUnrecognized (readArithImm s w) := by
  cases w
  · cases s <;> exact neverUnrecognized_then neverUnrecognized_readByte fun _ => neverUnrecognized_ok _
  · cases s
    · exact neverUnrecognized_then neverUnrecognized_readWord fun _ => neverUnrecognized_ok _
    · exact neverUnrecognized_then neverUnrecognized_readByte fun _ => neverUnrecognized_ok _

theorem neverUnrecognized_readAccAddr (narrow w : Bool) : NeverUnrecognized (readAccAddr narrow w) := by
  unfold readAccAddr
  split
  · exact neverUnrecognized_then neverUnrecognized_readWord fun _ => neverUnrecognized_ok _
  · exact neverUnrecognized_then neverUnrecognized_readByte fun _ => neverUnrecognized_ok _

theorem neverUnrecognized_readRM (make : Bool → Bool → RegField → RegMem → Instr) (b0 : Byte) :
    NeverUnrecognized (readRM make b0) :=
  neverUnrecognized_then neverUnrecognized_readByte fun b1 =>
    neverUnrecognized_then (neverUnrecognized_readRegMem b1) fun _ => neverUnrecognized_ok _

theorem neverUnrecognized_readSR (make : SegField → RegMem → Instr) : NeverUnrecognized (readSR make) :=
  neverUnrecognized_then neverUnrecognized_readByte fun b1 =>
    neverUnrecognized_then (neverUnrecognized_readRegMem b1) fun _ => neverUnrecognized_ok _

theorem neverUnrecognized_readMovImmediate (b0 : Byte) : NeverUnrecognized (readMovImmediate b0) :=
  neverUnrecognized_then neverUnrecognized_readByte fun b1 =>
    neverUnrecognized_then (neverUnrecognized_readRegMem b1) fun _ =>
      neverUnrecognized_then (neverUnrecognized_readImm _) fun _ => neverUnrecognized_ok _

theorem neverUnrecognized_readRmImm (make : RegMem → ArithImm → Instr) (b0 b1 : Byte) :
    NeverUnrecognized (readRmImm make b0 b1) :=
  neverUnrecognized_then (neverUnrecognized_readRegMem b1) fun _ =>
    neverUnrecognized_then (neverUnrecognized_readArithImm _ _) fun _ => neverUnrecognized_ok _

theorem neverUnrecognized_readMovRegImmediate (b0 : Byte) : NeverUnrecognized (readMovRegImmediate b0) :=
  neverUnrecognized_then (neverUnrecognized_readImm _) fun _ => neverUnrecognized_ok _

theorem neverUnrecognized_readAI (make : Imm → Instr) (b0 : Byte) : NeverUnrecognized (readAI make b0) :=
  neverUnrecognized_then (neverUnrecognized_readImm _) fun _ => neverUnrecognized_ok _

theorem neverUnrecognized_readAM (narrow : Bool) (make : Bool → AccAddr → Instr) (b0 : Byte) :
    NeverUnrecognized (readAM narrow make b0) :=
  neverUnrecognized_then (neverUnrecognized_readAccAddr _ _) fun _ => neverUnrecognized_ok _

theorem neverUnrecognized_readJ8 (make : Byte → Instr) : NeverUnrecognized (readJ8 make) :=
  neverUnrecognized_then neverUnrecognized_readByte fun _ => neverUnrecognized_ok _

/-- Once the first byte is classified, only format RMI-A can still be unrecognised (30_encoding.md R106). -/
theorem class_of_readFields_unrecognized {narrow : Bool} {cls : OpcodeClass} {b0 : Byte} {bs : List Byte}
    (hcls : classify b0 = some cls) (h : readFields narrow cls b0 bs = .error .unrecognizedOpcode) :
    cls = .arithmeticImmediate := by
  obtain ⟨hadd, hsub, hcmp⟩ := classify_ne_resolved b0
  cases cls
  case arithmeticImmediate => rfl
  case addImmediateToRegisterOrMemory => exact absurd hcls hadd
  case subImmediateFromRegisterOrMemory => exact absurd hcls hsub
  case cmpImmediateWithRegisterOrMemory => exact absurd hcls hcmp
  case movNormal => exact absurd h (neverUnrecognized_readRM _ _ _)
  case addNormal => exact absurd h (neverUnrecognized_readRM _ _ _)
  case subNormal => exact absurd h (neverUnrecognized_readRM _ _ _)
  case cmpNormal => exact absurd h (neverUnrecognized_readRM _ _ _)
  case movImmediateToRegisterOrMemory => exact absurd h (neverUnrecognized_readMovImmediate _ _)
  case movImmediateToRegister => exact absurd h (neverUnrecognized_readMovRegImmediate _ _)
  case movMemoryToAccumulator => exact absurd h (neverUnrecognized_readAM _ _ _ _)
  case movAccumulatorToMemory => exact absurd h (neverUnrecognized_readAM _ _ _ _)
  case movRegisterOrMemoryToSegmentRegister => exact absurd h (neverUnrecognized_readSR _ _)
  case movSegmentRegisterToRegisterOrMemory => exact absurd h (neverUnrecognized_readSR _ _)
  case addImmediateToAccumulator => exact absurd h (neverUnrecognized_readAI _ _ _)
  case subImmediateFromAccumulator => exact absurd h (neverUnrecognized_readAI _ _ _)
  case cmpImmediateWithAccumulator => exact absurd h (neverUnrecognized_readAI _ _ _)
  case nop => cases h
  all_goals exact absurd h (neverUnrecognized_readJ8 _ _)

/-! ### Format RMI-A (30_encoding.md R78) -/

theorem decode_arithmeticImmediate {b0 : Byte} (h : b0.toNat / 4 = 0x20) (narrow : Bool) (bs : List Byte) :
    decode narrow (b0 :: bs) = readArithmeticImmediate b0 bs :=
  decode_cons ((classify_eq_arithmeticImmediate_iff b0).mpr h) narrow bs

theorem regBits_mem_subOpcodes (b1 : Byte) : regBits b1 ∈ subOpcodes.map Prod.fst ↔ b1.toNat / 8 % 8 ∈ [0, 5, 7] := by
  simp [subOpcodes, ← regBits_toNat, BitVec.toNat_eq]

/-- Settles O8: `resolveArith` decides right after `b1`, and what the resolved readers raise is never
*UnrecognizedOpcode*. -/
theorem arithmeticImmediateResolvesByRegField : Obligations.ArithmeticImmediateResolvesByRegField := by
  intro narrow b0 b1 bs hb0
  rw [decode_arithmeticImmediate hb0, ← regBits_mem_subOpcodes]
  rcases readArithmeticImmediate_cons b0 b1 bs with ⟨form, hform, hreg, hread⟩ | ⟨hbad, hread⟩
  · have hmem : regBits b1 ∈ subOpcodes.map Prod.fst := hreg ▸ List.mem_map_of_mem hform
    rw [hread]
    refine ⟨fun hbad => absurd hmem hbad, fun i rest h => ?_, fun _ => neverUnrecognized_readRmImm _ _ _ _⟩
    obtain ⟨rm, _, imm, -, -, rfl⟩ := readRmImm_eq_ok h
    rw [← regBits_toNat, hreg]
    simp only [subOpcodes, List.mem_cons, List.not_mem_nil, or_false] at hform
    obtain rfl | rfl | rfl := hform
    · exact .inl ⟨rfl, rm, imm, rfl⟩
    · exact .inr (.inl ⟨rfl, rm, imm, rfl⟩)
    · exact .inr (.inr ⟨rfl, rm, imm, rfl⟩)
  · rw [hread]
    exact ⟨fun _ => rfl, fun _ _ h => (by cases h), fun hmem => absurd hmem hbad⟩

/-- Settles O4: a first byte without a class is the first case, and of the classes only `100000sw` can refuse, by its
second byte. -/
theorem unrecognizedOpcodeInExactlyTwoCases : Obligations.UnrecognizedOpcodeInExactlyTwoCases := by
  intro narrow bs
  constructor
  · intro h
    cases bs with
    | nil => cases h
    | cons b0 bs =>
      cases hcls : classify b0 with
      | none => exact .inl ⟨b0, bs, rfl, (classify_eq_none_iff b0).mp hcls⟩
      | some cls =>
        rw [decode_cons hcls] at h
        cases class_of_readFields_unrecognized hcls h
        have hb0 := (classify_eq_arithmeticImmediate_iff b0).mp hcls
        cases bs with
        | nil => cases h
        | cons b1 tail =>
          refine .inr ⟨b0, b1, tail, rfl, by omega, by omega, fun hmem => ?_⟩
          obtain ⟨-, -, hgood⟩ := arithmeticImmediateResolvesByRegField narrow b0 b1 tail hb0
          exact hgood hmem (by rw [decode_cons hcls]; exact h)
  · rintro (⟨b0, rest, rfl, hb0⟩ | ⟨b0, b1, rest, rfl, hlow, hhigh, hb1⟩)
    · simp [decode, (classify_eq_none_iff b0).mpr hb0]
    · exact (arithmeticImmediateResolvesByRegField narrow b0 b1 rest (by omega)).1 hb1

/-! ### The ModR/M operand, from the byte (30_encoding.md R73, R80, R85) -/

/-- The middle field of the ModR/M byte does not matter to its operand. -/
theorem readRegMem_congr {b b' : Byte} (hmod : modBits b = modBits b') (hrm : rmBits b = rmBits b') :
    readRegMem b = readRegMem b' := by
  funext bs
  simp only [readRegMem, hmod, hrm]

/-- A write of the middle field leaves `mod` and `rm`. -/
theorem modBits_rmBits_withMiddle (b : Byte) (x : BitVec 3) :
    modBits ((b &&& 0xC7) ||| (x.setWidth 8 <<< 3)) = modBits b ∧
    rmBits ((b &&& 0xC7) ||| (x.setWidth 8 <<< 3)) = rmBits b := by
  have hmiddle (k : Nat) (hk : k < 3 ∨ 6 ≤ k ∧ k < 8) :
      ((b &&& (0xC7 : Byte)) ||| (x.setWidth 8 <<< 3)).getLsbD k = b.getLsbD k := by
    have hkeep : ∀ j < 8, j < 3 ∨ 6 ≤ j → (0xC7 : Byte).getLsbD j = true := by decide
    rw [BitVec.getLsbD_or, BitVec.getLsbD_and, hkeep k (by omega) (by omega), BitVec.getLsbD_shiftLeft]
    rcases hk with hk | ⟨hlow, hhigh⟩
    · simp [hk]
    · simp [BitVec.getLsbD_of_ge x (k - 3) (by omega)]
  constructor
  · ext i hi
    simp only [modBits, BitVec.getElem_extractLsb']
    exact hmiddle _ (by omega)
  · ext i hi
    simp only [rmBits, BitVec.getElem_extractLsb']
    exact hmiddle _ (by omega)

/-- Bit 5 of the ModR/M byte is no part of `mod`, `rm` or `sr`. -/
theorem fields_bit5 : ∀ b : Byte, modBits (b ||| 0x20) = modBits (b &&& 0xDF) ∧
    rmBits (b ||| 0x20) = rmBits (b &&& 0xDF) ∧ srBits (b ||| 0x20) = srBits (b &&& 0xDF) := by
  decide

/-- Settles O7: the readers of C6, C7, 8C, 8E see `b1` through `mod`, `rm` and `sr` only, and `s` is not read where `w`
is clear. -/
theorem unexaminedBitsDoNotChangeTheInstruction : Obligations.UnexaminedBitsDoNotChangeTheInstruction := by
  intro narrow b1 rest
  refine ⟨fun b0 x hb0 => ?_, fun b0 hb0 => ?_, rfl, ?_⟩
  · obtain ⟨hmod, hrm⟩ := modBits_rmBits_withMiddle b1 x
    have hcls : classify b0 = some .movImmediateToRegisterOrMemory := by
      obtain rfl | rfl := hb0 <;> decide
    simp only [decode_cons hcls, readFields, readMovImmediate, readByte_cons, readThen_ok, readRegMem_congr hmod hrm]
  · obtain ⟨hmod, hrm, hsr⟩ := fields_bit5 b1
    have hread (make : SegField → RegMem → Instr) :
        readSR make ((b1 ||| 0x20) :: rest) = readSR make ((b1 &&& 0xDF) :: rest) := by
      simp only [readSR, readByte_cons, readThen_ok, readRegMem_congr hmod hrm, hsr]
    obtain rfl | rfl := hb0
    · exact hread .movSegmentRegisterToRegisterOrMemory
    · exact hread .movRegisterOrMemoryToSegmentRegister
  · exact decodeInvertsEncode narrow (.movNormal true true .r011 (.mem8 .bp 0)) rest rfl

theorem joinBytes_eq_ofNat (lo hi : Byte) : joinBytes lo hi = BitVec.ofNat 16 (lo.toNat + 256 * hi.toNat) := by
  rw [← joinBytes_toNat, BitVec.ofNat_toNat, BitVec.setWidth_eq]

theorem rmRow_ofBits : ∀ b1 : Byte, RmRow b1 (EaBase.ofBits (rmBits b1)) := by
  have h : ∀ n : BitVec 3, ∃ row ∈ rmTable, row.1 = n.toNat ∧ row.2.1 = EaBase.ofBits n := by decide
  intro b1
  rw [RmRow, ← rmBits_toNat]
  exact h _

/-- mod=00: the direct address when `rm` is 110, else the row's operand (30_encoding.md R80). -/
theorem readRegMem_mod0 {b1 : Byte} (h : b1.toNat / 64 = 0) (bs : List Byte) :
    (b1.toNat % 8 = 6 → readRegMem b1 bs = readThen (readWord bs) fun addr bs => .ok (.direct addr, bs)) ∧
    (b1.toNat % 8 ≠ 6 → readRegMem b1 bs = .ok (.mem (EaBase.ofBits (rmBits b1)), bs)) := by
  have hbp : ∀ n : BitVec 3, n.toNat = 6 ↔ EaBase.ofBits n = .bp := by decide
  rw [← modBits_toNat] at h
  rw [ne_eq, ← rmBits_toNat, hbp]
  simp only [readRegMem, h]
  constructor
  · intro hrm
    rw [hrm]
  · intro hrm
    split
    · exact absurd ‹_› hrm
    · rfl

theorem readRegMem_mod1 {b1 : Byte} (h : b1.toNat / 64 = 1) (bs : List Byte) :
    readRegMem b1 bs = readThen (readByte bs) fun disp bs => .ok (.mem8 (EaBase.ofBits (rmBits b1)) disp, bs) := by
  rw [← modBits_toNat] at h
  simp only [readRegMem, h]

theorem readRegMem_mod2 {b1 : Byte} (h : b1.toNat / 64 = 2) (bs : List Byte) :
    readRegMem b1 bs = readThen (readWord bs) fun disp bs => .ok (.mem16 (EaBase.ofBits (rmBits b1)) disp, bs) := by
  rw [← modBits_toNat] at h
  simp only [readRegMem, h]

theorem readRegMem_mod3 {b1 : Byte} (h : b1.toNat / 64 = 3) (bs : List Byte) :
    readRegMem b1 bs = .ok (.reg (RegField.ofBits (rmBits b1)), bs) := by
  rw [← modBits_toNat] at h
  simp only [readRegMem, h]

theorem ofBits_rmBits (b : Byte) : RegField.ofBits (rmBits b) = registerNumber (b.toNat % 8) := by
  rw [registerNumber, ← rmBits_toNat, BitVec.ofNat_toNat, BitVec.setWidth_eq]

theorem ofBits_regBits (b : Byte) : RegField.ofBits (regBits b) = registerNumber (b.toNat / 8 % 8) := by
  rw [registerNumber, ← regBits_toNat, BitVec.ofNat_toNat, BitVec.setWidth_eq]

/-- Settles O9: one clause per value of `mod`, with the word read low byte first. -/
theorem displacementLengthFollowsModAndRm : Obligations.DisplacementLengthFollowsModAndRm := by
  intro b1 lo hi rest
  dsimp only
  rw [← joinBytes_eq_ofNat]
  refine ⟨fun h h6 => ?_, fun h h6 => ?_, fun h => ?_, fun h => ?_, fun h => ?_⟩
  · exact (readRegMem_mod0 h _).1 h6
  · exact ⟨_, (readRegMem_mod0 h rest).2 h6, rmRow_ofBits b1⟩
  · exact ⟨_, readRegMem_mod1 h _, rmRow_ofBits b1⟩
  · exact ⟨_, readRegMem_mod2 h _, rmRow_ofBits b1⟩
  · rw [readRegMem_mod3 h, ofBits_rmBits]

end Sys2Proof.Proofs
end

section

namespace Sys2Proof.Proofs

open Sys2Proof.Machine Sys2Proof.Claim

/-! ### The operands from the bytes (30_encoding.md R71, R72, R84) -/

theorem getLsbD_zero_eq (b : Byte) : b.getLsbD 0 = decide (b.toNat % 2 = 1) := by
  rw [← BitVec.testBit_toNat, Nat.testBit_eq_decide_div_mod_eq]
  simp

theorem getLsbD_one_eq (b : Byte) : b.getLsbD 1 = decide (b.toNat / 2 % 2 = 1) := by
  rw [← BitVec.testBit_toNat, Nat.testBit_eq_decide_div_mod_eq]

theorem getLsbD_three_eq (b : Byte) : b.getLsbD 3 = decide (b.toNat / 8 % 2 = 1) := by
  rw [← BitVec.testBit_toNat, Nat.testBit_eq_decide_div_mod_eq]

/-- The four first bytes of format RM, each with its instruction and operation (30_encoding.md R76). -/
theorem decode_formatRM {b0 : Byte} (h : b0.toNat / 4 ∈ [0x22, 0x00, 0x0A, 0x0E]) (narrow : Bool) (bs : List Byte) :
    ∃ form ∈ registerMemoryForms, decode narrow (b0 :: bs) = readRM form.1 b0 bs ∧
      (b0.toNat / 4 = 0x22 → form.2 = .mov) ∧ (b0.toNat / 4 = 0x00 → form.2 = .add) ∧
      (b0.toNat / 4 = 0x0A → form.2 = .sub) ∧ (b0.toNat / 4 = 0x0E → form.2 = .cmp) := by
  obtain ⟨hmov, hadd, hsub, hcmp⟩ := classify_formatRM b0
  simp only [List.mem_cons, List.not_mem_nil, or_false] at h
  rcases h with h | h | h | h
  · exact ⟨(.movNormal, .mov), by simp [registerMemoryForms], decode_cons (hmov h) _ _, fun _ => rfl, by omega, by omega,
      by omega⟩
  · exact ⟨(.addNormal, .add), by simp [registerMemoryForms], decode_cons (hadd h) _ _, by omega, fun _ => rfl, by omega,
      by omega⟩
  · exact ⟨(.subNormal, .sub), by simp [registerMemoryForms], decode_cons (hsub h) _ _, by omega, by omega, fun _ => rfl,
      by omega⟩
  · exact ⟨(.cmpNormal, .cmp), by simp [registerMemoryForms], decode_cons (hcmp h) _ _, by omega, by omega, by omega,
      fun _ => rfl⟩

/-- The parts of an instruction of format RM (30_encoding.md R87). -/
theorem parts_formatRM {form : (Bool → Bool → RegField → RegMem → Instr) × Op} (h : form ∈ registerMemoryForms)
    (d w : Bool) (reg : RegField) (rm : RegMem) :
    (form.1 d w reg rm).op = form.2 ∧ (form.1 d w reg rm).wide = w ∧
      (form.1 d w reg rm).operand0 = rmDst d w reg rm ∧ (form.1 d w reg rm).operand1 = rmSrc d w reg rm := by
  simp only [registerMemoryForms, List.mem_cons, List.not_mem_nil, or_false] at h
  obtain rfl | rfl | rfl | rfl := h <;> exact ⟨rfl, rfl, rfl, rfl⟩

/-- Settles O58: the first byte names the operation, its low bits are `d` and `w`, and `d` says which side `reg` is
on. -/
theorem registerMemoryOperandsFollowTheBytes : Obligations.RegisterMemoryOperandsFollowTheBytes := by
  intro narrow b0 b1 bs rest i hb0 h
  obtain ⟨form, hform, hdecode, hops⟩ := decode_formatRM hb0 narrow (b1 :: bs)
  rw [hdecode] at h
  obtain ⟨_, _, rm, hbs, hrm, rfl⟩ := readRM_eq_ok h
  cases hbs
  obtain ⟨hop, hwide, hdst, hsrc⟩ :=
    parts_formatRM hform (b0.getLsbD 1) (b0.getLsbD 0) (RegField.ofBits (regBits b1)) rm
  rw [hop, hdst, hsrc, hwide, getLsbD_one_eq, ofBits_regBits]
  refine ⟨rm, hrm, getLsbD_zero_eq b0, fun hd => ?_, fun hd => ?_, hops⟩
  · rw [hd]
    exact ⟨rfl, rfl⟩
  · rw [hd]
    exact ⟨rfl, rfl⟩

/-- The segment register that bits 4:3 of `b1` name (30_encoding.md R84). -/
theorem slot_ofBits_srBits (b1 : Byte) : (SegField.ofBits (srBits b1)).slot =
    if b1.toNat / 8 % 4 = 0 then .es else if b1.toNat / 8 % 4 = 1 then .cs
    else if b1.toNat / 8 % 4 = 2 then .ss else .ds := by
  have h : ∀ n : BitVec 2, (SegField.ofBits n).slot =
      if n.toNat = 0 then .es else if n.toNat = 1 then .cs else if n.toNat = 2 then .ss else .ds := by decide
  have hsr : (srBits b1).toNat = b1.toNat / 8 % 4 := by
    simp only [srBits, BitVec.extractLsb'_toNat, Nat.shiftRight_eq_div_pow]
  rw [h, hsr]

/-- Settles O59: both first bytes read format SR, and the constructors put the segment register on their own side. -/
theorem segmentMovOperandsFollowTheBytes : Obligations.SegmentMovOperandsFollowTheBytes := by
  intro narrow b1 bs rest i
  dsimp only
  rw [← slot_ofBits_srBits]
  constructor
  · intro h
    rw [decode_cons classify_8E] at h
    obtain ⟨_, _, rm, hbs, hrm, rfl⟩ := readSR_eq_ok h
    cases hbs
    exact ⟨rm, hrm, rfl, rfl, rfl, rfl⟩
  · intro h
    rw [decode_cons classify_8C] at h
    obtain ⟨_, _, rm, hbs, hrm, rfl⟩ := readSR_eq_ok h
    cases hbs
    exact ⟨rm, hrm, rfl, rfl, rfl, rfl⟩

/-- Format RI, from the bytes (40_decoder.md R129). -/
theorem decode_formatRI {b0 : Byte} (h : b0.toNat / 16 = 0xB) (narrow : Bool) (bs : List Byte) :
    decode narrow (b0 :: bs) = readThen (readImm (decide (b0.toNat / 8 % 2 = 1)) bs) fun imm bs =>
      .ok (.movImmediateToRegister (registerNumber (b0.toNat % 8)) imm, bs) := by
  rw [decode_cons (classify_formatRI b0 h), readFields, readMovRegImmediate, getLsbD_three_eq, ofBits_rmBits]

/-- Settles O60: with the first byte known, the length of the data follows `w` and `ACC_ADDR_NARROW`. -/
theorem accumulatorAndRegisterImmediateFollowTheBytes : Obligations.AccumulatorAndRegisterImmediateFollowTheBytes := by
  intro narrow lo hi rest
  dsimp only
  rw [← joinBytes_eq_ofNat]
  refine ⟨fun b0 hb0 => ⟨fun hw => ?_, fun hw => ?_⟩, fun form hform => ?_, fun form hform => ?_⟩
  · rw [decode_formatRI hb0, hw]
    rfl
  · rw [decode_formatRI hb0, hw]
    rfl
  · simp only [List.mem_cons, List.not_mem_nil, or_false] at hform
    obtain rfl | rfl | rfl := hform <;> exact ⟨rfl, rfl⟩
  · simp only [List.mem_cons, List.not_mem_nil, or_false] at hform
    obtain rfl | rfl := hform <;> exact ⟨rfl, rfl, by cases narrow <;> rfl⟩

end Sys2Proof.Proofs
end

section

namespace Sys2Proof.Proofs

open Sys2Proof.Machine Sys2Proof.Claim

/-! ### Register access (10_state.md R13) -/

theorem regRead_low_toNat (r : HalfReg) (s : State) :
    (regRead (.low r) s).toNat = (s.getReg (halfSlot r)).toNat % 256 := by
  have := (lowByte (s.getReg (halfSlot r))).isLt
  rw [regRead, BitVec.toNat_setWidth, lowByte_toNat]
  omega

theorem regRead_high_toNat (r : HalfReg) (s : State) :
    (regRead (.high r) s).toNat = (s.getReg (halfSlot r)).toNat / 256 := by
  have := (s.getReg (halfSlot r)).isLt
  rw [regRead, BitVec.toNat_setWidth, highByte_toNat]
  omega

theorem regWrite_low_toNat (r : HalfReg) (v : Word) (s : State) :
    ((regWrite (.low r) v s).getReg (halfSlot r)).toNat =
      (s.getReg (halfSlot r)).toNat / 256 * 256 + v.toNat % 256 := by
  rw [getReg_regWrite_low, joinBytes_toNat, lowByte_toNat, highByte_toNat]
  omega

theorem regWrite_high_toNat (r : HalfReg) (v : Word) (s : State) :
    ((regWrite (.high r) v s).getReg (halfSlot r)).toNat =
      v.toNat % 256 * 256 + (s.getReg (halfSlot r)).toNat % 256 := by
  rw [getReg_regWrite_high, joinBytes_toNat, lowByte_toNat, lowByte_toNat]
  omega

theorem regWrite_restKept (acc : RegAccess) (v : Word) (s : State) : RestKept s (regWrite acc v s) :=
  ⟨regWrite_cursor acc v s, regWrite_code acc v s, regWrite_params acc v s⟩

theorem regWrite_memKept (acc : RegAccess) (v : Word) (s : State) : MemKept s (regWrite acc v s) := by
  intro a
  rw [regWrite_mem]

theorem regWrite_regsKept (acc : RegAccess) (v : Word) (s : State) :
    RegsKept s (regWrite acc v s) [accessSlot acc] :=
  fun _ hr => getReg_regWrite_ne (by simpa using hr) v s

/-- Settles O11: one rule per descriptor form, and the frame of `regWrite`. -/
theorem registerAccessReadsAndWritesItsPart : Obligations.RegisterAccessReadsAndWritesItsPart := by
  intro s v
  refine ⟨fun _ => rfl, fun slot hslot => State.getReg_setReg_same hslot s v, rfl, fun r => ?_, fun acc => ?_⟩
  · exact ⟨regRead_low_toNat r s, regRead_high_toNat r s, regWrite_low_toNat r v s, regWrite_high_toNat r v s⟩
  · exact ⟨regWrite_regsKept acc v s, regWrite_memKept acc v s, regWrite_restKept acc v s⟩

/-! ### Memory access (20_memory.md R40 to R43) -/

theorem memRead_byte_toNat (addr : Int) (s : State) : (memRead addr false s).toNat = (s.memByte addr).toNat := by
  have := (s.memByte addr).isLt
  simp only [memRead, Bool.false_eq_true, if_false, BitVec.toNat_setWidth]
  omega

theorem memRead_word_toNat (addr : Int) (s : State) :
    (memRead addr true s).toNat = (s.memByte addr).toNat + 256 * (s.memByte (addr + 1)).toNat := by
  simp only [memRead, if_true, joinBytes_toNat]

theorem memByte_memWrite_low {s : State} (hw : s.mem.wf = true) (addr : Int) (wide : Bool) (v : Word) :
    (memWrite addr wide v s).memByte addr = lowByte v :=
  memWrite_get_low hw addr wide v

theorem memByte_memWrite_high {s : State} (hw : s.mem.wf = true) (addr : Int) (v : Word) :
    (memWrite addr true v s).memByte (addr + 1) = highByte v :=
  memWrite_get_high hw addr v

theorem memRead_memWrite_word {s : State} (hw : s.mem.wf = true) (addr : Int) (v : Word) :
    memRead addr true (memWrite addr true v s) = v := by
  rw [memRead, if_pos rfl, memByte_memWrite_low hw, memByte_memWrite_high hw, joinBytes_lowByte_highByte]

/-- Settles O13: the written cells read back, and a read is made of its cells. -/
theorem memReadReturnsWhatWasWritten : Obligations.MemReadReturnsWhatWasWritten := by
  intro s addr v hw
  refine ⟨memRead_memWrite_word hw addr v, ?_, ?_, memRead_word_toNat addr s, memRead_byte_toNat addr s⟩
  · rw [memRead_byte_toNat, memByte_memWrite_low hw, lowByte_toNat]
  · rw [memRead_byte_toNat, memByte_memWrite_high hw, highByte_toNat]

/-! ### The canonical form (10_state.md R19) -/

/-- Two canonical memories that start with a cell and read alike start with the same cell. -/
theorem head_eq_of_get_eq {k k' : Nat} {b b' : Byte} {m m' : Memory} (hb : b ≠ 0) (hb' : b' ≠ 0)
    (hm : Memory.wfAbove m k = true) (hm' : Memory.wfAbove m' k' = true)
    (h : ∀ a, Memory.get ((k, b) :: m) a = Memory.get ((k', b') :: m') a) : k = k' ∧ b = b' := by
  have hk := h k
  have hk' := h k'
  rcases Nat.lt_trichotomy k k' with hlt | rfl | hlt
  · rw [Memory.get, if_pos rfl, Memory.get, if_neg (by omega), Memory.get_of_wfAbove hm' (by omega)] at hk
    exact absurd hk hb
  · rw [Memory.get, if_pos rfl, Memory.get, if_pos rfl] at hk
    exact ⟨rfl, hk⟩
  · rw [Memory.get, if_neg (by omega), Memory.get_of_wfAbove hm (by omega), Memory.get, if_pos rfl] at hk'
    exact absurd hk'.symm hb'

theorem eq_of_get_eq_above {m m' : Memory} {low low' : Int} (hm : Memory.wfAbove m low = true)
    (hm' : Memory.wfAbove m' low' = true) (h : ∀ a, Memory.get m a = Memory.get m' a) : m = m' := by
  induction m generalizing m' low low' with
  | nil =>
    cases m' with
    | nil => rfl
    | cons e m' =>
      obtain ⟨k, b⟩ := e
      simp only [Memory.wfAbove, Bool.and_eq_true, bne_iff_ne] at hm'
      exact absurd (h k) (by simpa [Memory.get] using Ne.symm hm'.1.2)
  | cons e m ih =>
    obtain ⟨k, b⟩ := e
    simp only [Memory.wfAbove, Bool.and_eq_true, bne_iff_ne] at hm
    obtain ⟨⟨-, hb⟩, hm⟩ := hm
    cases m' with
    | nil => exact absurd (h k) (by simpa [Memory.get] using hb)
    | cons e' m' =>
      obtain ⟨k', b'⟩ := e'
      simp only [Memory.wfAbove, Bool.and_eq_true, bne_iff_ne] at hm'
      obtain ⟨⟨-, hb'⟩, hm'⟩ := hm'
      obtain ⟨rfl, rfl⟩ := head_eq_of_get_eq hb hb' hm hm' h
      have htail : ∀ a, Memory.get m a = Memory.get m' a := by
        intro a
        by_cases ha : k = a
        · subst ha
          rw [Memory.get_of_wfAbove hm (Int.le_refl _), Memory.get_of_wfAbove hm' (Int.le_refl _)]
        · simpa [Memory.get, ha] using h a
      rw [ih hm hm' htail]

/-- Settles O14: the cells rise strictly and hold no 0, so the first cell of each is where its first byte other than 0
is. -/
theorem equalReadsMeanEqualMemories : Obligations.EqualReadsMeanEqualMemories :=
  fun _ _ hm hm' h => eq_of_get_eq_above hm hm' h

/-! ### Effective addresses (20_memory.md R46) -/

/-- The sum of the registers of a row of the rm table (30_encoding.md R85). -/
def baseSum (s : State) : EaBase → Int
  | .bxSi => s.regs.bx.toNat + s.regs.si.toNat
  | .bxDi => s.regs.bx.toNat + s.regs.di.toNat
  | .bpSi => s.regs.bp.toNat + s.regs.si.toNat
  | .bpDi => s.regs.bp.toNat + s.regs.di.toNat
  | .si => s.regs.si.toNat
  | .di => s.regs.di.toNat
  | .bp => s.regs.bp.toNat
  | .bx => s.regs.bx.toNat

theorem effectiveAddress_effectiveOperand (s : State) (base : EaBase) (disp : BitVec 16) :
    effectiveAddress (effectiveOperand base disp) s = some (baseSum s base + disp.toInt) := by
  cases base <;> rfl

theorem effectiveAddress_directOperand (s : State) (addr : Word) :
    effectiveAddress (directOperand addr) s = some (addr.toNat : Int) := by
  have := addr.isLt
  simp only [effectiveAddress, directOperand, BitVec.toNat_setWidth, Option.some.injEq]
  omega

/-- Settles O15: the operands are the row's terms with the displacement, or the address itself. -/
theorem effectiveAddressIsTheExactSum : Obligations.EffectiveAddressIsTheExactSum := by
  intro s w d8 d16
  refine ⟨fun base => ?_, effectiveAddress_directOperand s d16, effectiveAddress_directOperand s d16, ?_⟩
  · have h (disp : BitVec 16) := effectiveAddress_effectiveOperand s base disp
    have h8 : (d8.signExtend 16).toInt = d8.toInt := BitVec.toInt_signExtend_of_le (by decide)
    have h0 : effectiveAddress (effectiveOperand base 0) s = some (baseSum s base) := by simpa using h 0
    exact ⟨h0, h8 ▸ h (d8.signExtend 16), h d16⟩
  · have := d8.isLt
    rw [AccAddr.operand, effectiveAddress_directOperand, BitVec.toNat_setWidth, Option.some.injEq]
    omega

/-! ### Source values (20_memory.md R48; 30_encoding.md R90) -/

theorem srcValue_immediate (value : BitVec 32) (relative wide : Bool) (s : State) :
    srcValue (.immediate value relative) wide s = some (value.setWidth 16) := rfl

theorem setWidth_signExtend_byte (d : Byte) : ((d.signExtend 32).setWidth 16).toInt = d.toInt := by
  have h : (d.signExtend 32).setWidth 16 = d.signExtend 16 := by
    ext i hi
    simp [BitVec.getElem_signExtend, show i < 32 by omega]
  rw [h, BitVec.toInt_signExtend_of_le (by decide)]

theorem setWidth_signExtend_word (d : Word) : (d.signExtend 32).setWidth 16 = d := by
  ext i hi
  simp [BitVec.getElem_signExtend, hi, show i < 32 by omega]

/-- Settles O16: `SrcValue` by the operand form; the immediates are `uint16` of the extended bytes. -/
theorem sourceValueByOperandForm : Obligations.SourceValueByOperandForm := by
  intro s wide
  have hbyte (d : Byte) (relative : Bool) :
      ∃ v, srcValue (.immediate (d.signExtend 32) relative) wide s = some v ∧ v.toInt = d.toInt :=
    ⟨_, srcValue_immediate .., setWidth_signExtend_byte d⟩
  have hword (d : Word) : srcValue (.immediate (d.signExtend 32) false) wide s = some d := by
    rw [srcValue_immediate, setWidth_signExtend_word]
  refine ⟨fun acc => srcValue_register acc wide s, fun op addr h => ⟨_, srcValue_memory h wide, ?_⟩,
    fun d => hbyte d false, hword, fun d => hbyte d false, hword, fun d => hbyte d false, fun d => hbyte d true,
    fun value relative => srcValue_immediate value relative wide s, rfl⟩
  cases wide
  · simp [memRead_byte_toNat]
  · simp [memRead_word_toNat]

end Sys2Proof.Proofs
end

section

namespace Sys2Proof.Proofs

open Sys2Proof.Machine Sys2Proof.Claim

/-! ### The flag unit's word read at CF, AF and OF (44_flag_unit.md R252; bit positions 10_state.md R17) -/

theorem flagUnit_getLsbD_cf (fn : AluFn) (a b : Int) (w : OpWidth) (f : Word) :
    (flagUnit fn a b w f).getLsbD 0 = carryOut fn a b w := by
  rw [flagUnit_getLsbD]
  simp [preservedFlags]

theorem flagUnit_getLsbD_af (fn : AluFn) (a b : Int) (w : OpWidth) (f : Word) :
    (flagUnit fn a b w f).getLsbD 4 = auxOut fn a b := by
  rw [flagUnit_getLsbD]
  simp [preservedFlags]

theorem flagUnit_getLsbD_of (fn : AluFn) (a b : Int) (w : OpWidth) (f : Word) :
    (flagUnit fn a b w f).getLsbD 11 = overflowOut fn a b w := by
  rw [flagUnit_getLsbD]
  simp [preservedFlags]

/-- TF, IF and DF pass through the unit (44_flag_unit.md R252). -/
theorem flagUnit_getLsbD_preserved (fn : AluFn) (a b : Int) (w : OpWidth) (f : Word) {k : Nat} (hk : k ∈ [8, 9, 10]) :
    (flagUnit fn a b w f).getLsbD k = f.getLsbD k := by
  simp only [List.mem_cons, List.not_mem_nil, or_false] at hk
  rw [flagUnit_getLsbD]
  obtain rfl | rfl | rfl := hk <;> simp [preservedFlags]

/-- A word within the mask of the recognised flags has its other bits 0 (10_state.md R18). -/
theorem getLsbD_eq_false_of_masked {f : Word} (h : f &&& flagsMask = f) {k : Nat}
    (hk : k ∈ [1, 3, 5, 12, 13, 14, 15]) : f.getLsbD k = false := by
  have hmask : ∀ j ∈ [1, 3, 5, 12, 13, 14, 15], flagsMask.getLsbD j = false := by decide
  rw [← h, BitVec.getLsbD_and, hmask k hk, Bool.and_false]

/-- Settles O18: CF, AF and OF are their bounds on the unit's results, the preserved bits come from the input and the
cleared ones lie outside the unit's mask. -/
theorem flagUnitCarriesOverflowAndPreservedBits : Obligations.FlagUnitCarriesOverflowAndPreservedBits := by
  intro isAdd a b w flagsIn
  refine ⟨?cf, ?af, ?of, fun k hk => flagUnit_getLsbD_preserved _ _ _ _ _ hk,
    fun k hk => getLsbD_eq_false_of_masked (flagUnit_masked _ _ _ _ _) hk⟩
  case cf =>
    rw [flagUnit_getLsbD_cf, carryOut, unsignedResult, unitFn_apply, Bool.decide_or]
    cases w <;> rfl
  case af => rw [flagUnit_getLsbD_af, auxOut, nibbleResult, unitFn_apply, Bool.decide_or]
  case of =>
    rw [flagUnit_getLsbD_of, overflowOut, unitFn_apply]
    cases w <;> simp only [Bool.decide_or] <;> rfl

/-! ### Word operands: the unit's results are those of 16-bit arithmetic (44_flag_unit.md R253) -/

theorem toInt_emod_65536 (x : Word) : x.toInt % 65536 = x.toNat := by
  have := x.isLt
  rw [BitVec.toInt_eq_toNat_cond]
  split <;> omega

theorem toInt_emod_16 (x : Word) : x.toInt % 16 = (x.toNat % 16 : Nat) := by
  have := toInt_emod_65536 x
  omega

theorem ofInt_toInt_add (x y : Word) : BitVec.ofInt 16 (x.toInt + y.toInt) = x + y := by
  rw [BitVec.ofInt_add, BitVec.ofInt_toInt, BitVec.ofInt_toInt]

theorem ofInt_toInt_sub (x y : Word) : BitVec.ofInt 16 (x.toInt - y.toInt) = x - y := by
  rw [Int.sub_eq_add_neg, BitVec.ofInt_add, BitVec.ofInt_neg, BitVec.ofInt_toInt, BitVec.ofInt_toInt,
    BitVec.sub_eq_add_neg]

/-- The parity of an integer is that of the low byte of the word it is stored as. -/
theorem parity8_eq_of_ofInt {r : Int} {v : Word} (h : BitVec.ofInt 16 r = v) :
    parity8 r = decide (((List.range 8).countP fun k => v.getLsbD k) % 2 = 0) := by
  have hlow : BitVec.ofInt 8 r = v.setWidth 8 := by
    apply BitVec.eq_of_toNat_eq
    rw [BitVec.toNat_setWidth, ← h, BitVec.toNat_ofInt, BitVec.toNat_ofInt]
    omega
  have hbit : ∀ k ∈ List.range 8, (BitVec.ofInt 8 r).getLsbD k = v.getLsbD k := by
    intro k hk
    rw [hlow, BitVec.getLsbD_setWidth, decide_eq_true (List.mem_range.mp hk), Bool.true_and]
  simp only [parity8, onesCount, ← List.countP_eq_length_filter]
  rw [List.countP_congr fun k hk => by rw [hbit k hk]]
  rfl

theorem msb_eq_signOut {fn : AluFn} {a b : Int} {v : Word} (h : BitVec.ofInt 16 (fn.apply a b) = v) :
    signOut fn a b = v.msb := by
  rw [signOut, h, BitVec.msb_eq_getLsbD_last]

theorem carryOut_add_word (x y : Word) : carryOut .add x.toInt y.toInt .word = decide (65536 ≤ x.toNat + y.toNat) := by
  rw [carryOut, unsignedResult, toInt_emod_65536, toInt_emod_65536, ← Bool.decide_or, decide_eq_decide]
  simp only [AluFn.apply, OpWidth.uintMax]
  omega

theorem carryOut_sub_word (x y : Word) : carryOut .sub x.toInt y.toInt .word = decide (x.toNat < y.toNat) := by
  have := x.isLt
  rw [carryOut, unsignedResult, toInt_emod_65536, toInt_emod_65536, ← Bool.decide_or, decide_eq_decide]
  simp only [AluFn.apply, OpWidth.uintMax]
  omega

theorem auxOut_add_word (x y : Word) :
    auxOut .add x.toInt y.toInt = decide (16 ≤ x.toNat % 16 + y.toNat % 16) := by
  rw [auxOut, nibbleResult, toInt_emod_16, toInt_emod_16, ← Bool.decide_or, decide_eq_decide]
  simp only [AluFn.apply]
  omega

theorem auxOut_sub_word (x y : Word) : auxOut .sub x.toInt y.toInt = decide (x.toNat % 16 < y.toNat % 16) := by
  rw [auxOut, nibbleResult, toInt_emod_16, toInt_emod_16, ← Bool.decide_or, decide_eq_decide]
  simp only [AluFn.apply]
  omega

theorem zeroOut_eq_true (fn : AluFn) (a b : Int) : zeroOut fn a b = true ↔ fn.apply a b = 0 := decide_eq_true_iff

/-- The untruncated sum is 0 where the word sum is, but for `-32768 - 32768` (44_flag_unit.md R253). -/
theorem zeroOut_add_word (x y : Word) :
    zeroOut .add x.toInt y.toInt = (x + y == 0 && !(x == 0x8000 && y == 0x8000)) := by
  have hx := x.isLt
  have hy := y.isLt
  rw [Bool.eq_iff_iff, zeroOut_eq_true]
  simp only [AluFn.apply, Bool.and_eq_true, Bool.not_eq_true', Bool.and_eq_false_iff, beq_iff_eq,
    beq_eq_false_iff_ne, ne_eq, BitVec.ofNat_eq_ofNat, BitVec.toNat_eq, BitVec.toNat_add, BitVec.toNat_ofNat,
    BitVec.toInt_eq_toNat_cond]
  split <;> split <;> omega

theorem zeroOut_sub_word (x y : Word) : zeroOut .sub x.toInt y.toInt = (x == y) := by
  rw [Bool.eq_iff_iff, zeroOut_eq_true]
  simp only [AluFn.apply, beq_iff_eq, ← BitVec.toInt_inj]
  omega

theorem overflowOut_add_word (x y : Word) : overflowOut .add x.toInt y.toInt .word = x.saddOverflow y := by
  rw [overflowOut, BitVec.saddOverflow, Bool.or_comm, ← Bool.decide_or, ← Bool.decide_or, decide_eq_decide]
  simp only [AluFn.apply, OpWidth.intMin, OpWidth.intMax]
  omega

theorem overflowOut_sub_word (x y : Word) : overflowOut .sub x.toInt y.toInt .word = x.ssubOverflow y := by
  rw [overflowOut, BitVec.ssubOverflow, Bool.or_comm, ← Bool.decide_or, ← Bool.decide_or, decide_eq_decide]
  simp only [AluFn.apply, OpWidth.intMin, OpWidth.intMax]
  omega

/-- Settles O19: each flag of the unit on word operands, by its lemma above. -/
theorem wordFlagsAreThoseOfSixteenBitArithmetic : Obligations.WordFlagsAreThoseOfSixteenBitArithmetic := by
  intro x y flagsIn
  dsimp only
  simp only [flagUnit_getLsbD_cf, flagUnit_getLsbD_pf, flagUnit_getLsbD_af, flagUnit_getLsbD_zf, flagUnit_getLsbD_sf,
    flagUnit_getLsbD_of]
  have hadd := ofInt_toInt_add x y
  have hsub := ofInt_toInt_sub x y
  exact ⟨carryOut_add_word x y, parity8_eq_of_ofInt hadd, auxOut_add_word x y, zeroOut_add_word x y, msb_eq_signOut hadd,
    overflowOut_add_word x y, carryOut_sub_word x y, parity8_eq_of_ofInt hsub, auxOut_sub_word x y, zeroOut_sub_word x y,
    msb_eq_signOut hsub, overflowOut_sub_word x y⟩

end Sys2Proof.Proofs
end

section

namespace Sys2Proof.Proofs

open Sys2Proof.Machine Sys2Proof.Claim

/-! ### Frames: what a chain of writes leaves unchanged -/

theorem regsKept_refl (s : State) (except : List Slot) : RegsKept s s except := fun _ _ => rfl

theorem regsKept_setReg {s t : State} {except : List Slot} (h : RegsKept s t except) {a : Slot} (ha : a ∈ except)
    (v : Word) : RegsKept s (t.setReg a v) except := by
  intro r hr
  have hne : r ≠ a := fun hra => hr (hra ▸ ha)
  rw [State.getReg_setReg_ne hne, h r hr]

theorem regsKept_regWrite {s t : State} {except : List Slot} (h : RegsKept s t except) {acc : RegAccess}
    (ha : accessSlot acc ∈ except) (v : Word) : RegsKept s (regWrite acc v t) except := by
  intro r hr
  have hne : r ≠ accessSlot acc := fun hra => hr (hra ▸ ha)
  rw [getReg_regWrite_ne hne, h r hr]

theorem regsKept_memWrite {s t : State} {except : List Slot} (h : RegsKept s t except) (x : Int) (wide : Bool) (v : Word) :
    RegsKept s (memWrite x wide v t) except := by
  intro r hr
  rw [getReg_memWrite, h r hr]

theorem memKept_of_mem_eq {s t : State} (h : t.mem = s.mem) : MemKept s t := by
  intro a
  rw [h]

theorem restKept_trans {s t u : State} (h : RestKept s t) (h' : RestKept t u) : RestKept s u := by
  obtain ⟨hcursor, hcode, hparams⟩ := h
  obtain ⟨hcursor', hcode', hparams'⟩ := h'
  exact ⟨hcursor'.trans hcursor, hcode'.trans hcode, hparams'.trans hparams⟩

theorem restKept_setReg (s : State) (a : Slot) (v : Word) : RestKept s (s.setReg a v) := ⟨rfl, rfl, rfl⟩

/-! ### The end of an instruction (10_state.md R16) -/

theorem finish_eq_ipAfter (old : State) (size : Nat) (disp : Int) (s : State) :
    finish old size disp s = .next (s.setReg .ip (ipAfter old size disp)) := rfl

/-! ### Branches and loops (43_jumps.md R200, R219) -/

theorem branchOp_eq (size : Nat) (disp : Byte) (taken : Bool) (s : State) :
    branchOp size (relOperand disp) taken s =
      .next (s.setReg .ip (ipAfter s size (if taken then disp.toInt else 0))) := by
  rw [branchOp_relOperand, signExtend32_toInt, finish_eq_ipAfter]

theorem loopOp_eq (size : Nat) (disp : Byte) (cond : Bool → Bool) (s : State) :
    loopOp size (relOperand disp) cond s =
      .next ((s.setReg .cx (s.getReg .cx - 1)).setReg .ip
        (ipAfter s size (if s.getReg .cx - 1 != 0 && cond (flagZF (s.getReg .flags)) then disp.toInt else 0))) := by
  rw [loopOp_relOperand, signExtend32_toInt, finish_eq_ipAfter, decrementedCx]

/-- The operations that decrement CX (43_jumps.md R219). -/
def loopOps : List Op := [.loop, .loopz, .loopnz]

/-- What a control-transfer instruction makes of a state: CX by `cx`, IP by the size and `disp` of FLAGS and CX. -/
def controlResult (size : Nat) (cx : Word → Word) (disp : Word → Word → Int) (s : State) : State :=
  (s.setReg .cx (cx (s.getReg .cx))).setReg .ip (ipAfter s size (disp (s.getReg .flags) (s.getReg .cx)))

/-- `i` reads FLAGS and CX only and writes IP, and CX if it is of the loop family; IP moves by the size and 0 or the
displacement of its relative operand. -/
def Controls (i : Instr) : Prop :=
  ∃ (cx : Word → Word) (disp : Word → Word → Int),
    (∀ c, cx c = c ∨ i.op ∈ loopOps) ∧
    (∀ f c, disp f c = 0 ∨ ∃ b : Byte, i.operand0 = relOperand b ∧ disp f c = b.toInt) ∧
    ∀ s, exec i s = .next (controlResult i.size cx disp s)

theorem controls_of_branch {i : Instr} {b : Byte} (taken : Word → Word → Bool) (h0 : i.operand0 = relOperand b)
    (hexec : ∀ s, exec i s = branchOp i.size (relOperand b) (taken (s.getReg .flags) (s.getReg .cx)) s) :
    Controls i := by
  refine ⟨id, fun f c => if taken f c then b.toInt else 0, fun _ => .inl rfl, fun f c => ?_, fun s => ?_⟩
  · by_cases h : taken f c = true
    · exact .inr ⟨b, h0, if_pos h⟩
    · exact .inl (if_neg h)
  · rw [hexec, branchOp_eq]
    rfl

theorem controls_of_loop {i : Instr} {b : Byte} (cond : Bool → Bool) (hop : i.op ∈ loopOps)
    (h0 : i.operand0 = relOperand b) (hexec : ∀ s, exec i s = loopOp i.size (relOperand b) cond s) : Controls i := by
  refine ⟨fun c => c - 1, fun f c => if c - 1 != 0 && cond (flagZF f) then b.toInt else 0, fun _ => .inr hop,
    fun f c => ?_, fun s => ?_⟩
  · by_cases h : (c - 1 != 0 && cond (flagZF f)) = true
    · exact .inr ⟨b, h0, if_pos h⟩
    · exact .inl (if_neg h)
  · rw [hexec, loopOp_eq]
    rfl

/-- Every instruction other than MOV, ADD, SUB and CMP is a control transfer. -/
theorem controls {i : Instr} (h : i.op ∉ twoOperandOps) : Controls i := by
  cases i
  case jo b => exact controls_of_branch (fun f _ => takenJo f) rfl fun _ => rfl
  case jno b => exact controls_of_branch (fun f _ => takenJno f) rfl fun _ => rfl
  case jb b => exact controls_of_branch (fun f _ => takenJb f) rfl fun _ => rfl
  case jnb b => exact controls_of_branch (fun f _ => takenJnb f) rfl fun _ => rfl
  case je b => exact controls_of_branch (fun f _ => takenJe f) rfl fun _ => rfl
  case jne b => exact controls_of_branch (fun f _ => takenJne f) rfl fun _ => rfl
  case jbe b => exact controls_of_branch (fun f _ => takenJbe f) rfl fun _ => rfl
  case ja b => exact controls_of_branch (fun f _ => takenJa f) rfl fun _ => rfl
  case js b => exact controls_of_branch (fun f _ => takenJs f) rfl fun _ => rfl
  case jns b => exact controls_of_branch (fun f _ => takenJns f) rfl fun _ => rfl
  case jp b => exact controls_of_branch (fun f _ => takenJp f) rfl fun _ => rfl
  case jnp b => exact controls_of_branch (fun f _ => takenJnp f) rfl fun _ => rfl
  case jl b => exact controls_of_branch (fun f _ => takenJl f) rfl fun _ => rfl
  case jnl b => exact controls_of_branch (fun f _ => takenJnl f) rfl fun _ => rfl
  case jle b => exact controls_of_branch (fun f _ => takenJle f) rfl fun _ => rfl
  case jg b => exact controls_of_branch (fun f _ => takenJg f) rfl fun _ => rfl
  case jcxz b => exact controls_of_branch (fun _ c => c == 0) rfl fun _ => rfl
  case jmpDirectShort b => exact controls_of_branch (fun _ _ => true) rfl fun _ => rfl
  case loopnz b => exact controls_of_loop loopnzCond (by simp [loopOps, Instr.op]) rfl fun _ => rfl
  case loopz b => exact controls_of_loop loopzCond (by simp [loopOps, Instr.op]) rfl fun _ => rfl
  case loop b => exact controls_of_loop loopCond (by simp [loopOps, Instr.op]) rfl fun _ => rfl
  case nop => exact ⟨id, fun _ _ => 0, fun _ => .inl rfl, fun _ _ => .inl rfl, fun _ => rfl⟩
  all_goals exact absurd h (by simp [twoOperandOps, Instr.op])

theorem regsKept_controlResult (size : Nat) (cx : Word → Word) (disp : Word → Word → Int) (s : State) :
    RegsKept s (controlResult size cx disp s) [.cx, .ip] :=
  regsKept_setReg (regsKept_setReg (regsKept_refl s _) (by simp) _) (by simp) _

theorem restKept_controlResult (size : Nat) (cx : Word → Word) (disp : Word → Word → Int) (s : State) :
    RestKept s (controlResult size cx disp s) := ⟨rfl, rfl, rfl⟩

/-! ### MOV (41_mov.md R160) -/

theorem op_mem_twoOperandOps_of_arith {op : Op} {f : ArithOp} (h : arithOpOf op = some f) : op ∈ twoOperandOps := by
  revert h
  cases op <;> simp [twoOperandOps, arithOpOf]

theorem mov_mem_twoOperandOps {op : Op} (h : op = .mov) : op ∈ twoOperandOps := by
  rw [h]
  decide

theorem exec_mov_register {i : Instr} (hop : i.op = .mov) {acc : RegAccess} (h0 : i.operand0 = .register acc) {s : State}
    {v : Word} (hv : srcValue i.operand1 i.wide s = some v) :
    exec i s = .next ((regWrite acc v s).setReg .ip (ipAfter s i.size 0)) := by
  rw [exec_mov hop, h0, movOp_register hv, finish_eq_ipAfter]

theorem exec_mov_memory {i : Instr} (hop : i.op = .mov) {s : State} {addr : Int}
    (ha : effectiveAddress i.operand0 s = some addr) {v : Word} (hv : srcValue i.operand1 i.wide s = some v) :
    exec i s = .next ((memWrite addr i.wide v s).setReg .ip (ipAfter s i.size 0)) := by
  rw [exec_mov hop, movOp_memory hv ha, finish_eq_ipAfter]

/-! ### ADD, SUB, CMP (42_arith.md R180) -/

/-- The state an arithmetic instruction stores its result in: the flag unit's word is written first. -/
def withUnitFlags (f : ArithOp) (x : Aligned) (s : State) : State :=
  s.setReg .flags (flagUnit f.fn x.a x.b x.width (s.getReg .flags))

theorem getReg_flags_withUnitFlags (f : ArithOp) (x : Aligned) (s : State) :
    (withUnitFlags f x s).getReg .flags = flagUnit f.fn x.a x.b x.width (s.getReg .flags) := by
  rw [withUnitFlags, State.getReg_setReg_flags, flagUnit_masked]

theorem getReg_withUnitFlags {r : Slot} (h : r ≠ .flags) (f : ArithOp) (x : Aligned) (s : State) :
    (withUnitFlags f x s).getReg r = s.getReg r := State.getReg_setReg_ne h s _

theorem exec_arith_next {i : Instr} {f : ArithOp} (hop : arithOpOf i.op = some f) {s : State} {v : Word} {x : Aligned}
    (hv : srcValue i.operand1 i.wide s = some v) (hx : alignDst i.operand0 v i.wide s = some x) :
    exec i s = .next ((f.store i.operand0 i.wide (f.fn.apply x.a x.b) (withUnitFlags f x s)).setReg .ip
      (ipAfter s i.size 0)) := by
  rw [exec_arith hop, arithOp_eq hv hx, finish_eq_ipAfter]
  rfl

theorem alignDst_register_some (acc : RegAccess) (v : Word) (wide : Bool) (s : State) :
    ∃ x, alignDst (.register acc) v wide s = some x := by
  cases acc <;> exact ⟨_, rfl⟩

/-- The destination of a decoded arithmetic instruction can be aligned. -/
theorem alignDst_some {i : Instr} (hop : i.op ∈ twoOperandOps) (v : Word) (s : State) :
    ∃ x, alignDst i.operand0 v i.wide s = some x := by
  rcases Instr.operand0_cases hop s with ⟨acc, h0, -⟩ | ⟨addr, ha⟩
  · rw [h0]
    exact alignDst_register_some acc v i.wide s
  · exact ⟨_, alignDst_memory ha v i.wide⟩

/-! ### What every instruction can do -/

/-- Every decoded instruction moves, computes or transfers control, and answers a next state. -/
theorem exec_cases (i : Instr) (s : State) :
    (i.op = .mov ∧ ∃ v u, srcValue i.operand1 i.wide s = some v ∧ dstWrite i.operand0 i.wide v s = some u ∧
      exec i s = .next (u.setReg .ip (ipAfter s i.size 0))) ∨
    (∃ f, arithOpOf i.op = some f ∧ ∃ v x, srcValue i.operand1 i.wide s = some v ∧
      alignDst i.operand0 v i.wide s = some x ∧
      exec i s = .next ((f.store i.operand0 i.wide (f.fn.apply x.a x.b) (withUnitFlags f x s)).setReg .ip
        (ipAfter s i.size 0))) ∨
    (i.op ∉ twoOperandOps ∧ Controls i) := by
  by_cases htwo : i.op ∈ twoOperandOps
  · obtain ⟨v, hv⟩ := Instr.srcValue_some htwo s
    rcases twoOperandOps_cases htwo with hmov | ⟨f, hf⟩
    · rcases Instr.operand0_cases htwo s with ⟨acc, h0, -⟩ | ⟨addr, ha⟩
      · exact .inl ⟨hmov, v, regWrite acc v s, hv, h0 ▸ dstWrite_register acc i.wide v s, exec_mov_register hmov h0 hv⟩
      · exact .inl ⟨hmov, v, memWrite addr i.wide v s, hv, dstWrite_memory ha i.wide v, exec_mov_memory hmov ha hv⟩
    · obtain ⟨x, hx⟩ := alignDst_some htwo v s
      exact .inr (.inl ⟨f, hf, v, x, hv, hx, exec_arith_next hf hv hx⟩)
  · exact .inr (.inr ⟨htwo, controls htwo⟩)

/-- Settles O20: each of the three kinds of instruction answers a next state. -/
theorem everyInstructionCompletes : Obligations.EveryInstructionCompletes := by
  intro i s
  rcases exec_cases i s with ⟨-, v, u, -, -, h⟩ | ⟨f, -, v, x, -, -, h⟩ | ⟨-, cx, disp, -, -, h⟩
  · exact ⟨_, h⟩
  · exact ⟨_, h⟩
  · exact ⟨_, h s⟩

/-- Settles O21: exec and `Execute` dispatch to the same operation on the same operands. -/
theorem execIsExecuteOfTheBuiltRecord : Obligations.ExecIsExecuteOfTheBuiltRecord := by
  intro i address s
  cases i <;> rfl

/-! ### `Execute` on hand-built records (60_exceptions.md R263) -/

theorem srcValue_eq_none_iff (op : Operand) (wide : Bool) (s : State) : srcValue op wide s = none ↔ op = .absent := by
  cases op with
  | absent => simp [srcValue]
  | register acc => simp [srcValue]
  | immediate v rel => simp [srcValue]
  | direct a => simp [srcValue, effectiveAddress]
  | effective t1 t2 d o => cases t2 <;> simp [srcValue, effectiveAddress]

/-- An operand that cannot be a destination (60_exceptions.md R263). -/
def NoDestination (op : Operand) : Prop := (∃ v rel, op = .immediate v rel) ∨ op = .absent

theorem dstWrite_eq_none_iff (op : Operand) (wide : Bool) (v : Word) (s : State) :
    dstWrite op wide v s = none ↔ NoDestination op := by
  cases op with
  | absent => simp [dstWrite, NoDestination]
  | register acc => simp [dstWrite, NoDestination]
  | immediate v rel => simp [dstWrite, NoDestination]
  | direct a => simp [dstWrite, effectiveAddress, NoDestination]
  | effective t1 t2 d o => cases t2 <;> simp [dstWrite, effectiveAddress, NoDestination]

theorem alignDst_eq_none_iff (op : Operand) (v : Word) (wide : Bool) (s : State) :
    alignDst op v wide s = none ↔ NoDestination op := by
  cases op with
  | absent => simp [alignDst, NoDestination]
  | register acc => cases acc <;> simp [alignDst, NoDestination]
  | immediate v rel => simp [alignDst, NoDestination]
  | direct a => simp [alignDst, effectiveAddress, NoDestination]
  | effective t1 t2 d o => cases t2 <;> simp [alignDst, effectiveAddress, NoDestination]

/-- The result is the operand error exactly when `unsupported` holds, else a next state. -/
def FaultsWhen (unsupported : Prop) (r : Result) : Prop :=
  (unsupported → r = .fault .unsupportedOperandForOperation) ∧ (¬ unsupported → ∃ t, r = .next t)

theorem movOp_faultsWhen (wide : Bool) (size : Nat) (dst src : Operand) (s : State) :
    FaultsWhen (NoDestination dst ∨ src = .absent) (movOp wide size dst src s) := by
  rw [← srcValue_eq_none_iff src wide s]
  cases hv : srcValue src wide s with
  | none => exact ⟨fun _ => by simp [movOp, hv, raise], fun h => absurd (.inr rfl) h⟩
  | some v =>
    rw [← dstWrite_eq_none_iff dst wide v s]
    cases hu : dstWrite dst wide v s with
    | none => exact ⟨fun _ => by simp [movOp, hv, hu, raise], fun h => absurd (.inl rfl) h⟩
    | some u => exact ⟨fun h => by simp at h, fun _ => ⟨_, by simp only [movOp, hv, hu]; rfl⟩⟩

theorem arithOp_faultsWhen (op : ArithOp) (wide : Bool) (size : Nat) (dst src : Operand) (s : State) :
    FaultsWhen (NoDestination dst ∨ src = .absent) (arithOp op wide size dst src s) := by
  rw [← srcValue_eq_none_iff src wide s]
  cases hv : srcValue src wide s with
  | none => exact ⟨fun _ => by simp [arithOp, hv, raise], fun h => absurd (.inr rfl) h⟩
  | some v =>
    rw [← alignDst_eq_none_iff dst v wide s]
    cases hx : alignDst dst v wide s with
    | none => exact ⟨fun _ => by simp [arithOp, hv, hx, raise], fun h => absurd (.inl rfl) h⟩
    | some x => exact ⟨fun h => by simp at h, fun _ => ⟨_, arithOp_eq hv hx size⟩⟩

theorem branchOp_faultsWhen (size : Nat) (operand : Operand) (taken : Bool) (s : State) :
    FaultsWhen (¬ ∃ v rel, operand = .immediate v rel) (branchOp size operand taken s) := by
  cases operand with
  | immediate v rel => exact ⟨fun h => absurd ⟨v, rel, rfl⟩ h, fun _ => ⟨_, rfl⟩⟩
  | absent => exact ⟨fun _ => rfl, fun h => by simp at h⟩
  | register acc => exact ⟨fun _ => rfl, fun h => by simp at h⟩
  | direct a => exact ⟨fun _ => rfl, fun h => by simp at h⟩
  | effective t1 t2 d o => exact ⟨fun _ => rfl, fun h => by simp at h⟩

theorem loopOp_faultsWhen (size : Nat) (operand : Operand) (cond : Bool → Bool) (s : State) :
    FaultsWhen (¬ ∃ v rel, operand = .immediate v rel) (loopOp size operand cond s) := by
  cases operand with
  | immediate v rel => exact ⟨fun h => absurd ⟨v, rel, rfl⟩ h, fun _ => ⟨_, rfl⟩⟩
  | absent => exact ⟨fun _ => rfl, fun h => by simp at h⟩
  | register acc => exact ⟨fun _ => rfl, fun h => by simp at h⟩
  | direct a => exact ⟨fun _ => rfl, fun h => by simp at h⟩
  | effective t1 t2 d o => exact ⟨fun _ => rfl, fun h => by simp at h⟩

theorem execute_twoOperand_faultsWhen {si : SemInstr} (h : si.op ∈ twoOperandOps) (s : State) :
    FaultsWhen (NoDestination si.operand0 ∨ si.operand1 = .absent) (execute si s) := by
  unfold execute
  cases hop : si.op
  case mov => exact movOp_faultsWhen ..
  case add => exact arithOp_faultsWhen ..
  case sub => exact arithOp_faultsWhen ..
  case cmp => exact arithOp_faultsWhen ..
  all_goals
    rw [hop] at h
    exact absurd h (by decide)

theorem execute_control_faultsWhen {si : SemInstr} (h : si.op ∉ twoOperandOps) (hnop : si.op ≠ .nop) (s : State) :
    FaultsWhen (¬ ∃ v rel, si.operand0 = .immediate v rel) (execute si s) := by
  unfold execute
  cases hop : si.op
  case mov => exact absurd (hop ▸ (by decide)) h
  case add => exact absurd (hop ▸ (by decide)) h
  case sub => exact absurd (hop ▸ (by decide)) h
  case cmp => exact absurd (hop ▸ (by decide)) h
  case nop => exact absurd hop hnop
  case loop => exact loopOp_faultsWhen ..
  case loopz => exact loopOp_faultsWhen ..
  case loopnz => exact loopOp_faultsWhen ..
  all_goals exact branchOp_faultsWhen ..

/-- Settles O22: each operation checks its operands for exactly the cases of its kind. -/
theorem executeFaultsExactlyOnUnsupportedOperands : Obligations.ExecuteFaultsExactlyOnUnsupportedOperands := by
  intro si s
  dsimp only
  by_cases htwo : si.op ∈ twoOperandOps
  · have hop : si.op ∈ [Op.mov, .add, .sub, .cmp] := htwo
    obtain ⟨hfault, hnext⟩ := execute_twoOperand_faultsWhen htwo s
    simp only [hop, true_and, not_true_eq_false, false_and, or_false]
    exact ⟨hfault, hnext⟩
  · have hop : si.op ∉ [Op.mov, .add, .sub, .cmp] := htwo
    simp only [hop, false_and, false_or, not_false_eq_true, true_and]
    by_cases hnop : si.op = .nop
    · have hexec : execute si s = nopOp si.size s := by simp only [execute, hnop]
      exact ⟨fun h => absurd hnop h.1, fun _ => ⟨_, hexec.trans (finish_eq_ipAfter s si.size 0 s)⟩⟩
    · obtain ⟨hfault, hnext⟩ := execute_control_faultsWhen htwo hnop s
      simp only [ne_eq, hnop, not_false_eq_true, true_and]
      exact ⟨hfault, hnext⟩

end Sys2Proof.Proofs
end

section

namespace Sys2Proof.Proofs

open Sys2Proof.Machine Sys2Proof.Claim

/-! ### MOV (41_mov.md R160 to R167) -/

/-- A register destination of a decoded instruction is neither FLAGS nor IP (30_encoding.md R83, R84). -/
theorem accessSlot_operand0 {i : Instr} (hop : i.op ∈ twoOperandOps) {acc : RegAccess} (h0 : i.operand0 = .register acc) :
    accessSlot acc ≠ .flags ∧ accessSlot acc ≠ .ip := by
  rcases Instr.operand0_cases hop State.reset with ⟨acc', h0', hflags, hip⟩ | ⟨addr, ha⟩
  · cases h0.symm.trans h0'
    exact ⟨hflags, hip⟩
  · rw [h0, effectiveAddress_register] at ha
    cases ha

/-- Settles O23: the source goes to the named part, and IP is written last. -/
theorem movToRegisterWritesTheSource : Obligations.MovToRegisterWritesTheSource := by
  intro i acc s hop h0
  obtain ⟨v, hv⟩ := Instr.srcValue_some (mov_mem_twoOperandOps hop) s
  obtain ⟨hflags, hip⟩ := accessSlot_operand0 (mov_mem_twoOperandOps hop) h0
  refine ⟨v, _, hv, exec_mov_register hop h0 hv, ?written, rfl, ?flags, ?regs, ?mem, ?rest⟩
  case written =>
    cases acc with
    | word slot =>
      exact (State.getReg_setReg_ne (b := slot) hip _ _).trans (State.getReg_setReg_same (a := slot) hflags s v)
    | low r =>
      change (State.getReg _ (halfSlot r)).toNat = _
      rw [State.getReg_setReg_ne (halfSlot_ne_ip r), regWrite_low_toNat]
    | high r =>
      change (State.getReg _ (halfSlot r)).toNat = _
      rw [State.getReg_setReg_ne (halfSlot_ne_ip r), regWrite_high_toNat]
  case flags => rw [State.getReg_setReg_ne (by decide), getReg_regWrite_ne hflags.symm]
  case regs => exact regsKept_setReg (regsKept_regWrite (regsKept_refl s _) (by simp) v) (by simp) _
  case mem => exact memKept_of_mem_eq (regWrite_mem acc v s)
  case rest => exact restKept_trans (regWrite_restKept acc v s) (restKept_setReg _ _ _)

/-- Settles O24: the store at the effective address, and its frame. -/
theorem movToMemoryStoresTheSource : Obligations.MovToMemoryStoresTheSource := by
  intro i s addr hop ha hw
  obtain ⟨v, hv⟩ := Instr.srcValue_some (mov_mem_twoOperandOps hop) s
  refine ⟨v, _, hv, exec_mov_memory hop ha hv, ?low, ?high, ?outside, rfl, ?regs, ?rest⟩
  case low => rw [State.setReg_mem, memWrite_get_low hw, lowByte_toNat]
  case high =>
    intro hwide
    rw [State.setReg_mem, hwide, memWrite_get_high hw, highByte_toNat]
  case outside => exact fun a h0 h1 => memWrite_get_ne addr i.wide v s h0 h1
  case regs => exact regsKept_setReg (regsKept_memWrite (regsKept_refl s _) addr i.wide v) (by simp) _
  case rest => exact restKept_trans (memWrite_restKept addr i.wide v s) (restKept_setReg _ _ _)

/-! ### ADD and SUB (42_arith.md R180 to R183) -/

theorem regsKept_withUnitFlags (f : ArithOp) (x : Aligned) (s : State) {except : List Slot} (h : Slot.flags ∈ except) :
    RegsKept s (withUnitFlags f x s) except :=
  regsKept_setReg (regsKept_refl s except) h _

/-- The arithmetic operation of an ADD (true) or a SUB (false). -/
def addOrSub (isAdd : Bool) : ArithOp := if isAdd then .add else .sub

theorem addOrSub_fn (isAdd : Bool) : (addOrSub isAdd).fn = unitFn isAdd := by cases isAdd <;> rfl

theorem addOrSub_store (isAdd : Bool) (dst : Operand) (wide : Bool) (r : Int) (s : State) :
    (addOrSub isAdd).store dst wide r s = writeBack dst wide r s := by
  cases isAdd <;> rfl

theorem arithOpOf_addOrSub {isAdd : Bool} {i : Instr} (h : IsAddOrSub isAdd i) :
    arithOpOf i.op = some (addOrSub isAdd) := by
  cases isAdd <;> simp [IsAddOrSub] at h <;> simp [h, arithOpOf, addOrSub]

theorem addOrSub_mem_twoOperandOps {isAdd : Bool} {i : Instr} (h : IsAddOrSub isAdd i) : i.op ∈ twoOperandOps :=
  op_mem_twoOperandOps_of_arith (arithOpOf_addOrSub h)

/-- An ADD or SUB writes back the sum or difference of its aligned operands, after the flags. -/
theorem exec_addOrSub {isAdd : Bool} {i : Instr} (h : IsAddOrSub isAdd i) {s : State} {v : Word} {x : Aligned}
    (hv : srcValue i.operand1 i.wide s = some v) (hx : alignDst i.operand0 v i.wide s = some x) :
    exec i s = .next ((writeBack i.operand0 i.wide (sumOrDifference isAdd x.a x.b)
      (withUnitFlags (addOrSub isAdd) x s)).setReg .ip (ipAfter s i.size 0)) := by
  rw [exec_arith_next (arithOpOf_addOrSub h) hv hx, addOrSub_store, addOrSub_fn, unitFn_apply]

/-- A write-back that leaves FLAGS leaves the unit's word there. -/
theorem addOrSub_flags {s u : State} {isAdd : Bool} {x : Aligned} (v : Word)
    (hu : u.getReg .flags = (withUnitFlags (addOrSub isAdd) x s).getReg .flags) :
    (u.setReg .ip v).getReg .flags = flagUnit (unitFn isAdd) x.a x.b x.width (s.getReg .flags) := by
  rw [State.getReg_setReg_ne (by decide), hu, getReg_flags_withUnitFlags, addOrSub_fn]

theorem writeBack_word (slot : Slot) (wide : Bool) (r : Int) (s : State) :
    writeBack (.register (.word slot)) wide r s = s.setReg slot (uint16 r) := rfl

theorem writeBack_low (h : HalfReg) (wide : Bool) (r : Int) (s : State) :
    writeBack (.register (.low h)) wide r s = regWrite (.low h) (uint16 r) s := rfl

/-- A high half gets `t[15:8]` (42_arith.md R183). -/
theorem writeBack_high (h : HalfReg) (wide : Bool) (r : Int) (s : State) :
    writeBack (.register (.high h)) wide r s = regWrite (.high h) ((highByte (uint16 r)).setWidth 16) s := rfl

theorem withUnitFlags_wf {s : State} (hw : s.mem.wf = true) (f : ArithOp) (x : Aligned) :
    (withUnitFlags f x s).mem.wf = true := hw

theorem uint16_toNat (r : Int) : ((uint16 r).toNat : Int) = r % 65536 := by
  rw [uint16, BitVec.toNat_ofInt]
  omega

theorem uint16_sumOrDifference (isAdd : Bool) (x y : Word) :
    uint16 (sumOrDifference isAdd x.toInt y.toInt) = if isAdd then x + y else x - y := by
  cases isAdd
  · exact ofInt_toInt_sub x y
  · exact ofInt_toInt_add x y

/-- Settles O25: the word written back is `uint16` of the signed sum or difference, which is that of the words. -/
theorem addSubWordRegister : Obligations.AddSubWordRegister := by
  intro isAdd i slot s h h0
  have htwo := addOrSub_mem_twoOperandOps h
  obtain ⟨v, hv⟩ := Instr.srcValue_some htwo s
  obtain ⟨hflags, hip⟩ : slot ≠ .flags ∧ slot ≠ .ip := accessSlot_operand0 htwo h0
  have hx : alignDst i.operand0 v i.wide s = some ⟨(s.getReg slot).toInt, v.toInt, .word⟩ := by
    rw [h0]
    rfl
  have hexec := exec_addOrSub h hv hx
  rw [h0, writeBack_word] at hexec
  refine ⟨v, _, hv, hexec, ?result, ?flags, rfl, ?regs, ?mem, ?rest⟩
  case result =>
    rw [State.getReg_setReg_ne hip, State.getReg_setReg_same hflags, uint16_sumOrDifference]
  case flags => rw [addOrSub_flags _ (State.getReg_setReg_ne hflags.symm _ _)]
  case regs =>
    exact regsKept_setReg (regsKept_setReg (regsKept_withUnitFlags _ _ s (by simp)) (by simp) _) (by simp) _
  case mem => exact memKept_of_mem_eq rfl
  case rest => exact ⟨rfl, rfl, rfl⟩

theorem toNat_emod_256_eq (v : Word) : v.toInt % 256 = (v.toNat : Int) % 256 := by
  have := toInt_emod_65536 v
  omega

/-- The low byte of a sum or difference depends on the low bytes of its operands. -/
theorem sumOrDifference_emod_256 (isAdd : Bool) (a : Int) (v : Word) :
    sumOrDifference isAdd a v.toInt % 65536 % 256 = sumOrDifference isAdd a v.toNat % 256 := by
  have := toNat_emod_256_eq v
  cases isAdd <;> simp only [sumOrDifference, Bool.false_eq_true, if_true, if_false] <;> omega

/-- The high byte of a word sum with a source shifted left by 8 is the sum of the high bytes (42_arith.md R181). -/
theorem sumOrDifference_shifted_div_256 (isAdd : Bool) (x v : Word) :
    sumOrDifference isAdd x.toInt (v <<< 8).toInt % 65536 / 256 =
      sumOrDifference isAdd (x.toNat / 256) v.toNat % 256 := by
  have hx := toInt_emod_65536 x
  have hv := toInt_emod_65536 (v <<< 8)
  rw [BitVec.toNat_shiftLeft, Nat.shiftLeft_eq] at hv
  cases isAdd <;> simp only [sumOrDifference, Bool.false_eq_true, if_true, if_false] <;> omega

/-- Settles O26: `regWrite` puts one byte of `uint16 r` in its half; a high half takes `t[15:8]` of the whole-word
result. -/
theorem addSubByteRegister : Obligations.AddSubByteRegister := by
  intro isAdd i r s h
  have htwo := addOrSub_mem_twoOperandOps h
  obtain ⟨v, hv⟩ := Instr.srcValue_some htwo s
  have hip := halfSlot_ne_ip r
  have hflags := halfSlot_ne_flags r
  constructor
  · intro h0
    have hx : alignDst i.operand0 v i.wide s = some ⟨(regRead (.low r) s).toNat, v.toInt, .byte⟩ := by
      rw [h0]
      rfl
    rw [regRead_low_toNat] at hx
    have hexec := exec_addOrSub h hv hx
    rw [h0, writeBack_low] at hexec
    refine ⟨v, _, hv, hexec, ?result, ?other, ?flags, rfl, ?regs, ?mem, ?rest⟩
    case result =>
      rw [State.getReg_setReg_ne hip, ← sumOrDifference_emod_256, ← uint16_toNat]
      rw [regWrite_low_toNat]
      push_cast
      omega
    case other =>
      rw [State.getReg_setReg_ne hip, regWrite_low_toNat, getReg_withUnitFlags hflags]
      omega
    case flags => rw [addOrSub_flags _ (getReg_regWrite_ne hflags.symm _ _)]
    case regs =>
      exact regsKept_setReg (regsKept_regWrite (regsKept_withUnitFlags _ _ s (by simp)) (by simp [accessSlot]) _) (by simp) _
    case mem => exact memKept_of_mem_eq (regWrite_mem _ _ _)
    case rest => exact regWrite_restKept _ _ _
  · intro h0
    have hx : alignDst i.operand0 v i.wide s = some ⟨(s.getReg (halfSlot r)).toInt, (v <<< 8).toInt, .word⟩ := by
      rw [h0]
      rfl
    have hexec := exec_addOrSub h hv hx
    rw [h0, writeBack_high] at hexec
    refine ⟨v, _, hv, hexec, ?result, ?other, ?flags, rfl, ?regs, ?mem, ?rest⟩
    case result =>
      rw [State.getReg_setReg_ne hip, ← sumOrDifference_shifted_div_256, ← uint16_toNat]
      rw [regWrite_high_toNat, BitVec.toNat_setWidth, highByte_toNat]
      push_cast
      omega
    case other =>
      rw [State.getReg_setReg_ne hip, regWrite_high_toNat, getReg_withUnitFlags hflags]
      omega
    case flags => rw [addOrSub_flags _ (getReg_regWrite_ne hflags.symm _ _)]
    case regs =>
      exact regsKept_setReg (regsKept_regWrite (regsKept_withUnitFlags _ _ s (by simp)) (by simp [accessSlot]) _) (by simp) _
    case mem => exact memKept_of_mem_eq (regWrite_mem _ _ _)
    case rest => exact regWrite_restKept _ _ _

/-- The flags written before the write-back do not move its address: it reads base and index registers only. -/
theorem effectiveAddress_withUnitFlags (i : Instr) (f : ArithOp) (x : Aligned) (s : State) :
    effectiveAddress i.operand0 (withUnitFlags f x s) = effectiveAddress i.operand0 s := by
  refine Instr.effectiveAddress_congr (fun r hr => getReg_withUnitFlags ?_ f x s) i
  rintro rfl
  simp at hr

theorem memRead_setReg (addr : Int) (wide : Bool) (s : State) (a : Slot) (v : Word) :
    memRead addr wide (s.setReg a v) = memRead addr wide s := rfl

theorem alignMemory_word (addr : Int) (v : Word) (s : State) :
    alignMemory addr v true s = ⟨(memRead addr true s).toInt, v.toInt, .word⟩ := rfl

/-- A byte of memory reaches the unit as 0..255 (42_arith.md R181). -/
theorem alignMemory_byte (addr : Int) (v : Word) (s : State) :
    alignMemory addr v false s = ⟨(s.memByte addr).toNat, v.toInt, .byte⟩ := by
  rw [alignMemory, if_neg (by simp), memRead_byte_toNat]
  rfl

theorem lowByte_uint16_sumOrDifference (isAdd : Bool) (a : Int) (v : Word) :
    ((lowByte (uint16 (sumOrDifference isAdd a v.toInt))).toNat : Int) =
      (a + if isAdd then (v.toNat : Int) else -v.toNat) % 256 := by
  have hr := uint16_toNat (sumOrDifference isAdd a v.toInt)
  rw [lowByte_toNat, Int.natCast_emod, hr]
  have := sumOrDifference_emod_256 isAdd a v
  cases isAdd <;> exact this

/-- Settles O27: the result is stored at the address the operands were read from, as a word or as its low byte. -/
theorem addSubMemory : Obligations.AddSubMemory := by
  intro isAdd i s addr h ha hw
  have htwo := addOrSub_mem_twoOperandOps h
  obtain ⟨v, hv⟩ := Instr.srcValue_some htwo s
  have hexec := exec_addOrSub h hv (alignDst_memory ha v i.wide)
  rw [writeBack_memory ((effectiveAddress_withUnitFlags ..).trans ha)] at hexec
  refine ⟨v, _, hv, hexec, ?result, ?outside, rfl, ?regs, ?rest⟩
  case result =>
    cases i.wide
    · rw [alignMemory_byte, State.memByte_setReg, memByte_memWrite_low (withUnitFlags_wf hw _ _),
        addOrSub_flags _ (getReg_memWrite ..), if_neg (by simp)]
      exact ⟨(lowByte_uint16_sumOrDifference isAdd _ v).symm, rfl⟩
    · rw [alignMemory_word, memRead_setReg, memRead_memWrite_word (withUnitFlags_wf hw _ _),
        addOrSub_flags _ (getReg_memWrite ..), if_pos rfl]
      exact ⟨uint16_sumOrDifference isAdd _ v, rfl⟩
  case outside => exact fun a h0 h1 => memWrite_get_ne addr i.wide _ _ h0 h1
  case regs =>
    exact regsKept_setReg (regsKept_memWrite (regsKept_withUnitFlags _ _ s (by simp)) addr i.wide _) (by simp) _
  case rest => exact memWrite_restKept addr i.wide _ _

/-! ### CMP (42_arith.md R190) -/

theorem arithOpOf_cmp {i : Instr} (h : i.op = .cmp) : arithOpOf i.op = some .cmp := by
  rw [h]
  rfl

/-- Settles O28: CMP has no write-back, so FLAGS and IP are all it writes; the unit is fed by `Align`, whose value is
known for each destination form. -/
theorem cmpWritesFlagsAndIpOnly : Obligations.CmpWritesFlagsAndIpOnly := by
  intro i s hop
  have hf := arithOpOf_cmp hop
  have htwo := op_mem_twoOperandOps_of_arith hf
  obtain ⟨v, hv⟩ := Instr.srcValue_some htwo s
  obtain ⟨x, hx⟩ := alignDst_some htwo v s
  have hflags : ((withUnitFlags .cmp x s).setReg .ip (ipAfter s i.size 0)).getReg .flags =
      flagUnit .sub x.a x.b x.width (s.getReg .flags) := getReg_flags_withUnitFlags .cmp x s
  refine ⟨v, _, hv, exec_arith_next hf hv hx, fun slot h0 => ?word, fun r h0 => ?low, fun r h0 => ?high,
    fun addr ha => ?memory, rfl, ?regs, ?mem, ?rest⟩
  case word =>
    rw [h0] at hx
    cases hx
    exact hflags
  case low =>
    rw [h0] at hx
    cases hx
    rw [← regRead_low_toNat]
    exact hflags
  case high =>
    rw [h0] at hx
    cases hx
    exact hflags
  case memory =>
    rw [alignDst_memory ha v i.wide] at hx
    cases hx
    rw [← memRead_byte_toNat]
    cases hwide : i.wide <;> rw [hwide] at hflags <;> exact hflags
  case regs => exact regsKept_setReg (regsKept_withUnitFlags _ _ s (by simp)) (by simp) _
  case mem => exact memKept_of_mem_eq rfl
  case rest => exact ⟨rfl, rfl, rfl⟩

end Sys2Proof.Proofs
end

section

namespace Sys2Proof.Proofs

open Sys2Proof.Machine Sys2Proof.Claim

/-! ### Control transfer (43_jumps.md R200 to R226) -/

theorem branches_of_branchOp {i : Instr} {s : State} {taken taken' : Bool} {d : Byte}
    (h : exec i s = branchOp 2 (relOperand d) taken s) (ht : taken = taken') : Branches i s taken' d := by
  rw [Branches, h, branchOp_eq, ht]
  rfl

/-- Settles O29: the condition of each jump reads its bits of FLAGS. -/
theorem overflowCarryZeroJumps : Obligations.OverflowCarryZeroJumps := by
  intro d s
  dsimp only
  refine ⟨branches_of_branchOp rfl ?jo, branches_of_branchOp rfl ?jno, branches_of_branchOp rfl ?jb,
    branches_of_branchOp rfl ?jnb, branches_of_branchOp rfl ?je, branches_of_branchOp rfl ?jne,
    branches_of_branchOp rfl ?jbe, branches_of_branchOp rfl ?ja⟩
  case jo => exact (beq_true _).symm
  case jno => exact (beq_false _).symm
  case jb => exact (beq_true _).symm
  case jnb => exact (beq_false _).symm
  case je => exact (beq_true _).symm
  case jne => exact (beq_false _).symm
  case jbe =>
    rw [beq_true, beq_true]
    rfl
  case ja =>
    rw [beq_false, beq_false, ← Bool.not_or]
    rfl

theorem beq_eq_not_xor : ∀ a b : Bool, (a == b) = !(a ^^ b) := by decide

/-- Settles O30: as O29, with SF ≠ OF as the exclusive or of the two bits. -/
theorem signParityComparisonJumps : Obligations.SignParityComparisonJumps := by
  intro d s
  dsimp only
  refine ⟨branches_of_branchOp rfl ?js, branches_of_branchOp rfl ?jns, branches_of_branchOp rfl ?jp,
    branches_of_branchOp rfl ?jnp, branches_of_branchOp rfl ?jl, branches_of_branchOp rfl ?jnl,
    branches_of_branchOp rfl ?jle, branches_of_branchOp rfl ?jg⟩
  case js => exact (beq_true _).symm
  case jns => exact (beq_false _).symm
  case jp => exact (beq_true _).symm
  case jnp => exact (beq_false _).symm
  case jl => rfl
  case jnl => exact (beq_eq_not_xor _ _).symm
  case jle =>
    rw [beq_true]
    rfl
  case jg =>
    rw [beq_false, beq_eq_not_xor, ← Bool.not_or]
    rfl

theorem loops_of_loopOp {i : Instr} {s : State} {cond : Bool → Bool} {cond' : Bool} {d : Byte}
    (h : exec i s = loopOp 2 (relOperand d) cond s) (hc : cond (flagZF (s.getReg .flags)) = cond') :
    Loops i s cond' d := by
  rw [Loops, h, loopOp_eq, hc]
  have hif : (if (s.getReg .cx - 1 != 0 && cond') = true then d.toInt else 0) =
      if s.regs.cx - 1 ≠ 0 ∧ cond' = true then d.toInt else 0 := by
    refine if_congr ?_ rfl rfl
    rw [Bool.and_eq_true, bne_iff_ne]
    rfl
  rw [hif]
  rfl

theorem loops_cx {i : Instr} {s t : State} {cond : Bool} {d : Byte} (h : Loops i s cond d) (ht : exec i s = .next t) :
    t.regs.cx = s.regs.cx - 1 := by
  cases h.symm.trans ht
  rfl

/-- Settles O31: CX is written before the test, and the report of the family reads CX before and after. -/
theorem loopFamilyDecrementsCxThenTests : Obligations.LoopFamilyDecrementsCxThenTests := by
  intro d s
  dsimp only
  have hnz : Loops (.loopnz d) s (s.regs.flags.getLsbD 6 == false) d := loops_of_loopOp rfl (beq_false _).symm
  have hz : Loops (.loopz d) s (s.regs.flags.getLsbD 6 == true) d := loops_of_loopOp rfl (beq_true _).symm
  have hl : Loops (.loop d) s true d := loops_of_loopOp rfl rfl
  refine ⟨hnz, hz, hl, fun i address t hi ht => ?_⟩
  obtain rfl | rfl | rfl := hi
  · exact ⟨rfl, rfl, loops_cx hnz ht⟩
  · exact ⟨rfl, rfl, loops_cx hz ht⟩
  · exact ⟨rfl, rfl, loops_cx hl ht⟩

/-- Settles O32: JCXZ tests CX and writes IP only, so its report holds CX unchanged; JMP's condition is constant. -/
theorem jcxzTestsAndJmpAlwaysJumps : Obligations.JcxzTestsAndJmpAlwaysJumps := by
  intro d s
  have hjcxz : Branches (.jcxz d) s (s.regs.cx == 0) d := branches_of_branchOp rfl rfl
  refine ⟨hjcxz, branches_of_branchOp rfl rfl, fun address t ht => ?_⟩
  cases hjcxz.symm.trans ht
  exact ⟨rfl, rfl, rfl⟩

theorem ofInt_toNat_add (x : Word) (n : Nat) : BitVec.ofInt 16 ((x.toNat : Int) + n + 0) = x + BitVec.ofNat 16 n := by
  rw [Int.add_zero, BitVec.ofInt_add, BitVec.ofInt_natCast, BitVec.ofInt_natCast, BitVec.ofNat_toNat, BitVec.setWidth_eq]

/-- Settles O33: 90 is NOP's encoding, and its size 1 is all that moves IP. -/
theorem nopAdvancesIpByOne : Obligations.NopAdvancesIpByOne := by
  intro narrow rest s
  refine ⟨decodeInvertsEncode narrow .nop rest rfl, rfl, rfl, ?_⟩
  have hip : ipAfter s Instr.nop.size 0 = s.regs.ip + 1 := ofInt_toNat_add s.regs.ip 1
  rw [← hip]
  rfl

/-! ### The structural decoder (40_decoder.md R135 to R142) -/

/-- `build` copies its parts from the instruction and sets no flag but `wide`. -/
theorem builds_of_parts {i : Instr} {op : Op} {operand0 operand1 : Operand} {wide : Bool} (hop : i.op = op)
    (h0 : i.operand0 = operand0) (h1 : i.operand1 = operand1) (hw : i.wide = wide) : Builds i op operand0 operand1 wide := by
  subst hop h0 h1 hw
  exact fun _ => ⟨rfl, rfl, rfl, rfl, rfl⟩

theorem setWidth_16_20 (a : Byte) : (a.setWidth 16).setWidth 20 = a.setWidth 20 :=
  BitVec.setWidth_setWidth (by decide)

/-- Settles O57: the register, segment and rm tables row by row, then the parts of each constructor. -/
theorem structuralDecoderBuildsTheOperands : Obligations.StructuralDecoderBuildsTheOperands := by
  refine ⟨by decide, by decide, fun _ _ _ => ⟨rfl, rfl⟩, fun row hrow w d8 d16 => ?rmTable, fun a8 a16 => ?addresses,
    fun form hform w reg rm => ?formatRM, fun form hform rm b v => ?formatRMIA, fun form hform b v => ?formatAI,
    fun form hform b => ?formatJ8, builds_of_parts rfl rfl rfl rfl, fun rm reg sr b v => ?mov, fun addr => ?formatAM⟩
  case rmTable =>
    simp only [rmTable, List.cons_append, List.nil_append, List.mem_cons, List.not_mem_nil, or_false] at hrow
    obtain rfl | rfl | rfl | rfl | rfl | rfl | rfl | rfl := hrow <;> exact ⟨rfl, rfl, rfl⟩
  case addresses => exact ⟨congrArg Operand.direct (setWidth_16_20 a8), rfl⟩
  case formatRM =>
    simp only [registerMemoryForms, List.mem_cons, List.not_mem_nil, or_false] at hform
    obtain rfl | rfl | rfl | rfl := hform <;>
      exact ⟨builds_of_parts rfl rfl rfl rfl, builds_of_parts rfl rfl rfl rfl⟩
  case formatRMIA =>
    simp only [arithImmediateForms, List.mem_cons, List.not_mem_nil, or_false] at hform
    obtain rfl | rfl | rfl := hform <;>
      exact ⟨builds_of_parts rfl rfl rfl rfl, builds_of_parts rfl rfl rfl rfl, builds_of_parts rfl rfl rfl rfl⟩
  case formatAI =>
    simp only [accumulatorForms, List.mem_cons, List.not_mem_nil, or_false] at hform
    obtain rfl | rfl | rfl := hform <;>
      exact ⟨builds_of_parts rfl rfl rfl rfl, builds_of_parts rfl rfl rfl rfl⟩
  case formatJ8 =>
    have hparts : ∀ form ∈ jumpForms, ∀ b : Byte, (form.1 b).op = form.2 ∧ (form.1 b).operand0 = relOperand b ∧
        (form.1 b).operand1 = .absent ∧ (form.1 b).wide = false := by
      simp [jumpForms, Instr.op, Instr.operand0, Instr.operand1, Instr.wide]
    obtain ⟨hop, h0, h1, hw⟩ := hparts form hform b
    exact builds_of_parts hop h0 h1 hw
  case mov =>
    exact ⟨builds_of_parts rfl rfl rfl rfl, builds_of_parts rfl rfl rfl rfl, builds_of_parts rfl rfl rfl rfl,
      builds_of_parts rfl rfl rfl rfl, builds_of_parts rfl rfl rfl rfl, builds_of_parts rfl rfl rfl rfl⟩
  case formatAM =>
    exact ⟨builds_of_parts rfl rfl rfl rfl, builds_of_parts rfl rfl rfl rfl, builds_of_parts rfl rfl rfl rfl,
      builds_of_parts rfl rfl rfl rfl⟩

end Sys2Proof.Proofs
end

section

namespace Sys2Proof.Proofs

open Sys2Proof.Machine Sys2Proof.Claim

/-! ### An execution read backwards -/

/-- Everything an instruction that answered a next state did. -/
theorem exec_next {i : Instr} {s t : State} (h : exec i s = .next t) :
    (i.op = .mov ∧ ∃ v u, srcValue i.operand1 i.wide s = some v ∧ dstWrite i.operand0 i.wide v s = some u ∧
      t = u.setReg .ip (ipAfter s i.size 0)) ∨
    (∃ f, arithOpOf i.op = some f ∧ ∃ v x, srcValue i.operand1 i.wide s = some v ∧
      alignDst i.operand0 v i.wide s = some x ∧
      t = (f.store i.operand0 i.wide (f.fn.apply x.a x.b) (withUnitFlags f x s)).setReg .ip (ipAfter s i.size 0)) ∨
    (i.op ∉ twoOperandOps ∧ ∃ cx disp, (∀ c, cx c = c ∨ i.op ∈ loopOps) ∧
      (∀ f c, disp f c = 0 ∨ ∃ b : Byte, i.operand0 = relOperand b ∧ disp f c = b.toInt) ∧
      t = controlResult i.size cx disp s) := by
  rcases exec_cases i s with ⟨hop, v, u, hv, hu, he⟩ | ⟨f, hf, v, x, hv, hx, he⟩ | ⟨hop, cx, disp, hcx, hdisp, he⟩
  · cases h.symm.trans he
    exact .inl ⟨hop, v, u, hv, hu, rfl⟩
  · cases h.symm.trans he
    exact .inr (.inl ⟨f, hf, v, x, hv, hx, rfl⟩)
  · cases h.symm.trans (he s)
    exact .inr (.inr ⟨hop, cx, disp, hcx, hdisp, rfl⟩)

/-- The frame of every instruction. -/
theorem exec_frame {i : Instr} {s t : State} (h : exec i s = .next t) :
    RestKept s t ∧ (s.mem.wf = true → t.mem.wf = true) ∧
    ∀ r, r ≠ .ip → r ≠ .flags → (r = .cx → i.op ∉ loopOps) → (∀ acc, i.operand0 = .register acc → r ≠ accessSlot acc) →
      t.getReg r = s.getReg r := by
  rcases exec_next h with ⟨-, v, u, -, hu, rfl⟩ | ⟨f, -, v, x, -, -, rfl⟩ | ⟨-, cx, disp, hcx, -, rfl⟩
  · obtain ⟨hwf, hcursor, hcode, hparams, hregs⟩ := dstWrite_keeps hu
    refine ⟨⟨hcursor, hcode, hparams⟩, hwf, fun r hip _ _ hdst => ?_⟩
    rw [State.getReg_setReg_ne hip, hregs r hdst]
  · obtain ⟨hwf, hcursor, hcode, hparams, hregs⟩ :=
      store_keeps f i.operand0 i.wide (f.fn.apply x.a x.b) (withUnitFlags f x s)
    refine ⟨⟨hcursor, hcode, hparams⟩, hwf, fun r hip hflags _ hdst => ?_⟩
    rw [State.getReg_setReg_ne hip, hregs r hdst, getReg_withUnitFlags hflags]
  · refine ⟨restKept_controlResult .., id, fun r hip _ hloop _ => ?_⟩
    rw [controlResult, State.getReg_setReg_ne hip, State.getReg_setReg]
    split
    · rename_i hr
      rcases hcx (s.getReg .cx) with hc | hop
      · simp [hr, hc]
      · exact absurd hop (hloop hr)
    · rfl

/-- FLAGS after an instruction: as before, or the flag unit's word of an ADD, SUB or CMP. -/
theorem exec_flags {i : Instr} {s t : State} (h : exec i s = .next t) :
    t.getReg .flags = s.getReg .flags ∨
    (i.op ∈ [Op.add, .sub, .cmp] ∧ ∃ fn a b w, t.getReg .flags = flagUnit fn a b w (s.getReg .flags)) := by
  have hdst (htwo : i.op ∈ twoOperandOps) : ∀ acc, i.operand0 = .register acc → Slot.flags ≠ accessSlot acc :=
    fun _ h0 => (accessSlot_operand0 htwo h0).1.symm
  rcases exec_next h with ⟨hop, v, u, -, hu, rfl⟩ | ⟨f, hf, v, x, -, -, rfl⟩ | ⟨-, cx, disp, -, -, rfl⟩
  · obtain ⟨-, -, -, -, hregs⟩ := dstWrite_keeps hu
    exact .inl (hregs .flags (hdst (mov_mem_twoOperandOps hop)))
  · obtain ⟨-, -, -, -, hregs⟩ := store_keeps f i.operand0 i.wide (f.fn.apply x.a x.b) (withUnitFlags f x s)
    have hop : i.op ∈ [Op.add, .sub, .cmp] := by
      revert hf
      cases i.op <;> simp [arithOpOf]
    refine .inr ⟨hop, f.fn, x.a, x.b, x.width, ?_⟩
    rw [State.getReg_setReg_ne (by decide), hregs .flags (hdst (op_mem_twoOperandOps_of_arith hf)),
      getReg_flags_withUnitFlags]
  · exact .inl (regsKept_controlResult i.size cx disp s .flags (by decide))

/-- Settles O35: only an arithmetic operation has the unit's word as its FLAGS. -/
theorem onlyArithmeticWritesFlags : Obligations.OnlyArithmeticWritesFlags := by
  intro i s t hop h
  rcases exec_flags h with hkept | ⟨harith, -⟩
  · exact hkept
  · exact absurd harith hop

/-- Settles O36: the unit passes TF, IF and DF through, and nothing else writes FLAGS. -/
theorem noStepWritesTrapInterruptDirection : Obligations.NoStepWritesTrapInterruptDirection := by
  intro s t h k hk
  obtain ⟨i, rest, u, -, -, hexec, rfl⟩ := step_next h
  rcases exec_flags hexec with hkept | ⟨-, fn, a, b, w, hunit⟩
  · exact congrArg (BitVec.getLsbD · k) hkept
  · exact (congrArg (BitVec.getLsbD · k) hunit).trans (flagUnit_getLsbD_preserved fn a b w _ hk)

/-! ### Segment registers (10_state.md R12, R15) -/

/-- The segment register slots. -/
def segmentSlots : List Slot := [.cs, .ds, .ss, .es]

theorem regAccess_no_segment (r : RegField) (w : Bool) : accessSlot (regAccess r w) ∉ segmentSlots := by
  cases r <;> cases w <;> decide

theorem slot_mem_segmentSlots (seg : SegField) : seg.slot ∈ segmentSlots := by cases seg <;> decide

theorem slot_injective {a b : SegField} (h : a.slot = b.slot) : a = b := by
  revert h
  cases a <;> cases b <;> simp [SegField.slot]

/-- The registers an effective address of the block can read (30_encoding.md R85). -/
def addressSlots : List Slot := [.bx, .bp, .si, .di]

/-- An operand that names no segment register and whose address reads none. -/
structure SegmentFree (op : Operand) : Prop where
  register : ∀ acc, op = .register acc → accessSlot acc ∉ segmentSlots
  address : ∀ s u : State, (∀ r ∈ addressSlots, s.getReg r = u.getReg r) → effectiveAddress op s = effectiveAddress op u

theorem segmentFree_regMem (rm : RegMem) (w : Bool) : SegmentFree (rm.operand w) := by
  refine ⟨fun acc h => ?_, fun s u h => RegMem.effectiveAddress_congr h rm w⟩
  cases rm with
  | reg r =>
    cases h
    exact regAccess_no_segment r w
  | direct a => cases h
  | mem b => cases h
  | mem8 b d => cases h
  | mem16 b d => cases h

theorem segmentFree_regAccess (r : RegField) (w : Bool) : SegmentFree (.register (regAccess r w)) := by
  refine ⟨fun acc h => ?_, fun _ _ _ => rfl⟩
  cases h
  exact regAccess_no_segment r w

theorem segmentFree_accAddr (a : AccAddr) : SegmentFree a.operand :=
  ⟨fun acc h => (by cases a <;> cases h), fun s u _ => AccAddr.effectiveAddress_congr s u a⟩

theorem segmentFree_immediate (v : BitVec 32) (rel : Bool) : SegmentFree (.immediate v rel) :=
  ⟨fun _ h => (by cases h), fun _ _ _ => rfl⟩

theorem segmentFree_absent : SegmentFree .absent := ⟨fun _ h => (by cases h), fun _ _ _ => rfl⟩

theorem segmentFree_rmDst (d w : Bool) (reg : RegField) (rm : RegMem) : SegmentFree (rmDst d w reg rm) := by
  cases d
  · exact segmentFree_regMem rm w
  · exact segmentFree_regAccess reg w

theorem segmentFree_rmSrc (d w : Bool) (reg : RegField) (rm : RegMem) : SegmentFree (rmSrc d w reg rm) := by
  cases d
  · exact segmentFree_regAccess reg w
  · exact segmentFree_regMem rm w

/-- Only the MOV to a segment register has one as its destination. -/
theorem segmentFree_operand0 {i : Instr} (h : ∀ sr rm, i ≠ .movRegisterOrMemoryToSegmentRegister sr rm) :
    SegmentFree i.operand0 := by
  cases i
  case movNormal => exact segmentFree_rmDst _ _ _ _
  case addNormal => exact segmentFree_rmDst _ _ _ _
  case subNormal => exact segmentFree_rmDst _ _ _ _
  case cmpNormal => exact segmentFree_rmDst _ _ _ _
  case movImmediateToRegisterOrMemory => exact segmentFree_regMem _ _
  case addImmediateToRegisterOrMemory => exact segmentFree_regMem _ _
  case subImmediateFromRegisterOrMemory => exact segmentFree_regMem _ _
  case cmpImmediateWithRegisterOrMemory => exact segmentFree_regMem _ _
  case movSegmentRegisterToRegisterOrMemory => exact segmentFree_regMem _ _
  case movRegisterOrMemoryToSegmentRegister sr rm => exact absurd rfl (h sr rm)
  case movImmediateToRegister => exact segmentFree_regAccess _ _
  case movMemoryToAccumulator => exact segmentFree_regAccess _ _
  case addImmediateToAccumulator => exact segmentFree_regAccess _ _
  case subImmediateFromAccumulator => exact segmentFree_regAccess _ _
  case cmpImmediateWithAccumulator => exact segmentFree_regAccess _ _
  case movAccumulatorToMemory => exact segmentFree_accAddr _
  case nop => exact segmentFree_absent
  all_goals exact segmentFree_immediate _ _

/-- Only the MOV from a segment register has one as its source. -/
theorem segmentFree_operand1 {i : Instr} (h : ∀ sr rm, i ≠ .movSegmentRegisterToRegisterOrMemory sr rm) :
    SegmentFree i.operand1 := by
  cases i
  case movNormal => exact segmentFree_rmSrc _ _ _ _
  case addNormal => exact segmentFree_rmSrc _ _ _ _
  case subNormal => exact segmentFree_rmSrc _ _ _ _
  case cmpNormal => exact segmentFree_rmSrc _ _ _ _
  case movRegisterOrMemoryToSegmentRegister => exact segmentFree_regMem _ _
  case movSegmentRegisterToRegisterOrMemory sr rm => exact absurd rfl (h sr rm)
  case movMemoryToAccumulator => exact segmentFree_accAddr _
  case movAccumulatorToMemory => exact segmentFree_regAccess _ _
  case movImmediateToRegisterOrMemory => exact segmentFree_immediate _ _
  case movImmediateToRegister => exact segmentFree_immediate _ _
  case addImmediateToRegisterOrMemory => exact segmentFree_immediate _ _
  case addImmediateToAccumulator => exact segmentFree_immediate _ _
  case subImmediateFromRegisterOrMemory => exact segmentFree_immediate _ _
  case subImmediateFromAccumulator => exact segmentFree_immediate _ _
  case cmpImmediateWithRegisterOrMemory => exact segmentFree_immediate _ _
  case cmpImmediateWithAccumulator => exact segmentFree_immediate _ _
  all_goals exact segmentFree_absent

/-- Settles O37: a segment register is no IP, FLAGS or CX, and a destination only of the MOV that names it. -/
theorem segmentRegistersWrittenByTheirMovOnly : Obligations.SegmentRegistersWrittenByTheirMovOnly := by
  intro i s t seg h hne
  obtain ⟨-, -, hregs⟩ := exec_frame h
  have hother : seg.slot ≠ .ip ∧ seg.slot ≠ .flags ∧ seg.slot ≠ .cx := by cases seg <;> decide
  refine hregs _ hother.1 hother.2.1 (fun hcx => absurd hcx hother.2.2) fun acc h0 hslot => ?_
  by_cases hseg : ∃ sr rm, i = .movRegisterOrMemoryToSegmentRegister sr rm
  · obtain ⟨sr, rm, rfl⟩ := hseg
    cases h0
    exact hne rm (slot_injective hslot ▸ rfl)
  · push Not at hseg
    exact (segmentFree_operand0 hseg).register acc h0 (hslot ▸ slot_mem_segmentSlots seg)

/-! ### Memory (10_state.md R12) -/

/-- An arithmetic instruction stores to memory only under ADD or SUB with a memory destination. -/
theorem store_mem {f : ArithOp} {op : Operand} (h : f = .cmp ∨ ∃ acc, op = .register acc) (wide : Bool) (r : Int)
    (s : State) : (f.store op wide r s).mem = s.mem := by
  obtain rfl | ⟨acc, rfl⟩ := h
  · rfl
  · have hback : (writeBack (.register acc) wide r s).mem = s.mem := by
      cases acc <;> rfl
    cases f with
    | add => exact hback
    | sub => exact hback
    | cmp => rfl

/-- Settles O39: without a memory destination, a MOV, ADD or SUB writes a register; the other operations write no
destination in memory. -/
theorem memoryChangesOnlyThroughMemoryDestinations : Obligations.MemoryChangesOnlyThroughMemoryDestinations := by
  intro i s t h hcond
  have hregister (htwo : i.op ∈ twoOperandOps) (hwrites : i.op ∈ [Op.mov, .add, .sub]) :
      ∃ acc, i.operand0 = .register acc := by
    rcases Instr.operand0_cases htwo s with ⟨acc, h0, -⟩ | ⟨addr, ha⟩
    · exact ⟨acc, h0⟩
    · rcases hcond with hop | hnone
      · exact absurd hwrites hop
      · rw [hnone] at ha
        cases ha
  rcases exec_next h with ⟨hop, v, u, -, hu, rfl⟩ | ⟨f, hf, v, x, -, -, rfl⟩ | ⟨-, cx, disp, -, -, rfl⟩
  · obtain ⟨acc, h0⟩ := hregister (mov_mem_twoOperandOps hop) (by simp [hop])
    rw [h0] at hu
    cases hu
    exact regWrite_mem acc v s
  · refine store_mem ?_ i.wide _ (withUnitFlags f x s)
    by_cases hwrites : i.op ∈ [Op.mov, .add, .sub]
    · exact .inr (hregister (op_mem_twoOperandOps_of_arith hf) hwrites)
    · refine .inl ?_
      revert hf hwrites
      cases i.op <;> simp [arithOpOf, eq_comm]
  · rfl

end Sys2Proof.Proofs
end

section

namespace Sys2Proof.Proofs

open Sys2Proof.Machine Sys2Proof.Claim

/-! ### Two runs alike but for the segment registers (10_state.md R15) -/

theorem sameButSegments_getReg {s u : State} (h : SameButSegments s u) {r : Slot} (hr : r ∉ segmentSlots) :
    s.getReg r = u.getReg r :=
  (h.1 r hr).symm

theorem sameButSegments_mem {s u : State} (h : SameButSegments s u) : s.mem = u.mem := h.2.1.symm

theorem sameButSegments_addressSlots {s u : State} (h : SameButSegments s u) :
    ∀ r ∈ addressSlots, s.getReg r = u.getReg r := by
  have hdisjoint : ∀ r ∈ addressSlots, r ∉ segmentSlots := by decide
  exact fun r hr => sameButSegments_getReg h (hdisjoint r hr)

theorem sameButSegments_memRead {s u : State} (h : SameButSegments s u) (addr : Int) (wide : Bool) :
    memRead addr wide s = memRead addr wide u := by
  simp only [memRead, State.memByte, sameButSegments_mem h]

theorem sameButSegments_srcValue {s u : State} (h : SameButSegments s u) {op : Operand} (hop : SegmentFree op)
    (wide : Bool) : srcValue op wide s = srcValue op wide u := by
  have haddr := hop.address s u (sameButSegments_addressSlots h)
  cases op with
  | absent => rfl
  | immediate v rel => rfl
  | register acc => exact congrArg some (regRead_congr (sameButSegments_getReg h (hop.register acc rfl)))
  | direct a => simp only [srcValue, haddr, sameButSegments_memRead h]
  | effective t1 t2 d o => simp only [srcValue, haddr, sameButSegments_memRead h]

theorem sameButSegments_alignDst {s u : State} (h : SameButSegments s u) {op : Operand} (hop : SegmentFree op)
    (v : Word) (wide : Bool) : alignDst op v wide s = alignDst op v wide u := by
  have haddr := hop.address s u (sameButSegments_addressSlots h)
  cases op with
  | absent => rfl
  | immediate v rel => rfl
  | register acc =>
    have hslot := sameButSegments_getReg h (hop.register acc rfl)
    cases acc with
    | word slot => simp only [alignDst, show s.getReg slot = u.getReg slot from hslot]
    | low r => simp only [alignDst, regRead_congr (acc := .low r) hslot]
    | high r => simp only [alignDst, show s.getReg (halfSlot r) = u.getReg (halfSlot r) from hslot]
  | direct a => simp only [alignDst, alignMemory, haddr, sameButSegments_memRead h]
  | effective t1 t2 d o => simp only [alignDst, alignMemory, haddr, sameButSegments_memRead h]

/-! The writes keep the relation. -/

theorem sameButSegments_setReg {s u : State} (h : SameButSegments s u) (a : Slot) (v : Word) :
    SameButSegments (s.setReg a v) (u.setReg a v) := by
  obtain ⟨hregs, hrest⟩ := h
  refine ⟨fun r hr => ?_, hrest⟩
  rw [State.getReg_setReg, State.getReg_setReg, hregs r hr]

theorem sameButSegments_regWrite {s u : State} (h : SameButSegments s u) (acc : RegAccess) (v : Word) :
    SameButSegments (regWrite acc v s) (regWrite acc v u) := by
  have hhalf (r : HalfReg) : s.getReg (halfSlot r) = u.getReg (halfSlot r) :=
    sameButSegments_getReg h (by cases r <;> decide)
  cases acc with
  | word slot => exact sameButSegments_setReg h slot v
  | low r =>
    simp only [regWrite, hhalf]
    exact sameButSegments_setReg h _ _
  | high r =>
    simp only [regWrite, hhalf]
    exact sameButSegments_setReg h _ _

theorem sameButSegments_setMemByte {s u : State} (h : SameButSegments s u) (x : Int) (v : Byte) :
    SameButSegments (s.setMemByte x v) (u.setMemByte x v) := by
  obtain ⟨hregs, hmem, hrest⟩ := h
  exact ⟨hregs, congrArg (Memory.set · (phys x) v) hmem, hrest⟩

theorem sameButSegments_memWrite {s u : State} (h : SameButSegments s u) (x : Int) (wide : Bool) (v : Word) :
    SameButSegments (memWrite x wide v s) (memWrite x wide v u) := by
  cases wide
  · exact sameButSegments_setMemByte h _ _
  · exact sameButSegments_setMemByte (sameButSegments_setMemByte h _ _) _ _

theorem sameButSegments_writeBack {s u : State} (h : SameButSegments s u) {op : Operand}
    (haddr : effectiveAddress op s = effectiveAddress op u) (wide : Bool) (r : Int) :
    SameButSegments (writeBack op wide r s) (writeBack op wide r u) := by
  cases hs : effectiveAddress op s with
  | some addr =>
    rw [writeBack_memory hs, writeBack_memory (haddr.symm.trans hs)]
    exact sameButSegments_memWrite h addr wide _
  | none =>
    cases op with
    | absent => exact h
    | immediate v rel => exact h
    | register acc =>
      cases acc with
      | word slot => exact sameButSegments_regWrite h (.word slot) _
      | low half => exact sameButSegments_regWrite h (.low half) _
      | high half => exact sameButSegments_regWrite h (.high half) _
    | direct a => cases hs
    | effective t1 t2 d o => cases t2 <;> cases hs

theorem sameButSegments_store {s u : State} (h : SameButSegments s u) (f : ArithOp) {op : Operand}
    (haddr : effectiveAddress op s = effectiveAddress op u) (wide : Bool) (r : Int) :
    SameButSegments (f.store op wide r s) (f.store op wide r u) := by
  cases f with
  | add => exact sameButSegments_writeBack h haddr wide r
  | sub => exact sameButSegments_writeBack h haddr wide r
  | cmp => exact h

theorem sameButSegments_ipAfter {s u : State} (h : SameButSegments s u) (size : Nat) (d : Int) :
    ipAfter s size d = ipAfter u size d := by
  have hip : s.regs.ip = u.regs.ip := sameButSegments_getReg h (r := .ip) (by decide)
  rw [ipAfter, ipAfter, hip]

theorem sameButSegments_withUnitFlags {s u : State} (h : SameButSegments s u) (f : ArithOp) (x : Aligned) :
    SameButSegments (withUnitFlags f x s) (withUnitFlags f x u) := by
  rw [withUnitFlags, withUnitFlags, sameButSegments_getReg h (r := .flags) (by decide)]
  exact sameButSegments_setReg h _ _

theorem sameButSegments_controlResult {s u : State} (h : SameButSegments s u) (size : Nat) (cx : Word → Word)
    (disp : Word → Word → Int) : SameButSegments (controlResult size cx disp s) (controlResult size cx disp u) := by
  rw [controlResult, controlResult, sameButSegments_getReg h (r := .cx) (by decide),
    sameButSegments_getReg h (r := .flags) (by decide), sameButSegments_ipAfter h]
  exact sameButSegments_setReg (sameButSegments_setReg h _ _) _ _

/-- Only a two-operand instruction other than a MOV can write back; none of them names a segment register. -/
theorem segmentFree_operand0_of_arith {i : Instr} {f : ArithOp} (hf : arithOpOf i.op = some f) :
    SegmentFree i.operand0 := by
  refine segmentFree_operand0 fun sr rm hi => ?_
  subst hi
  cases hf

/-- Settles O38: source, alignment, flags and addresses read no segment register, and each write is the same write in
both runs. -/
theorem segmentRegistersInfluenceNothingElse : Obligations.SegmentRegistersInfluenceNothingElse := by
  intro i s u s' h hne hexec
  have hsrc := sameButSegments_srcValue h (segmentFree_operand1 hne) i.wide
  have haddr := Instr.effectiveAddress_congr (sameButSegments_addressSlots h) i
  have hip := sameButSegments_ipAfter h i.size 0
  by_cases htwo : i.op ∈ twoOperandOps
  · obtain ⟨v, hv⟩ := Instr.srcValue_some htwo s
    have hv' : srcValue i.operand1 i.wide u = some v := hsrc ▸ hv
    rcases twoOperandOps_cases htwo with hmov | ⟨f, hf⟩
    · rcases Instr.operand0_cases htwo s with ⟨acc, h0, -⟩ | ⟨addr, ha⟩
      · cases hexec.symm.trans (exec_mov_register hmov h0 hv)
        refine ⟨_, exec_mov_register hmov h0 hv', ?_⟩
        rw [hip]
        exact sameButSegments_setReg (sameButSegments_regWrite h acc v) _ _
      · cases hexec.symm.trans (exec_mov_memory hmov ha hv)
        refine ⟨_, exec_mov_memory hmov (haddr ▸ ha) hv', ?_⟩
        rw [hip]
        exact sameButSegments_setReg (sameButSegments_memWrite h addr i.wide v) _ _
    · obtain ⟨x, hx⟩ := alignDst_some htwo v s
      have hx' := (sameButSegments_alignDst h (segmentFree_operand0_of_arith hf) v i.wide).symm.trans hx
      cases hexec.symm.trans (exec_arith_next hf hv hx)
      refine ⟨_, exec_arith_next hf hv' hx', ?_⟩
      rw [hip]
      refine sameButSegments_setReg (sameButSegments_store (sameButSegments_withUnitFlags h f x) f ?_ i.wide _) _ _
      rw [effectiveAddress_withUnitFlags, effectiveAddress_withUnitFlags, haddr]
  · obtain ⟨cx, disp, -, -, hcontrol⟩ := controls htwo
    cases hexec.symm.trans (hcontrol s)
    exact ⟨_, hcontrol u, sameButSegments_controlResult h i.size cx disp⟩

/-! ### The report (41_mov.md R168; 42_arith.md R194; 43_jumps.md R227) -/

theorem getReg_ip_of_exec_twoOperand {i : Instr} {s t : State} (htwo : i.op ∈ twoOperandOps) (h : exec i s = .next t) :
    t.getReg .ip = ipAfter s i.size 0 := by
  rcases exec_next h with ⟨-, v, u, -, -, rfl⟩ | ⟨f, -, v, x, -, -, rfl⟩ | ⟨hop, -⟩
  · rfl
  · rfl
  · exact absurd htwo hop

theorem reportedDestination_twoOperand {si : SemInstr} (h : si.op ∈ twoOperandOps) :
    reportedDestination si = si.operand0 := by
  unfold reportedDestination
  revert h
  cases si.op <;> simp [twoOperandOps]

theorem reportedDestination_absent {si : SemInstr}
    (h : si.op ∉ [Op.mov, .add, .sub, .cmp, .loop, .loopz, .loopnz, .jcxz]) : reportedDestination si = .absent := by
  unfold reportedDestination
  revert h
  cases si.op <;> simp

theorem destinationValue_eq_some {i : Instr} (htwo : i.op ∈ twoOperandOps) (s : State) :
    srcValue i.operand0 i.wide s = some (destinationValue i.operand0 i.wide s) := by
  have hne : srcValue i.operand0 i.wide s ≠ none := by
    rw [ne_eq, srcValue_eq_none_iff]
    intro h0
    rcases Instr.operand0_cases htwo s with ⟨acc, h0', -⟩ | ⟨addr, ha⟩
    · rw [h0] at h0'
      cases h0'
    · rw [h0] at ha
      cases ha
  obtain ⟨v, hv⟩ := Option.ne_none_iff_exists'.mp hne
  rw [destinationValue, hv, Option.getD_some]

/-- A CMP leaves its destination's value. -/
theorem srcValue_operand0_of_cmp {i : Instr} (hop : i.op = .cmp) {s t : State} (h : exec i s = .next t) :
    srcValue i.operand0 i.wide t = srcValue i.operand0 i.wide s := by
  obtain ⟨v, u, -, hexec, -, -, -, -, -, hregs, -⟩ := cmpWritesFlagsAndIpOnly i s hop
  cases h.symm.trans hexec
  have htwo := op_mem_twoOperandOps_of_arith (arithOpOf_cmp hop)
  have hmem : t.mem = s.mem :=
    memoryChangesOnlyThroughMemoryDestinations i s t h (.inl (by simp [hop]))
  rcases Instr.operand0_cases htwo s with ⟨acc, h0, hflags, hip⟩ | ⟨addr, ha⟩
  · rw [h0]
    exact congrArg some (regRead_congr (hregs _ (by simp [hflags, hip])))
  · have haddr : effectiveAddress i.operand0 t = some addr := by
      rw [← ha]
      refine Instr.effectiveAddress_congr (fun r hr => hregs r ?_) i
      revert r
      decide
    rw [srcValue_memory ha, srcValue_memory haddr]
    simp only [memRead, State.memByte, hmem]

/-- Settles O54: `operands[0]` has a value before and after; MOV keeps FLAGS, CMP its destination. -/
theorem reportOfTwoOperandInstructions : Obligations.ReportOfTwoOperandInstructions := by
  intro i address s t hop h
  have htwo : i.op ∈ twoOperandOps := hop
  have hdst : reportedDestination (i.build address) = i.operand0 :=
    reportedDestination_twoOperand (si := i.build address) hop
  dsimp only [stepReport]
  rw [hdst]
  refine ⟨rfl, destinationValue_eq_some htwo s, destinationValue_eq_some htwo t, rfl, rfl, rfl,
    getReg_ip_of_exec_twoOperand htwo h, fun hmov => ?_, fun hcmp => ?_⟩
  · exact onlyArithmeticWritesFlags i s t (by simp [hmov]) h
  · exact congrArg (Option.getD · 0) (srcValue_operand0_of_cmp hcmp h)

/-- Settles O56: the reported destination is absent, whose value is 0, and these operations write no flag. -/
theorem reportOfJumpsAndNop : Obligations.ReportOfJumpsAndNop := by
  intro i address s t hop h
  have hdst : reportedDestination (i.build address) = .absent :=
    reportedDestination_absent (si := i.build address) hop
  have hflags : t.getReg .flags = s.getReg .flags := by
    refine onlyArithmeticWritesFlags i s t (fun hmem => hop ?_) h
    simp only [List.mem_cons, List.not_mem_nil, or_false] at hmem
    rcases hmem with hmem | hmem | hmem <;> simp [hmem]
  dsimp only [stepReport]
  rw [hdst]
  exact ⟨rfl, rfl, rfl, rfl, hflags, rfl, rfl⟩

end Sys2Proof.Proofs
end

section

namespace Sys2Proof.Proofs

open Sys2Proof.Machine Sys2Proof.Claim

/-! ### The base table (70_reset_and_hazards.md R301) -/

theorem baseRow_eq_some_iff (op : Op) (k0 k1 : OperandKind) (base : Nat) (addEa : Bool) :
    baseRow op k0 k1 = some ⟨base, addEa⟩ ↔ ((op, k0, k1), base, addEa) ∈ baseTable := by
  constructor
  · intro h
    unfold baseRow at h
    split at h <;> cases h <;> decide
  · intro h
    simp only [baseTable, List.cons_append, List.nil_append, List.mem_cons, List.not_mem_nil, or_false,
      Prod.mk.injEq] at h
    rcases h with h | h | h | h | h | h | h | h | h | h | h <;> obtain ⟨⟨rfl, rfl, rfl⟩, rfl, rfl⟩ := h <;> rfl

/-- A row with "+ EA" is of MOV or ADD, and its memory operand stands opposite no accumulator. -/
theorem kinds_of_addEa {op : Op} {k0 k1 : OperandKind} {base : Nat} (h : ((op, k0, k1), base, true) ∈ baseTable) :
    (op = .mov ∨ op = .add) ∧
    ((k0 = .memory ∧ k1 ≠ .accumulator) ∨ (k0 ≠ .memory ∧ k0 ≠ .accumulator ∧ k1 = .memory)) := by
  have hrows : ∀ row ∈ baseTable, row.2.2 = true → (row.1.1 = .mov ∨ row.1.1 = .add) ∧
      ((row.1.2.1 = .memory ∧ row.1.2.2 ≠ .accumulator) ∨
        (row.1.2.1 ≠ .memory ∧ row.1.2.1 ≠ .accumulator ∧ row.1.2.2 = .memory)) := by decide
  exact hrows _ h rfl

/-! ### The memory operand of an encoding -/

theorem cycleEstimate_of_row {si : SemInstr} {row : BaseRow}
    (h : baseRow si.op (operandKind si.operand0) (operandKind si.operand1) = some row) :
    cycleEstimate si = .ok ⟨row.base, if row.addEa then eaCost si (memoryOperand si) else 0⟩ := by
  rw [cycleEstimate, h]

theorem cycleEstimate_of_no_row {si : SemInstr}
    (h : baseRow si.op (operandKind si.operand0) (operandKind si.operand1) = none) :
    cycleEstimate si = .error .unsupportedForCycleEstimation := by
  rw [cycleEstimate, h]

theorem operandKind_accOperand (w : Bool) : operandKind (accOperand w) = .accumulator := by cases w <;> rfl

theorem rmDst_eq_of_memory {d w : Bool} {reg : RegField} {rm : RegMem}
    (h : operandKind (rmDst d w reg rm) = .memory) : rmDst d w reg rm = rm.operand w := by
  cases d
  · rfl
  · exact absurd h (operandKind_register_ne_memory _)

theorem rmSrc_eq_of_memory {d w : Bool} {reg : RegField} {rm : RegMem}
    (h : operandKind (rmSrc d w reg rm) = .memory) : rmSrc d w reg rm = rm.operand w := by
  cases d
  · exact absurd h (operandKind_register_ne_memory _)
  · rfl

/-- A memory destination is the ModR/M operand, or the address of an accumulator move. -/
theorem operand0_memory {i : Instr} (h : operandKind i.operand0 = .memory) :
    (∃ rm, regMemOf i = some rm ∧ i.operand0 = rm.operand i.wide) ∨ operandKind i.operand1 = .accumulator := by
  cases i
  case movNormal d w reg rm => exact .inl ⟨rm, rfl, rmDst_eq_of_memory h⟩
  case addNormal d w reg rm => exact .inl ⟨rm, rfl, rmDst_eq_of_memory h⟩
  case subNormal d w reg rm => exact .inl ⟨rm, rfl, rmDst_eq_of_memory h⟩
  case cmpNormal d w reg rm => exact .inl ⟨rm, rfl, rmDst_eq_of_memory h⟩
  case movImmediateToRegisterOrMemory rm imm => exact .inl ⟨rm, rfl, rfl⟩
  case addImmediateToRegisterOrMemory rm imm => exact .inl ⟨rm, rfl, rfl⟩
  case subImmediateFromRegisterOrMemory rm imm => exact .inl ⟨rm, rfl, rfl⟩
  case cmpImmediateWithRegisterOrMemory rm imm => exact .inl ⟨rm, rfl, rfl⟩
  case movSegmentRegisterToRegisterOrMemory sr rm => exact .inl ⟨rm, rfl, rfl⟩
  case movAccumulatorToMemory w addr => exact .inr (operandKind_accOperand w)
  case movRegisterOrMemoryToSegmentRegister => exact absurd h (operandKind_register_ne_memory _)
  case movImmediateToRegister => exact absurd h (operandKind_register_ne_memory _)
  case movMemoryToAccumulator => exact absurd h (operandKind_register_ne_memory _)
  case addImmediateToAccumulator => exact absurd h (operandKind_register_ne_memory _)
  case subImmediateFromAccumulator => exact absurd h (operandKind_register_ne_memory _)
  case cmpImmediateWithAccumulator => exact absurd h (operandKind_register_ne_memory _)
  all_goals cases h

/-- A memory source is the ModR/M operand, or the address of an accumulator move. -/
theorem operand1_memory {i : Instr} (h : operandKind i.operand1 = .memory) :
    (∃ rm, regMemOf i = some rm ∧ i.operand1 = rm.operand i.wide) ∨ operandKind i.operand0 = .accumulator := by
  cases i
  case movNormal d w reg rm => exact .inl ⟨rm, rfl, rmSrc_eq_of_memory h⟩
  case addNormal d w reg rm => exact .inl ⟨rm, rfl, rmSrc_eq_of_memory h⟩
  case subNormal d w reg rm => exact .inl ⟨rm, rfl, rmSrc_eq_of_memory h⟩
  case cmpNormal d w reg rm => exact .inl ⟨rm, rfl, rmSrc_eq_of_memory h⟩
  case movRegisterOrMemoryToSegmentRegister sr rm => exact .inl ⟨rm, rfl, rfl⟩
  case movMemoryToAccumulator w addr => exact .inr (operandKind_accOperand w)
  case movAccumulatorToMemory => exact absurd h (operandKind_register_ne_memory _)
  case movSegmentRegisterToRegisterOrMemory => exact absurd h (operandKind_register_ne_memory _)
  all_goals cases h

/-! ### The effective-address cost (70_reset_and_hazards.md R302) -/

theorem eaCost_row (si : SemInstr) (base : EaBase) (disp : BitVec 16) :
    eaCost si (effectiveOperand base disp) = termsCost base + displacementCost si base.term1 base.term2 disp :=
  eaCost_effectiveOperand si base disp (by cases base <;> rfl)

theorem regMem_wellFormed {narrow : Bool} {i : Instr} (h : i.wellFormed narrow = true) {rm : RegMem}
    (hrm : regMemOf i = some rm) : rm.wellFormed = true := by
  cases i <;> cases hrm <;> exact h

/-- A two-byte register-or-memory form has no immediate operand. -/
theorem immediateLengths_eq_zero {i : Instr} {address : BitVec 32} (h : ∀ v rel, i.operand1 ≠ .immediate v rel) :
    immediateLengths (i.build address) = [0] := by
  have hbuild : (i.build address).operand1 = i.operand1 := rfl
  unfold immediateLengths
  rw [hbuild]
  split
  · exact absurd ‹_› (h _ _)
  all_goals rfl

theorem two_mem_wordLengths (c : Prop) [Decidable c] : 2 ∈ (if c then [1, 2] else [2]) := by
  split <;> simp

/-- A MOV or ADD without displacement bytes is as long as its ModR/M byte and its immediate. -/
theorem size_of_mem_operand {i : Instr} (hop : i.op = .mov ∨ i.op = .add) {base : EaBase}
    (hrm : regMemOf i = some (.mem base)) (address : BitVec 32) :
    (immediateLengths (i.build address)).any (fun n => (i.build address).size == 2 + n) = true := by
  have hsign (d : Byte) : d.signExtend 32 = ((d.signExtend 32).setWidth 8).signExtend 32 := by
    congr 1
    ext j hj
    simp [BitVec.getElem_signExtend, hj, show j < 32 by omega]
  cases i <;> cases hrm
  case movNormal.refl d w reg =>
    rw [immediateLengths_eq_zero (by cases d <;> intro v rel h <;> cases h)]
    rfl
  case addNormal.refl d w reg =>
    rw [immediateLengths_eq_zero (by cases d <;> intro v rel h <;> cases h)]
    rfl
  case movRegisterOrMemoryToSegmentRegister.refl sr => rfl
  case movSegmentRegisterToRegisterOrMemory.refl sr => rfl
  case movImmediateToRegisterOrMemory.refl imm => cases imm <;> rfl
  case addImmediateToRegisterOrMemory.refl imm =>
    cases imm with
    | byte d => rfl
    | word d => exact List.any_eq_true.mpr ⟨2, two_mem_wordLengths _, rfl⟩
    | wordSigned d =>
      have hlengths : immediateLengths ((Instr.addImmediateToRegisterOrMemory (.mem base) (.wordSigned d)).build address) =
          [1, 2] := if_pos ⟨rfl, hsign d⟩
      rw [hlengths]
      rfl
  all_goals simp [Instr.op] at hop

theorem hasPlainEncoding_mem {narrow : Bool} {i : Instr} (hwf : i.wellFormed narrow = true)
    (hop : i.op = .mov ∨ i.op = .add) {base : EaBase} (hrm : regMemOf i = some (.mem base)) (address : BitVec 32) :
    hasPlainEncoding (i.build address) base.term1 base.term2 = true := by
  have hbp : base ≠ .bp := by simpa [RegMem.wellFormed] using regMem_wellFormed hwf hrm
  have hterms : (base.term2.isSome || base.term1.access != .word .bp) = true := by
    revert hbp
    cases base <;> decide
  rw [hasPlainEncoding, hterms, size_of_mem_operand hop hrm, Bool.and_self]

/-- A displacement costs 4, or nothing when its value is 0. -/
theorem eaCost_effectiveOperand_allowed (si : SemInstr) (base : EaBase) (disp : BitVec 16) :
    eaCost si (effectiveOperand base disp) = termsCost base + 4 ∨
      (disp = 0 ∧ eaCost si (effectiveOperand base disp) = termsCost base) := by
  rw [eaCost_row]
  obtain ⟨-, hcost, -⟩ := displacementCost_cases si base.term1 base.term2 disp
  rcases hcost with h | ⟨h0, h⟩
  · exact .inl (by rw [h])
  · exact .inr ⟨h0, by rw [h, Nat.add_zero]⟩

theorem eaCost_allowed {narrow : Bool} {i : Instr} (hwf : i.wellFormed narrow = true) (hop : i.op = .mov ∨ i.op = .add)
    {rm : RegMem} (hrm : regMemOf i = some rm) {w : Bool} (hkind : operandKind (rm.operand w) = .memory)
    (address : BitVec 32) : EaCostAllowed rm (eaCost (i.build address) (rm.operand w)) := by
  cases rm with
  | reg r => exact absurd hkind (operandKind_register_ne_memory _)
  | direct a => rfl
  | mem base =>
    obtain ⟨-, -, hplain⟩ := displacementCost_cases (i.build address) base.term1 base.term2 0
    change eaCost _ (effectiveOperand base 0) = termsCost base
    rw [eaCost_row, hplain rfl (hasPlainEncoding_mem hwf hop hrm address), Nat.add_zero]
  | mem8 base d =>
    have hzero : d.signExtend 16 = 0 → d = 0 := by
      intro h
      rw [← BitVec.toInt_inj, BitVec.toInt_signExtend_of_le (by decide)] at h
      exact BitVec.toInt_inj.mp h
    rcases eaCost_effectiveOperand_allowed (i.build address) base (d.signExtend 16) with h | ⟨h0, h⟩
    · exact .inl h
    · exact .inr ⟨hzero h0, h⟩
  | mem16 base d => exact eaCost_effectiveOperand_allowed (i.build address) base d

/-- The memory operand of a row with "+ EA" is the instruction's ModR/M operand. -/
theorem memoryOperand_of_addEa {i : Instr} {base : Nat} (h : (kindsOf i, base, true) ∈ baseTable) (address : BitVec 32) :
    ∃ rm, regMemOf i = some rm ∧ memoryOperand (i.build address) = rm.operand i.wide ∧
      operandKind (rm.operand i.wide) = .memory := by
  obtain ⟨-, ⟨hk0, hk1⟩ | ⟨hk0, hacc, hk1⟩⟩ := kinds_of_addEa h
  · rcases operand0_memory hk0 with ⟨rm, hrm, h0⟩ | hacc
    · exact ⟨rm, hrm, (if_pos hk0).trans h0, h0 ▸ hk0⟩
    · exact absurd hacc hk1
  · rcases operand1_memory hk1 with ⟨rm, hrm, h1⟩ | hacc'
    · exact ⟨rm, hrm, (if_neg hk0).trans h1, h1 ▸ hk1⟩
    · exact absurd hacc' hacc

/-- Settles O55: the estimate looks its row up in the table; the memory operand of a row with "+ EA" is the ModR/M
operand, whose cost is the row's of the rm table and the displacement's. -/
theorem cycleEstimateExistsForTheListedTuples : Obligations.CycleEstimateExistsForTheListedTuples := by
  refine ⟨fun narrow i address hwf => ⟨fun base addEa hrow => ?listed, fun hnone => ?missing⟩, fun acc => ?kind,
    fun _ _ => rfl, operandKind_eq_memory, rfl⟩
  case listed =>
    have hbase : baseRow i.op (operandKind i.operand0) (operandKind i.operand1) = some ⟨base, addEa⟩ :=
      (baseRow_eq_some_iff ..).mpr hrow
    refine ⟨_, cycleEstimate_of_row (si := i.build address) hbase, ?_⟩
    cases addEa
    · rfl
    · obtain ⟨rm, hrm, hmem, hkind⟩ := memoryOperand_of_addEa hrow address
      rw [if_pos rfl, if_pos rfl, hmem]
      exact ⟨rm, hrm, eaCost_allowed hwf (kinds_of_addEa hrow).1 hrm hkind address⟩
  case missing =>
    have hbase : baseRow i.op (operandKind i.operand0) (operandKind i.operand1) = none := by
      refine Option.eq_none_iff_forall_not_mem.mpr fun row hrow => ?_
      exact hnone row.base row.addEa ((baseRow_eq_some_iff ..).mp hrow)
    exact cycleEstimate_of_no_row (si := i.build address) hbase
  case kind =>
    rw [operandKind, accessKind]
    refine if_congr ?_ rfl rfl
    cases acc with
    | word slot => simp [accessSlot]
    | low r => cases r <;> decide
    | high r => cases r <;> decide

end Sys2Proof.Proofs
end

section

namespace Sys2Proof.Proofs

open Sys2Proof.Machine Sys2Proof.Claim

/-! ### The step at the two ends: the end of the run, and a decode that fails (70_reset_and_hazards.md R289, R290) -/

theorem step_at_end {s : State} (h : s.cursor = s.code.length) : step s = .refused .runEnded := by
  rw [step, State.runStep, if_pos ((runEnded_iff s).mpr h)]

theorem step_of_decode_error {s : State} {e : DecodeError} (hn : s.cursor ≠ s.code.length)
    (h : s.decodeNext = .error e) : step s = .fault (decodeFault e) := by
  have hrun : ¬ s.runEnded = true := fun hr => hn ((runEnded_iff s).mp hr)
  rw [step, State.runStep, if_neg hrun, State.attemptStep, h]
  rfl

/-- Away from `N`, a decoded instruction completes and the cursor follows IP. -/
theorem step_of_decode_ok {s : State} {i : Instr} {rest : List Byte} (hn : s.cursor ≠ s.code.length)
    (h : s.decodeNext = .ok (i, rest)) : ∃ u, exec i (s.afterDecode i) = .next u ∧
      step s = .next { u with cursor := u.cursor + cursorDelta (s.getReg .ip) (u.getReg .ip) i.size } := by
  obtain ⟨u, hu⟩ := everyInstructionCompletes i (s.afterDecode i)
  refine ⟨u, hu, ?_⟩
  rw [step_of_decodeNext hn h, State.runInstr, hu]
  rfl

/-- The three outcomes of a step. -/
theorem step_cases (s : State) :
    (s.cursor = s.code.length ∧ step s = .refused .runEnded) ∨
    (∃ e, s.cursor ≠ s.code.length ∧ s.decodeNext = .error e ∧ step s = .fault (decodeFault e)) ∨
    (∃ t, s.cursor ≠ s.code.length ∧ (∃ x, s.decodeNext = .ok x) ∧ step s = .next t) := by
  by_cases hn : s.cursor = s.code.length
  · exact .inl ⟨hn, step_at_end hn⟩
  · cases hd : s.decodeNext with
    | error e => exact .inr (.inl ⟨e, hn, rfl, step_of_decode_error hn hd⟩)
    | ok x =>
      obtain ⟨u, -, ht⟩ := step_of_decode_ok (i := x.1) (rest := x.2) hn hd
      exact .inr (.inr ⟨_, hn, ⟨x, rfl⟩, ht⟩)

/-- A cursor outside `0..N` reads no byte (92_eei_decisions.md D15). -/
theorem decodeNext_outside {s : State} (h : s.cursor < 0 ∨ (s.code.length : Int) < s.cursor) :
    s.decodeNext = .error .endOfStream := by
  rw [State.decodeNext, State.fetchBytes, bytesFrom_outside (by omega)]
  rfl

/-- Settles O45: of the three outcomes only the failed decode is a fault. -/
theorem stepFaultsExactlyOnDecodeErrors : Obligations.StepFaultsExactlyOnDecodeErrors := by
  intro s
  refine ⟨fun f => ?_, fun h => step_of_decode_error (by omega) (decodeNext_outside h)⟩
  rcases step_cases s with ⟨hn, h⟩ | ⟨e, hn, hd, h⟩ | ⟨t, hn, ⟨x, hd⟩, h⟩
  · simp [h, hn]
  · rw [h, hd]
    cases e <;> simp [hn, decodeFault, eq_comm]
  · simp [h, hd]

/-- Settles O46: of the three outcomes only the one at `cursor = N` is a refusal. -/
theorem runEndsExactlyWhenCursorIsN : Obligations.RunEndsExactlyWhenCursorIsN := by
  intro s
  rcases step_cases s with ⟨hn, h⟩ | ⟨e, hn, -, h⟩ | ⟨t, hn, -, h⟩
  · simp [h, hn, eq_comm]
  · simp [h, hn]
  · simp [h, hn]

/-- Settles O42: the record update is `afterDecode`, the signed difference `cursorDelta`. -/
theorem stepRunsTheDecodedInstruction : Obligations.StepRunsTheDecodedInstruction :=
  fun _ _ _ hn h => step_of_decode_ok hn h

/-- Settles O53: decode-only mode has the step's three outcomes with `afterDecode` in place of the execution. -/
theorem decodeOnlyMovesTheCursorOnly : Obligations.DecodeOnlyMovesTheCursorOnly := by
  intro s
  by_cases hn : s.cursor = s.code.length
  · have hend : decodeOnly s = .refused .runEnded := by
      rw [decodeOnly, if_pos ((runEnded_iff s).mpr hn)]
    exact ⟨fun hne => absurd hn hne, fun _ => hend, fun t ht => by rw [hend] at ht; cases ht⟩
  · have hrun : ¬ s.runEnded = true := fun hr => hn ((runEnded_iff s).mp hr)
    have hok {i : Instr} {rest : List Byte} (hd : s.decodeNext = .ok (i, rest)) :
        decodeOnly s = .next (s.afterDecode i) := by
      rw [decodeOnly, if_neg hrun, hd]
    have herr {e : DecodeError} (hd : s.decodeNext = .error e) : decodeOnly s = .fault (decodeFault e) := by
      rw [decodeOnly, if_neg hrun, hd]
      rfl
    refine ⟨fun _ => ⟨fun i rest hd => hok hd, herr, herr⟩, fun h => absurd h hn, fun t ht => ?_⟩
    cases hd : s.decodeNext with
    | error e =>
      rw [herr hd] at ht
      cases ht
    | ok x =>
      rw [hok (i := x.1) (rest := x.2) hd] at ht
      cases ht
      exact ⟨x.1, x.2, rfl, rfl⟩

/-! ### What every step keeps (10_state.md R18, R19; 70_reset_and_hazards.md R290) -/

/-- Settles O40: execution keeps the two fields, and the cursor's moves do not touch them. -/
theorem noStepChangesTheParameters : Obligations.NoStepChangesTheParameters := by
  intro s t h
  obtain ⟨i, rest, u, -, -, hexec, rfl⟩ := step_next h
  obtain ⟨⟨-, hcode, hparams⟩, -⟩ := exec_frame hexec
  exact ⟨hparams, hcode⟩

/-- Settles O47: no cell is listed, FLAGS is 0, and cursor and IP are both 0. -/
theorem resetIsSound : Obligations.ResetIsSound := ⟨⟨reset_wf, rfl⟩, rfl⟩

/-- Settles O41: every slot and the empty memory read 0. -/
theorem resetIsAllZero : Obligations.ResetIsAllZero :=
  ⟨fun r => by cases r <;> rfl, fun _ => rfl, rfl, rfl, rfl, rfl⟩

theorem flagsMasked_iff (s : State) : s.flagsMasked = true ↔ s.getReg .flags &&& flagsMask = s.getReg .flags := by
  rw [State.flagsMasked, beq_iff_eq]
  rfl

/-- Settles O48: execution keeps the canonical form; FLAGS stays what it was or becomes the unit's word, which lies in
the mask. -/
theorem stepKeepsSound : Obligations.StepKeepsSound := by
  intro s t ⟨hmem, hflags⟩ h
  obtain ⟨i, rest, u, -, -, hexec, rfl⟩ := step_next h
  obtain ⟨-, hwf, -⟩ := exec_frame hexec
  rw [flagsMasked_iff] at hflags
  have hmasked : u.getReg .flags &&& flagsMask = u.getReg .flags := by
    rcases exec_flags hexec with hkept | ⟨-, fn, a, b, w, hunit⟩
    · rw [hkept]
      exact hflags
    · rw [hunit, flagUnit_masked]
  exact ⟨⟨hwf hmem, (flagsMasked_iff _).mpr hmasked⟩, fun k hk => getLsbD_eq_false_of_masked hmasked hk⟩

/-- IP and the cursor move alike: by the size, and by the displacement of a taken branch. -/
theorem exec_moves_ip {i : Instr} {s t : State} (h : exec i s = .next t) :
    ∃ d : Int, (d = 0 ∨ ∃ b : Byte, i.operand0 = relOperand b ∧ d = b.toInt) ∧ t.getReg .ip = ipAfter s i.size d := by
  rcases exec_next h with ⟨-, v, u, -, -, rfl⟩ | ⟨f, -, v, x, -, -, rfl⟩ | ⟨-, cx, disp, -, hdisp, rfl⟩
  · exact ⟨0, .inl rfl, rfl⟩
  · exact ⟨0, .inl rfl, rfl⟩
  · exact ⟨_, hdisp (s.getReg .flags) (s.getReg .cx), rfl⟩

/-- A step from `s` that ran `i` moved the cursor and IP by the same `size + d`. -/
theorem step_moves {s t : State} (h : step s = .next t) :
    ∃ i rest, s.decodeNext = .ok (i, rest) ∧ ∃ d : Int,
      (d = 0 ∨ ∃ b : Byte, i.operand0 = relOperand b ∧ d = b.toInt) ∧
      t.cursor = s.cursor + i.size + d ∧ t.getReg .ip = ipAfter s i.size d := by
  obtain ⟨i, rest, u, hd, -, hexec, rfl⟩ := step_next h
  obtain ⟨d, hdisp, hip⟩ := exec_moves_ip hexec
  obtain ⟨⟨hcursor, -⟩, -⟩ := exec_frame hexec
  have hrange : -32768 ≤ d ∧ d < 32768 := by
    rcases hdisp with rfl | ⟨b, -, rfl⟩
    · omega
    · have hlow := b.le_toInt
      have hhigh := b.toInt_lt
      simp at hlow hhigh
      omega
  refine ⟨i, rest, hd, d, hdisp, ?_, hip⟩
  change u.cursor + cursorDelta (s.getReg .ip) (u.getReg .ip) i.size = _
  rw [hip, show ipAfter (s.afterDecode i) i.size d = uint16 ((s.getReg .ip).toNat + i.size + d) from rfl,
    cursorDelta_eq _ _ _ hrange, hcursor]
  rfl

/-- Settles O44: the decoder is a function, so the instruction the step ran is the given one. -/
theorem cursorFollowsTakenBranches : Obligations.CursorFollowsTakenBranches := by
  intro s t i rest hd h
  obtain ⟨i', rest', hd', hmoves⟩ := step_moves h
  cases hd.symm.trans hd'
  exact hmoves

theorem uint16_add_congr {a b : Int} (h : uint16 a = uint16 b) (d : Int) : uint16 (a + d) = uint16 (b + d) := by
  simp only [uint16, BitVec.ofInt_add] at h ⊢
  rw [h]

/-- Settles O49: both move by `size + d`, the cursor exactly and IP modulo 65536. -/
theorem stepKeepsCursorTrackingIp : Obligations.StepKeepsCursorTrackingIp := by
  intro s t htracks h
  obtain ⟨i, rest, -, d, -, hcursor, hip⟩ := step_moves h
  have hbefore : uint16 s.cursor = uint16 s.regs.ip.toNat := by
    rw [htracks, uint16, BitVec.ofInt_natCast, BitVec.ofNat_toNat, BitVec.setWidth_eq]
  have hafter := uint16_add_congr hbefore (i.size + d)
  rw [← Int.add_assoc, ← Int.add_assoc] at hafter
  rw [State.CursorTracksIp, hcursor, hafter]
  exact hip.symm

/-- Settles O50: a cursor below 65536 is its own residue, which is IP by O49. -/
theorem cursorEqualsIpUntilItWraps : Obligations.CursorEqualsIpUntilItWraps := by
  intro s t heq h hlow hhigh
  have htracks : s.CursorTracksIp := by
    rw [State.CursorTracksIp, heq, uint16, BitVec.ofInt_natCast, BitVec.ofNat_toNat, BitVec.setWidth_eq]
  have hafter : uint16 t.cursor = t.regs.ip := stepKeepsCursorTrackingIp s t htracks h
  rw [← hafter, uint16_toNat]
  omega

end Sys2Proof.Proofs
end

section

namespace Sys2Proof.Proofs

open Sys2Proof.Machine Sys2Proof.Claim

/-! ### Instructions in the slice (40_decoder.md R120 to R122) -/

theorem decodeNext_of_bytesAtCursor {s : State} {i : Instr} (hwf : i.wellFormed s.params.accAddrNarrow = true)
    (h : BytesAtCursor s (encode i)) : s.cursor ≠ s.code.length ∧ ∃ rest, s.decodeNext = .ok (i, rest) := by
  obtain ⟨hlen, hpos, hle⟩ := sized i
  constructor
  · intro hend
    have hfirst := h 0 (by omega)
    rw [codeByte_outside (by omega), List.getElem?_eq_getElem (by omega)] at hfirst
    cases hfirst
  · obtain ⟨rest, hrest⟩ := bytesFrom_prefix Config.instrMax s.cursor (encode i) (hlen ▸ hle) h
    exact ⟨rest, by rw [State.decodeNext, State.fetchBytes, hrest, decodeInvertsEncode _ i rest hwf]⟩

/-- Settles O43: the fetched bytes start with the encoding, which decodes back to the instruction. -/
theorem stepRunsTheInstructionInTheSlice : Obligations.StepRunsTheInstructionInTheSlice := by
  intro s i hwf h
  obtain ⟨hn, rest, hd⟩ := decodeNext_of_bytesAtCursor hwf h
  obtain ⟨t, ht, hstep⟩ := step_of_decode_ok hn hd
  exact ⟨t, _, ht, hstep, rfl, rfl, rfl, rfl⟩

theorem ipAfter_back (s : State) : ipAfter s 2 (-2) = s.regs.ip := by
  rw [ipAfter, show (s.regs.ip.toNat : Int) + (2 : Nat) + -2 = s.regs.ip.toNat by omega, BitVec.ofInt_natCast,
    BitVec.ofNat_toNat, BitVec.setWidth_eq]

/-- Settles O34: EB FE is JMP by -2, which takes IP and the cursor back over its two bytes. -/
theorem jumpToItselfStaysForEver : Obligations.JumpToItselfStaysForEver := by
  intro s h
  obtain ⟨hn, rest, hd⟩ := decodeNext_of_bytesAtCursor (i := .jmpDirectShort 0xFE) rfl h
  obtain ⟨u, hu, hstep⟩ := step_of_decode_ok hn hd
  obtain ⟨-, hjmp, -⟩ := jcxzTestsAndJmpAlwaysJumps 0xFE (s.afterDecode (.jmpDirectShort 0xFE))
  have hip : ipAfter (s.afterDecode (.jmpDirectShort 0xFE)) 2 (-2) = s.regs.ip := ipAfter_back _
  have hdelta : cursorDelta s.regs.ip s.regs.ip 2 = -2 := by
    have hmoved := cursorDelta_eq s.regs.ip 2 (-2) (by omega)
    rwa [show uint16 ((s.regs.ip.toNat : Int) + (2 : Nat) + -2) = s.regs.ip from hip] at hmoved
  have hu' : u = { s with cursor := s.cursor + 2 } := by
    have hnext := hu.symm.trans hjmp
    rw [if_pos rfl, show BitVec.toInt (0xFE : Byte) = -2 from rfl, hip] at hnext
    exact Host.Outcome.next.inj hnext
  rw [hstep, hu']
  change Host.Outcome.next { s with cursor := s.cursor + 2 + cursorDelta s.regs.ip s.regs.ip 2 } = _
  rw [hdelta, Int.add_assoc, show (2 : Int) + -2 = 0 from rfl, Int.add_zero]

/-! ### The load (70_reset_and_hazards.md R286) -/

theorem getD_eq_getElem? {file : List Byte} {k : Nat} (hk : k < file.length) : some (file.getD k 0) = file[k]? := by
  rw [List.getElem?_eq_getElem hk, List.getD_eq_getElem _ _ hk]

theorem codeByte_inside {s : State} {k : Nat} (hk : k < s.code.length) : s.codeByte k = some (s.sliceByte k) := by
  rw [State.codeByte, if_neg (by omega), Int.toNat_natCast]

theorem slice_length (source : CodeSource) (file : List Byte) : (source.slice file).length = file.length := by
  cases source <;> rfl

/-- Settles O52: the file is stored byte by byte, and either slice reads what was stored. -/
theorem loadPlacesTheProgram : Obligations.LoadPlacesTheProgram := by
  intro p source csInit file s hw hlen
  obtain ⟨hregs, -, -, -, -, hother⟩ := writeBytes_keeps file s p.origin.toNat
  have hbyte (k : Nat) (hk : k < file.length) :
      (load p source csInit file s).memByte (p.origin.toNat + k) = file.getD k 0 :=
    writeBytes_get file s p.origin.toNat hw hlen k hk
  refine ⟨fun k hk => ⟨hbyte k hk, ?code⟩, fun a ha => hother a ha, rfl, fun r hr => ?regs, rfl,
    slice_length source file, rfl, load_wf hw p source csInit file⟩
  case code =>
    have hslice : (load p source csInit file s).sliceByte k = file.getD k 0 := by
      cases source
      · exact hbyte k hk
      · rfl
    have hk' : k < (load p source csInit file s).code.length := (slice_length source file).symm ▸ hk
    rw [codeByte_inside hk', hslice, getD_eq_getElem? hk]
  case regs =>
    have hcs : r ≠ .cs := fun h => hr (h ▸ List.mem_cons_self)
    refine (State.getReg_setReg_ne hcs _ csInit).trans ?_
    rw [State.getReg, hregs]
    rfl

/-! ### The two settings of `CODE_SOURCE` (20_memory.md R58) -/

/-- The state with another code slice. -/
def withCode (c : CodeSlice) (s : State) : State := { s with code := c }

theorem srcValue_withCode (c : CodeSlice) (op : Operand) (wide : Bool) (s : State) :
    srcValue op wide (withCode c s) = srcValue op wide s := by
  cases op with
  | effective t1 t2 d o => cases t2 <;> rfl
  | _ => rfl

theorem alignDst_withCode (c : CodeSlice) (op : Operand) (v : Word) (wide : Bool) (s : State) :
    alignDst op v wide (withCode c s) = alignDst op v wide s := by
  cases op with
  | effective t1 t2 d o => cases t2 <;> rfl
  | register acc => cases acc <;> rfl
  | _ => rfl

theorem regWrite_withCode (c : CodeSlice) (acc : RegAccess) (v : Word) (s : State) :
    regWrite acc v (withCode c s) = withCode c (regWrite acc v s) := by
  cases acc <;> rfl

theorem memWrite_withCode (c : CodeSlice) (addr : Int) (wide : Bool) (v : Word) (s : State) :
    memWrite addr wide v (withCode c s) = withCode c (memWrite addr wide v s) := by
  cases wide <;> rfl

theorem effectiveAddress_withCode (c : CodeSlice) (i : Instr) (s : State) :
    effectiveAddress i.operand0 (withCode c s) = effectiveAddress i.operand0 s :=
  Instr.effectiveAddress_congr (fun _ _ => rfl) i

theorem writeBack_withCode (c : CodeSlice) (op : Operand) (wide : Bool) (r : Int) (s : State) :
    writeBack op wide r (withCode c s) = withCode c (writeBack op wide r s) := by
  cases op with
  | absent => rfl
  | immediate v rel => rfl
  | register acc => cases acc <;> rfl
  | direct a => exact memWrite_withCode c _ wide _ s
  | effective t1 t2 d o => cases t2 <;> exact memWrite_withCode c _ wide _ s

theorem store_withCode (c : CodeSlice) (f : ArithOp) (op : Operand) (wide : Bool) (r : Int) (s : State) :
    f.store op wide r (withCode c s) = withCode c (f.store op wide r s) := by
  cases f with
  | add => exact writeBack_withCode c op wide r s
  | sub => exact writeBack_withCode c op wide r s
  | cmp => rfl

/-- No instruction reads or writes the code slice. -/
theorem exec_withCode (c : CodeSlice) {i : Instr} {s t : State} (h : exec i s = .next t) :
    exec i (withCode c s) = .next (withCode c t) := by
  by_cases htwo : i.op ∈ twoOperandOps
  · obtain ⟨v, hv⟩ := Instr.srcValue_some htwo s
    have hv' := (srcValue_withCode c i.operand1 i.wide s).trans hv
    rcases twoOperandOps_cases htwo with hmov | ⟨f, hf⟩
    · rcases Instr.operand0_cases htwo s with ⟨acc, h0, -⟩ | ⟨addr, ha⟩
      · cases h.symm.trans (exec_mov_register hmov h0 hv)
        rw [exec_mov_register hmov h0 hv', regWrite_withCode]
        rfl
      · cases h.symm.trans (exec_mov_memory hmov ha hv)
        rw [exec_mov_memory hmov ((effectiveAddress_withCode c i s).trans ha) hv', memWrite_withCode]
        rfl
    · obtain ⟨x, hx⟩ := alignDst_some htwo v s
      cases h.symm.trans (exec_arith_next hf hv hx)
      rw [exec_arith_next hf hv' ((alignDst_withCode c i.operand0 v i.wide s).trans hx),
        show withUnitFlags f x (withCode c s) = withCode c (withUnitFlags f x s) from rfl, store_withCode]
      rfl
  · obtain ⟨cx, disp, -, -, hcontrol⟩ := controls htwo
    cases h.symm.trans (hcontrol s)
    exact hcontrol (withCode c s)

/-- A step is a function of the code slice through its length and the decoded bytes only. -/
theorem step_withCode {c : CodeSlice} {s : State} (hlen : c.length = s.code.length)
    (hd : (withCode c s).decodeNext = s.decodeNext) :
    (∃ r, step s = .refused r ∧ step (withCode c s) = .refused r) ∨
    (∃ f, step s = .fault f ∧ step (withCode c s) = .fault f) ∨
    (∃ t, step s = .next t ∧ step (withCode c s) = .next (withCode c t)) := by
  rcases step_cases s with ⟨hn, h⟩ | ⟨e, hn, he, h⟩ | ⟨t, hn, ⟨⟨i, rest⟩, hok⟩, -⟩
  · exact .inl ⟨_, h, step_at_end (s := withCode c s) (hn.trans (congrArg Nat.cast hlen.symm))⟩
  · have hn' : (withCode c s).cursor ≠ c.length := hlen ▸ hn
    exact .inr (.inl ⟨_, h, step_of_decode_error hn' (hd.trans he)⟩)
  · have hn' : (withCode c s).cursor ≠ c.length := hlen ▸ hn
    obtain ⟨u, hu, hstep⟩ := step_of_decode_ok hn hok
    obtain ⟨u', hu', hstep'⟩ := step_of_decode_ok hn' (hd.trans hok)
    cases hu'.symm.trans (exec_withCode c hu)
    exact .inr (.inr ⟨_, hstep, hstep'⟩)

theorem bytesFrom_congr {s u : State} (h : ∀ i, s.codeByte i = u.codeByte i) (fuel : Nat) (i : Int) :
    s.bytesFrom fuel i = u.bytesFrom fuel i := by
  induction fuel generalizing i with
  | zero => rfl
  | succ n ih =>
    simp only [State.bytesFrom, h i, ih]

/-- A private copy of the bytes in the window reads as the window. -/
theorem codeByte_privateCopy {s : State} {bytes : List Byte} (hcode : s.code = .memoryWindow bytes.length)
    (hbytes : ∀ k : Nat, k < bytes.length → s.memByte (s.params.origin.toNat + k) = bytes.getD k 0) (i : Int) :
    (withCode (.privateCopy bytes) s).codeByte i = s.codeByte i := by
  have hlen : s.code.length = bytes.length := by
    rw [hcode]
    rfl
  by_cases hi : i < 0 ∨ (bytes.length : Int) ≤ i
  · have hcopy : (withCode (.privateCopy bytes) s).codeByte i = none := codeByte_outside hi
    exact hcopy.trans (codeByte_outside (hlen ▸ hi)).symm
  · obtain ⟨k, rfl⟩ := Int.eq_ofNat_of_zero_le (show 0 ≤ i by omega)
    have hk : k < bytes.length := by omega
    have hslice : s.sliceByte k = bytes.getD k 0 := by
      rw [State.sliceByte, hcode]
      exact hbytes k hk
    have hcopy : (withCode (.privateCopy bytes) s).codeByte k = some (bytes.getD k 0) :=
      codeByte_inside hk
    have hwindow := codeByte_inside (s := s) (k := k) (hlen ▸ hk)
    rw [hslice] at hwindow
    exact hcopy.trans hwindow.symm

/-- Settles O51: both settings fetch the same bytes, and execution does not see the slice; a step that leaves the window's
cells leaves the copy equal to it. -/
theorem codeSourceSettingsAgree : Obligations.CodeSourceSettingsAgree := by
  rintro s u ⟨bytes, hcode, rfl, hbytes⟩
  have hread := codeByte_privateCopy hcode hbytes
  have hd : (withCode (.privateCopy bytes) s).decodeNext = s.decodeNext :=
    congrArg (decode s.params.accAddrNarrow) (bytesFrom_congr hread Config.instrMax s.cursor)
  have hlen : (CodeSlice.privateCopy bytes).length = s.code.length := by
    rw [hcode]
    rfl
  change (∀ f, step s = .fault f ↔ step (withCode (.privateCopy bytes) s) = .fault f) ∧
    (∀ r, step s = .refused r ↔ step (withCode (.privateCopy bytes) s) = .refused r) ∧ _
  rcases step_withCode hlen hd with ⟨r, h, h'⟩ | ⟨f, h, h'⟩ | ⟨t, h, h'⟩
  · exact ⟨fun f => by simp [h, h'], fun r => by simp [h, h'], fun s' hs' => by simp [h] at hs'⟩
  · exact ⟨fun f => by simp [h, h'], fun r => by simp [h, h'], fun s' hs' => by simp [h] at hs'⟩
  · refine ⟨fun f => by simp [h, h'], fun r => by simp [h, h'], fun s' hs' => ?_⟩
    cases h.symm.trans hs'
    obtain ⟨hparams, hcode'⟩ := noStepChangesTheParameters s t h
    refine ⟨h', fun hkept => ⟨bytes, hcode'.trans hcode, rfl, fun k hk => ?_⟩⟩
    have hin : s.inCodeWindow (phys (s.params.origin.toNat + k)) := ⟨k, hlen ▸ hk, rfl⟩
    rw [hparams]
    exact (hkept _ hin).trans (hbytes k hk)

end Sys2Proof.Proofs
end
